-- ==== Sys2Proof/Config.lean ====
section
/-! DEFINITION. The implementation parameters of 00_scope.md R6, each a named constant with the value the spec
gives (log 7, log 8). `PIN_MAP`, `CPU_FREQ` and `INIT_PULSE_ORDER` are arguments of the model and stand in the state's
environment (log 2, log 9, log 12). -/

namespace Sys2Proof

/-- `BITS_PER_BYTE`, the data bits of a byte transfer. -/
abbrev Config.bitsPerByte : Nat := 8

/-- `COUNTER_WIDTH`, the width of the cycle counter, of `DELAY` and of `T0` (D5). -/
abbrev Config.counterWidth : Nat := 32

/-- `SPEED_WIDTH`, the width of `speed_hz` (D4). -/
abbrev Config.speedWidth : Nat := 32

/-- `PIN_ID_WIDTH`, the width of a logical pin identifier (D4). -/
abbrev Config.pinIdWidth : Nat := 8

/-- `MIN_SPEED_HZ`, the lower clamp of the bus speed. -/
def Config.minSpeedHz : Nat := 1000

/-- `FIXED_OVERHEAD_CYCLES`, subtracted in `calibrate`. -/
def Config.fixedOverheadCycles : Nat := 130

/-- `HALF_PERIOD_SCALE`, the constant 0.5e6 of the calibration formula. -/
def Config.halfPeriodScale : Nat := 500000

/-- `RECOVERY_PULSES`, the SCL pulses of `init`. -/
def Config.recoveryPulses : Nat := 28

/-- `STRETCH_CAP`: the spec builds no cap and gives a capped wait no behaviour, so no operation reads this
(40_timing_and_line_driver.md R76, D19). -/
def Config.stretchCap : Option Nat := none

/-- The order of the two line states inside each recovery pulse of `init` (D12). -/
inductive PulseOrder where
  | highThenLow
  | lowThenHigh
deriving DecidableEq, Repr

/-- The default of `INIT_PULSE_ORDER`. -/
def Config.initPulseOrder : PulseOrder := .highThenLow

end Sys2Proof
end

