-- ==== Sys2Proof/Word.lean ====
section
/-! DEFINITION. The word types of the I2C master bit-bang controller and the pair of line bits.
Widths: 00_scope.md R6 (log 7). Bit order of a pair: 00_scope.md R7. -/

namespace Sys2Proof

/-- One line bit: `true` is high or released, `false` is low or pulled down (00_scope.md R7). -/
abbrev Bit := Bool

/-- A data byte (30_encoding.md R53). -/
abbrev Byte := BitVec Config.bitsPerByte

/-- A logical pin identifier. -/
abbrev PinId := BitVec Config.pinIdWidth

/-- A bus speed in Hz. -/
abbrev Speed := BitVec Config.speedWidth

/-- A cycle-counter value; `DELAY` and `T0` have the same width (D5). -/
abbrev Cycles := BitVec Config.counterWidth

/-- The response word (10_state.md R21). -/
abbrev Resp := BitVec 32

/-- One command word (30_encoding.md R50). -/
abbrev CommandWord := BitVec 64

/-- A pair of line bits, always in the order (SDA, SCL) (00_scope.md R7). -/
structure Lines where
  sda : Bit
  scl : Bit
deriving DecidableEq, Repr

end Sys2Proof
end

