-- ==== Sys2Proof/Syntax.lean ====
section
/-! DEFINITION. The ten commands of 30_encoding.md R52, one constructor per row of the opcode table, with their
operands (R53), and the bare command names that `UPC` holds (10_state.md R20). -/

namespace Sys2Proof

/-- A command with its operands. -/
inductive Instr where
  | configure (sdaPin sclPin : PinId) (speed : Speed)
  | start
  | stop
  | writeByte (b : Byte)
  | readByte
  | sendAck
  | sendNack
  | checkAck
  | getSdaPin
  | getSclPin
deriving DecidableEq, Repr

/-- The command without its operands. -/
inductive Command where
  | configure
  | start
  | stop
  | writeByte
  | readByte
  | sendAck
  | sendNack
  | checkAck
  | getSdaPin
  | getSclPin
deriving DecidableEq, Repr

/-- Why a word is no command (30_encoding.md R54). -/
inductive DecodeError where
  /-- The opcode field is 0x00 or 0x0B to 0xFF. -/
  | unknownOpcode
  /-- The opcode is one of the ten, and a must-be-zero bit of its format is 1. -/
  | reservedBitSet
deriving DecidableEq, Repr

end Sys2Proof
end

