-- ==== Sys2Proof/WellFormed.lean ====
section
/-! DEFINITION. Which commands a host may form. Every operand has the width of its field, so an out-of-range
operand cannot be written (30_encoding.md R53); the one check left is the legal-values column of
10_state.md section 2: the two identifiers of CONFIGURE differ. -/

namespace Sys2Proof

/-- CONFIGURE names two different identifiers (10_state.md section 2, `scl_pin`); nothing else can be ill-formed. -/
def Instr.wellFormed : Instr → Bool
  | .configure sdaPin sclPin _ => sdaPin != sclPin
  | .start => true
  | .stop => true
  | .writeByte _ => true
  | .readByte => true
  | .sendAck => true
  | .sendNack => true
  | .checkAck => true
  | .getSdaPin => true
  | .getSclPin => true

end Sys2Proof
end

