-- ==== Sys2Proof/Decode.lean ====
section
/-! DEFINITION. The decoder, total on every 64-bit word, and the encoder, both written from the formats of
30_encoding.md R51 and the opcode map of R52; then the map's mask and match columns as the spec prints them. -/

namespace Sys2Proof

/-- Bits 63:56, the opcode in every format. -/
def opcodeField (w : CommandWord) : BitVec 8 := w.extractLsb' 56 8

/-- Bits 55:48: `sda_pin` of format C, `b` of format B. -/
def operandField (w : CommandWord) : BitVec 8 := w.extractLsb' 48 8

/-- Bits 47:40: `scl_pin` of format C. -/
def sclPinField (w : CommandWord) : BitVec 8 := w.extractLsb' 40 8

/-- Bits 39:8: `speed` of format C. -/
def speedField (w : CommandWord) : BitVec 32 := w.extractLsb' 8 32

/-- Format N: bits 55:0 must be zero. -/
def formatN (i : Instr) (w : CommandWord) : Except DecodeError Instr :=
  if w.extractLsb' 0 56 = 0 then .ok i else .error .reservedBitSet

/-- Format B: bits 47:0 must be zero. -/
def formatB (i : Byte → Instr) (w : CommandWord) : Except DecodeError Instr :=
  if w.extractLsb' 0 48 = 0 then .ok (i (operandField w)) else .error .reservedBitSet

/-- Format C: bits 7:0 must be zero. -/
def formatC (i : PinId → PinId → Speed → Instr) (w : CommandWord) : Except DecodeError Instr :=
  if w.extractLsb' 0 8 = 0 then .ok (i (operandField w) (sclPinField w) (speedField w)) else .error .reservedBitSet

/-- The decoder (30_encoding.md R52, R54): a command with its operands, or why the word is invalid. -/
def decode (w : CommandWord) : Except DecodeError Instr :=
  match (opcodeField w).toNat with
  | 0x01 => formatC .configure w
  | 0x02 => formatN .start w
  | 0x03 => formatN .stop w
  | 0x04 => formatB .writeByte w
  | 0x05 => formatN .readByte w
  | 0x06 => formatN .sendAck w
  | 0x07 => formatN .sendNack w
  | 0x08 => formatN .checkAck w
  | 0x09 => formatN .getSdaPin w
  | 0x0A => formatN .getSclPin w
  | _ => .error .unknownOpcode

/-- A word of format N. -/
def encodeN (opcode : BitVec 8) : CommandWord := opcode ++ 0#56

/-- A word of format B. -/
def encodeB (opcode : BitVec 8) (b : Byte) : CommandWord := opcode ++ b ++ 0#48

/-- A word of format C. -/
def encodeC (opcode : BitVec 8) (sdaPin sclPin : PinId) (speed : Speed) : CommandWord :=
  opcode ++ sdaPin ++ sclPin ++ speed ++ 0#8

/-- The opcode of a command (30_encoding.md R52). -/
def Instr.opcode : Instr → BitVec 8
  | .configure _ _ _ => 0x01
  | .start => 0x02
  | .stop => 0x03
  | .writeByte _ => 0x04
  | .readByte => 0x05
  | .sendAck => 0x06
  | .sendNack => 0x07
  | .checkAck => 0x08
  | .getSdaPin => 0x09
  | .getSclPin => 0x0A

/-- The encoder: the word of a command. -/
def encode (i : Instr) : CommandWord :=
  match i with
  | .configure sdaPin sclPin speed => encodeC i.opcode sdaPin sclPin speed
  | .writeByte b => encodeB i.opcode b
  | .start => encodeN i.opcode
  | .stop => encodeN i.opcode
  | .readByte => encodeN i.opcode
  | .sendAck => encodeN i.opcode
  | .sendNack => encodeN i.opcode
  | .checkAck => encodeN i.opcode
  | .getSdaPin => encodeN i.opcode
  | .getSclPin => encodeN i.opcode

/-- The `match` and `mask` columns of the opcode map, as 30_encoding.md R52 prints them, in its order. -/
def opcodeMap : List (CommandWord × CommandWord) :=
  [ (0x0100000000000000, 0xFF000000000000FF),
    (0x0200000000000000, 0xFFFFFFFFFFFFFFFF),
    (0x0300000000000000, 0xFFFFFFFFFFFFFFFF),
    (0x0400000000000000, 0xFF00FFFFFFFFFFFF),
    (0x0500000000000000, 0xFFFFFFFFFFFFFFFF),
    (0x0600000000000000, 0xFFFFFFFFFFFFFFFF),
    (0x0700000000000000, 0xFFFFFFFFFFFFFFFF),
    (0x0800000000000000, 0xFFFFFFFFFFFFFFFF),
    (0x0900000000000000, 0xFFFFFFFFFFFFFFFF),
    (0x0A00000000000000, 0xFFFFFFFFFFFFFFFF) ]

/-- A word matches a row of the map: `W & mask = match` (30_encoding.md R52). -/
def matchesRow (w : CommandWord) (row : CommandWord × CommandWord) : Bool := w &&& row.2 == row.1

/-- The decoder on a word given as a number whose low `nbits` bits are the instruction's; every bit above is 0
(a command is one 64-bit word, so nothing is laid out by byte: 20_memory.md R45). -/
def decodeTableWord (nbits w : Nat) : Option Instr :=
  match decode (BitVec.ofNat 64 (w % 2 ^ nbits)) with
  | .ok i => some i
  | .error _ => none

end Sys2Proof
end

