-- ==== Sys2Proof/Machine/State.lean ====
section
/-! DEFINITION. The state as plain data (10_state.md), the environment that answers the block (R28), and the
reasons a step can stop. Reset values: R27, and log 1 and log 3 where the spec gives none. -/

namespace Sys2Proof.Machine

/-- `ph` of the sequencing position (10_state.md R20). -/
inductive Phase where
  | idle
  | cal
  | setup
  | record
  | waitArm
  | waitPoll
  | drive
  | stretchPoll
  | sample
  | done
deriving DecidableEq, Repr

/-- `UPC = (cmd, k, ph)`: the command in execution or none, the `set_lines` calls of it already completed, and the
phase inside the present one (10_state.md R20). -/
structure Upc where
  cmd : Option Command
  calls : Nat
  phase : Phase
deriving DecidableEq, Repr

/-- `CFG`, BusConfig (10_state.md R11). -/
structure BusConfig where
  sdaPin : PinId
  sclPin : PinId
  speedHz : Speed
deriving DecidableEq, Repr

/-- The events of 20_memory.md R40. -/
inductive Event where
  | recorded (l : Lines)
  | cyc (t : Cycles)
  | drv (l : Lines)
  | rscl (v : Bit)
  | rsda (v : Bit)
  | freq (f : Nat)
  | ioff
  | ion
  | mode (g : Nat)
  | map (id : PinId) (g : Nat)
deriving DecidableEq, Repr

/-- What the host or the layer above it gives the block: a command word (30_encoding.md R50), or a reset of the
whole system (60_exceptions.md R138). -/
inductive HostInput where
  | command (w : CommandWord)
  | systemReset
deriving DecidableEq, Repr

/-- Everything outside the block that answers its primitives (10_state.md R28; log 2). A list holds what is to come,
oldest first; the field beside it is what holds when the list is used up. -/
structure Env where
  /-- The GPIO numbers that something other than the block holds low as things stand. `EXT` is read off it at the two
  pins the block has selected (20_memory.md R38, 10_state.md R15; log 12). -/
  heldLow : List Nat
  /-- For each of the block's events to come, the values `heldLow` takes, one after another, before that event
  (20_memory.md R39, R40). -/
  moves : List (List (List Nat))
  /-- `N`, the unbounded count of cycles (20_memory.md R34). -/
  cycles : Nat
  /-- How much `N` grows before each `CycleRead` to come. -/
  ticks : List Nat
  /-- How much `N` grows before each `CycleRead` once `ticks` is used up. -/
  pace : Nat
  /-- `CPU_FREQ` as it stands (20_memory.md R35). -/
  cpuFreq : Nat
  /-- `CPU_FREQ` at the `CpuFreqRead`s to come. -/
  freqs : List Nat
  /-- `PIN_MAP`, the external table (20_memory.md R37); never changed. -/
  pinMap : List (PinId × Nat)
  /-- `INIT_PULSE_ORDER` (D12); never changed. -/
  pulseOrder : PulseOrder
  /-- The platform's global interrupt enable (20_memory.md R36). -/
  intEnabled : Bool
  /-- The GPIOs the block has asked to be open-drain outputs, rising, no repeats (20_memory.md R37). -/
  openDrain : List Nat
  /-- The inputs the host is going to give, one at a time (30_encoding.md R59; log 10). -/
  host : List HostInput
deriving DecidableEq, Repr

/-- The state: the block's own (10_state.md), its environment, and two records of the model's own (log 13, log 14). -/
structure State where
  /-- BusConfig (R11). -/
  cfg : BusConfig
  /-- `GPIO_SDA` (R15). -/
  gpioSda : Nat
  /-- `GPIO_SCL` (R15). -/
  gpioScl : Nat
  /-- `DELAY`, CalibratedDelay (R12). -/
  delay : Cycles
  /-- `LS`, LineState: the last requested pair (R13). -/
  ls : Lines
  /-- `DRV`, the output latch: the pair being applied (R14). -/
  drv : Lines
  /-- `CONFIGURED` (R16). -/
  configured : Bool
  /-- `BUSY` (R17). -/
  busy : Bool
  /-- The sequencing position (R20). -/
  upc : Upc
  /-- The response latch (R21). -/
  resp : Resp
  /-- `SHREG` (R19). -/
  shreg : Byte
  /-- `BITCNT` (R19). -/
  bitcnt : Nat
  /-- `PULSECNT` (R19). -/
  pulsecnt : Nat
  /-- `T0` (R19). -/
  t0 : Cycles
  /-- `RAW` (R19). -/
  raw : Bit
  /-- The environment (R28). -/
  env : Env
  /-- The events so far, oldest first (20_memory.md R40). -/
  hist : List Event
  /-- The GPIO numbers that were low, at each change of them, oldest first (20_memory.md R49; log 14). -/
  bus : List (List Nat)
deriving DecidableEq, Repr

/-- The block raises no exception and has no error response (60_exceptions.md R130): no step faults. -/
inductive Fault where
deriving DecidableEq, Repr

/-- The inputs to which the spec gives no meaning (93_implementation_defined.md section 1). Each is safe: the machine
stops where the spec gives no effect. -/
inductive Refusal where
  /-- Raised by an arm of `exec` that has no meaning yet. Safe. -/
  | notModelled (mnemonic : String)
  /-- U1, raised by `step`: the host's word is no command (30_encoding.md R54). Safe. -/
  | invalidWord (why : DecodeError)
  /-- U2, raised by every command but CONFIGURE while `CONFIGURED = 0` (70_reset_and_hazards.md R152). Safe. -/
  | notConfigured
  /-- U3, raised by every command presented while `BUSY = 1` (60_exceptions.md R141). Safe. -/
  | commandWhileBusy
  /-- U4, raised by CONFIGURE while `CONFIGURED = 1` and `LS` is not (1,1) (41_bus_init_and_configure.md R91). Safe. -/
  | configureNotIdle
  /-- U5, raised by CONFIGURE for an identifier outside the domain of `PIN_MAP` (41_bus_init_and_configure.md R90). Safe. -/
  | pinNotMapped (id : PinId)
  /-- U6, raised by CONFIGURE for two identifiers that are equal or name one GPIO (41_bus_init_and_configure.md R90). Safe. -/
  | pinsNotDistinct
  /-- U7, raised by CONFIGURE and START for a delay of 2^COUNTER_WIDTH or more (40_timing_and_line_driver.md R72). Safe. -/
  | delayOutOfRange
deriving DecidableEq, Repr

/-- An environment for the reset state: nothing else on the bus, an identity pin table, no host input (log 3). -/
def Env.atReset : Env where
  heldLow := []
  moves := []
  cycles := 0
  ticks := []
  pace := 1
  cpuFreq := 0
  freqs := []
  pinMap := (List.range (2 ^ Config.pinIdWidth)).map fun n => (BitVec.ofNat Config.pinIdWidth n, n)
  pulseOrder := Config.initPulseOrder
  intEnabled := true
  openDrain := []
  host := []

/-- The machine right after reset (10_state.md R27): `CONFIGURED = 0`, `BUSY = 0`, `UPC = (NONE, 0, IDLE)`,
`DRV = (1,1)`; every other register of the block is unspecified there and is zero here (log 1). -/
def State.reset : State where
  cfg := ⟨0, 0, 0⟩
  gpioSda := 0
  gpioScl := 0
  delay := 0
  ls := ⟨false, false⟩
  drv := ⟨true, true⟩
  configured := false
  busy := false
  upc := ⟨none, 0, .idle⟩
  resp := 0
  shreg := 0
  bitcnt := 0
  pulsecnt := 0
  t0 := 0
  raw := false
  env := Env.atReset
  hist := []
  bus := []

end Sys2Proof.Machine
end

