-- ==== Sys2Proof/Machine/Flags.lean ====
section
/-! DEFINITION. The block has no condition codes (10_state.md R18). This file holds the conditions the sequencer
tests, the five of R18, and the operations on its flags BUSY and CONFIGURED (R16, R17). -/

namespace Sys2Proof.Machine

/-- `DELAY > 0`, tested in `set_lines` step 3. -/
def delayPositive (s : State) : Bool := decide (0 < s.delay.toNat)

/-- The requested SCL bit is 1, tested in `set_lines` step 5. The request stands in `LS` from step 2 on. -/
def requestsSclHigh (s : State) : Bool := s.ls.scl

/-- `((t - T0) mod 2^CW) >= DELAY`, tested in the delay wait (40_timing_and_line_driver.md R73). -/
def delayElapsed (delay t0 t : Cycles) : Bool := decide (delay.toNat ≤ (t - t0).toNat)

/-- The lines are requested idle, `LS = (1,1)` (41_bus_init_and_configure.md R91). -/
def idleRequested (s : State) : Bool := s.ls == ⟨true, true⟩

/-- Whether `CONFIGURED` is 1 after a command completes: CONFIGURE sets it and nothing clears it (R16). -/
def configuredAfter (cmd : Option Command) (configured : Bool) : Bool := configured || cmd == some .configure

end Sys2Proof.Machine
end

