-- ==== Sys2Proof/Machine/Ops.lean ====
section
/-! DEFINITION. The I/O primitives (20_memory.md R31 to R37), the bus model (R38), and the micro-operations
`calibrate`, `wait_cycles` and `set_lines` (40_timing_and_line_driver.md). The block takes no exception and returns from
none (60_exceptions.md R130, R138, R139), so no such operation stands here; what does is the system reset from outside. -/

namespace Sys2Proof.Machine

/-! ## The bus -/

/-- A wired AND, line by line (20_memory.md R38). -/
def wiredAnd (a b : Lines) : Lines := ⟨a.sda && b.sda, a.scl && b.scl⟩

/-- The level of GPIO `g` where the GPIOs in `low` are low. -/
def levelOf (g : Nat) (low : List Nat) : Bit := !low.contains g

/-- The levels of two GPIOs. -/
def levelsOf (gSda gScl : Nat) (low : List Nat) : Lines := ⟨levelOf gSda low, levelOf gScl low⟩

/-- `EXT`, what everything else does to the two pins the block has selected (20_memory.md R38, 10_state.md R15). -/
def State.extLines (s : State) : Lines := levelsOf s.gpioSda s.gpioScl s.env.heldLow

/-- `LINE`, the level of the physical lines (20_memory.md R38). -/
def State.line (s : State) : Lines := wiredAnd s.drv s.extLines

/-- The GPIOs that are low while something else holds `held` low: those, and the selected pins that `DRV` pulls low
(20_memory.md R32; every pin not selected is released, 41_bus_init_and_configure.md R91). -/
def State.lowPins (s : State) (held : List Nat) : List Nat :=
  (if s.drv.sda then [] else [s.gpioSda]) ++ (if s.drv.scl then [] else [s.gpioScl]) ++ held

/-- Record one event (20_memory.md R40). -/
def State.log (e : Event) (s : State) : State := { s with hist := s.hist ++ [e] }

/-- Record the GPIOs that are low (20_memory.md R49). -/
def State.recordPins (s : State) : State := { s with bus := s.bus ++ [s.lowPins s.env.heldLow] }

/-- Enter a phase (10_state.md R20). -/
def State.enter (ph : Phase) (s : State) : State := { s with upc := { s.upc with phase := ph } }

/-! ## The environment between two events -/

/-- What `heldLow` becomes, step by step, before the next event. -/
def Env.nextMoves (e : Env) : List (List Nat) := e.moves.headD []

/-- The environment's pins as they stand at the next event (20_memory.md R39). -/
def Env.settle (e : Env) : Env :=
  { e with heldLow := e.nextMoves.getLast?.getD e.heldLow, moves := e.moves.tail }

/-- The counter as it has advanced by the next `CycleRead` (20_memory.md R34). -/
def Env.advance (e : Env) : Env := { e with cycles := e.cycles + e.ticks.headD e.pace, ticks := e.ticks.tail }

/-- `CPU_FREQ` as it stands at the next `CpuFreqRead` (20_memory.md R35). -/
def Env.nextFreq (e : Env) : Env := { e with cpuFreq := e.freqs.headD e.cpuFreq, freqs := e.freqs.tail }

/-- The environment's changes interleave before the next event, each of them recorded; every primitive begins with this
(20_memory.md R40, R49). -/
def interleave (s : State) : State :=
  { s with env := s.env.settle, bus := s.bus ++ s.env.nextMoves.map s.lowPins }

/-! ## The primitives

Each is one event: the environment's changes before it, then its effect. They act on the pins `GPIO_SDA` and `GPIO_SCL`
(10_state.md R15). -/

/-- `LinesWrite(s, c)`: both bits of `DRV` in one action (20_memory.md R32). -/
def linesWrite (l : Lines) (s : State) : State := (State.log (.drv l) { interleave s with drv := l }).recordPins

/-- `PinRead(SDA)` (20_memory.md R33): the level of the line, no other effect. -/
def pinReadSda (s : State) : Bit × State :=
  ((interleave s).line.sda, (interleave s).log (.rsda (interleave s).line.sda))

/-- `PinRead(SCL)` (20_memory.md R33). -/
def pinReadScl (s : State) : Bit × State :=
  ((interleave s).line.scl, (interleave s).log (.rscl (interleave s).line.scl))

/-- The counter's answer, `N mod 2^CW` (20_memory.md R34). -/
def counterValue (n : Nat) : Cycles := BitVec.ofNat Config.counterWidth n

/-- `CycleRead()` (20_memory.md R34). -/
def cycleRead (s : State) : Cycles × State :=
  let s1 : State := { interleave s with env := s.env.settle.advance }
  (counterValue s1.env.cycles, s1.log (.cyc (counterValue s1.env.cycles)))

/-- `CpuFreqRead()` (20_memory.md R35). -/
def cpuFreqRead (s : State) : Nat × State :=
  let s1 : State := { interleave s with env := s.env.settle.nextFreq }
  (s1.env.cpuFreq, s1.log (.freq s1.env.cpuFreq))

/-- `IntDisable()` (20_memory.md R36). -/
def intDisable (s : State) : State :=
  State.log .ioff { interleave s with env := { s.env.settle with intEnabled := false } }

/-- `IntEnable()`: it enables unconditionally (20_memory.md R36, D11). -/
def intEnable (s : State) : State :=
  State.log .ion { interleave s with env := { s.env.settle with intEnabled := true } }

/-- A GPIO number put into a rising list without repeats. -/
def insertGpio (g : Nat) : List Nat → List Nat
  | [] => [g]
  | x :: xs => if g < x then g :: x :: xs else if g = x then x :: xs else x :: insertGpio g xs

/-- `PinModeOpenDrain(g)` (20_memory.md R37). -/
def pinModeOpenDrain (g : Nat) (s : State) : State :=
  State.log (.mode g) { interleave s with env := { s.env.settle with openDrain := insertGpio g s.env.openDrain } }

/-- `PIN_MAP(id)`, a partial function (20_memory.md R37). -/
def pinMap (id : PinId) (s : State) : Option Nat := s.env.pinMap.lookup id

/-! ## calibrate -/

/-- `calibrate(speed_hz, cpu_freq)` (40_timing_and_line_driver.md R70, R71): exact product, floor, signed subtraction, clamp. -/
def calibrate (speedHz cpuFreq : Nat) : Nat :=
  let q : Nat := cpuFreq * Config.halfPeriodScale / speedHz
  let d : Int := (q : Int) - (Config.fixedOverheadCycles : Int)
  if d < 0 then 0 else d.toNat

/-- Whether a delay can be held in `DELAY` (40_timing_and_line_driver.md R72, U7; log 6). -/
def delayFits (d : Nat) : Bool := decide (d < 2 ^ Config.counterWidth)

/-- `DELAY <- calibrate(CFG.speed_hz, CpuFreqRead())`, or nothing where the result does not fit (U7). -/
def recalibrate (s : State) : Option State :=
  let r := cpuFreqRead (s.enter .cal)
  let d := calibrate r.2.cfg.speedHz.toNat r.1
  if delayFits d then some { r.2 with delay := BitVec.ofNat Config.counterWidth d } else none

/-! ## Sequences that may wait -/

/-- How a part of a sequence ends: at its end, or in a wait loop that the environment has not yet let end
(60_exceptions.md R132, R133; log 4). -/
inductive Run where
  | done (s : State)
  | waiting (s : State)
deriving DecidableEq, Repr

/-- The state in which a part of a sequence ended. -/
def Run.state : Run → State
  | .done s => s
  | .waiting s => s

/-- Go on with the next part where this one has ended. -/
def Run.bind (r : Run) (f : State → Run) : Run :=
  match r with
  | .done s => f s
  | .waiting s => .waiting s

/-- One turn of `repeat S until C` (00_scope.md R8): `body` answers whether `C` holds after it. A loop whose condition
does not hold yet waits, and its next turn is the next step's (log 4). -/
def repeatTurn (body : State → Bool × State) (s : State) : Run :=
  if (body s).1 then .done (body s).2 else .waiting (body s).2

/-! ## The delay wait -/

/-- One poll of the delay wait: `t <- CycleRead()` and the test (40_timing_and_line_driver.md R73). -/
def pollCounter (s : State) : Bool × State :=
  (delayElapsed s.delay s.t0 (cycleRead s).1, (cycleRead s).2)

/-- The poll loop of the delay wait. -/
def pollDelay (s : State) : Run := repeatTurn pollCounter s

/-- `T0 <- CycleRead()`. -/
def armDelay (s : State) : State :=
  { (cycleRead (s.enter .waitArm)).2 with t0 := (cycleRead (s.enter .waitArm)).1 }

/-- `wait_cycles(DELAY)` (40_timing_and_line_driver.md R73). -/
def waitCycles (s : State) : Run := pollDelay ((armDelay s).enter .waitPoll)

/-! ## set_lines -/

/-- Step 1: bit 0 of each operand (40_timing_and_line_driver.md R74). -/
def normalize (sda scl : Nat) : Lines := ⟨sda.testBit 0, scl.testBit 0⟩

/-- Step 2: record the pair in `LS`, the only place that writes it. -/
def recordLines (l : Lines) (s : State) : State :=
  State.log (.recorded l) { interleave (s.enter .record) with ls := l }

/-- The stretch poll of step 5, with no exit but a read of 1 (40_timing_and_line_driver.md R74, R76). -/
def pollStretch (s : State) : Run := repeatTurn pinReadScl s

/-- Step 5: poll SCL if it was requested high. -/
def stretchStep (s : State) : Run :=
  if requestsSclHigh s then pollStretch (s.enter .stretchPoll) else .done s

/-- Steps 4 and 5: apply the recorded pair, then poll. -/
def driveStep (s : State) : Run := stretchStep (linesWrite s.ls (s.enter .drive))

/-- Step 3: wait if `DELAY > 0`. -/
def delayStep (s : State) : Run := if delayPositive s then waitCycles s else .done s

/-- `set_lines(sda_bit, scl_bit)` (40_timing_and_line_driver.md R74). -/
def setLines (sda scl : Nat) (s : State) : Run :=
  (delayStep (recordLines (normalize sda scl) s)).bind driveStep

/-- Go on with the `set_lines` call that was left in one of its two wait loops. -/
def resumeCall (s : State) : Run :=
  match s.upc.phase with
  | .waitPoll => (pollDelay s).bind driveStep
  | .stretchPoll => pollStretch s
  | .waitArm => (waitCycles s).bind driveStep
  | .drive => driveStep s
  | .idle => .waiting s
  | .cal => .waiting s
  | .setup => .waiting s
  | .record => .waiting s
  | .sample => .waiting s
  | .done => .waiting s

/-! ## The host's inputs and the system reset -/

/-- The block's own state back at its reset values (10_state.md R27, 60_exceptions.md R138); the environment and the
records stay, with the lines as the block then leaves them (log 11). -/
def systemReset (s : State) : State :=
  State.recordPins { State.reset with env := s.env, hist := s.hist, bus := s.bus }

/-- What the block finds at the host's port. -/
inductive Fetched where
  | nothing
  | reset (s : State)
  | command (w : CommandWord) (s : State)
deriving DecidableEq, Repr

/-- The next input of the host, taken from its list (30_encoding.md R50, R59). A command is taken only while `BUSY = 0`.
DESIGN CHOICE (log 11): a system reset is taken by the first step that finds it at the head of the list, also while a
command waits, so no poll of the wait comes before it; behind a command word it is not taken before that word is. -/
def fetch (s : State) : Fetched :=
  match s.env.host with
  | [] => .nothing
  | .systemReset :: rest => .reset { s with env := { s.env with host := rest } }
  | .command w :: rest => if s.busy then .nothing else .command w { s with env := { s.env with host := rest } }

/-- The host presents one word next. -/
def present (w : CommandWord) (s : State) : State :=
  { s with env := { s.env with host := .command w :: s.env.host } }

end Sys2Proof.Machine
end

