-- ==== Sys2Proof/Machine/Operands.lean ====
section
/-! DEFINITION. The arguments a `set_lines` call is given, in every form the sequences of files 41 to 44 use, and the
parts a sequence is written in. An argument is read before the call records the new pair
(40_timing_and_line_driver.md R75 (c)). -/

namespace Sys2Proof.Machine

/-- An argument of `set_lines`. -/
inductive LineArg where
  /-- The constant 0. -/
  | low
  /-- The constant 1. -/
  | high
  /-- `LS.sda`. -/
  | lastSda
  /-- `LS.scl`. -/
  | lastScl
  /-- `(SHREG >> BITCNT) & 1` (44_byte_transfer.md R120, R124). -/
  | dataBit
deriving DecidableEq, Repr

/-- One part of a sequence. -/
inductive Micro where
  /-- `call set_lines(sda, scl)`. -/
  | call (sda scl : LineArg)
  /-- `RAW <- PinRead(SDA)` (43_ack.md R112). -/
  | sampleRaw
  /-- `k <- PinRead(SDA); SHREG <- SHREG | (k << (7 - BITCNT))` (44_byte_transfer.md R123). -/
  | sampleBit
  /-- `BITCNT <- i`. -/
  | bitIndex (i : Nat)
  /-- `PULSECNT <- i`. -/
  | pulseIndex (i : Nat)
deriving DecidableEq, Repr

/-- The number a line bit stands for. -/
def bitValue (b : Bit) : Nat := if b then 1 else 0

/-- The value of an argument. -/
def LineArg.value (a : LineArg) (s : State) : Nat :=
  match a with
  | .low => 0
  | .high => 1
  | .lastSda => bitValue s.ls.sda
  | .lastScl => bitValue s.ls.scl
  | .dataBit => (s.shreg >>> s.bitcnt &&& 1).toNat

/-- The accumulation of READ_BYTE: `SHREG | (k << (7 - i))` (44_byte_transfer.md R123, R124). -/
def shiftIn (shreg : Byte) (i : Nat) (k : Bit) : Byte :=
  shreg ||| (BitVec.ofNat Config.bitsPerByte (bitValue k) <<< (Config.bitsPerByte - 1 - i))

/-- A `set_lines` call has completed (10_state.md R20). -/
def callDone (s : State) : State := { s with upc := { s.upc with calls := s.upc.calls + 1 } }

/-- `RAW <- PinRead(SDA)`. -/
def sampleRaw (s : State) : State :=
  { (pinReadSda (s.enter .sample)).2 with raw := (pinReadSda (s.enter .sample)).1 }

/-- The sample of READ_BYTE into `SHREG`. -/
def sampleBit (s : State) : State :=
  { (pinReadSda (s.enter .sample)).2 with shreg := shiftIn s.shreg s.bitcnt (pinReadSda (s.enter .sample)).1 }

/-- Run one part of a sequence. -/
def runMicro (m : Micro) (s : State) : Run :=
  match m with
  | .call sda scl => (setLines (sda.value s) (scl.value s) s).bind fun t => .done (callDone t)
  | .sampleRaw => .done (sampleRaw s)
  | .sampleBit => .done (sampleBit s)
  | .bitIndex i => .done { s with bitcnt := i }
  | .pulseIndex i => .done { s with pulsecnt := i }

/-- Run a sequence in statement order (20_memory.md R40). -/
def runMicros : List Micro → State → Run
  | [], s => .done s
  | m :: ms, s => (runMicro m s).bind (runMicros ms)

/-- How many `set_lines` calls a sequence makes. -/
def callCount : List Micro → Nat
  | [] => 0
  | .call _ _ :: ms => callCount ms + 1
  | .sampleRaw :: ms => callCount ms
  | .sampleBit :: ms => callCount ms
  | .bitIndex _ :: ms => callCount ms
  | .pulseIndex _ :: ms => callCount ms

/-- What is left of a sequence after its first `n` calls and before what follows the last of them. -/
def dropCalls : Nat → List Micro → List Micro
  | 0, ms => ms
  | _ + 1, [] => []
  | n + 1, .call _ _ :: ms => dropCalls n ms
  | n + 1, .sampleRaw :: ms => dropCalls (n + 1) ms
  | n + 1, .sampleBit :: ms => dropCalls (n + 1) ms
  | n + 1, .bitIndex _ :: ms => dropCalls (n + 1) ms
  | n + 1, .pulseIndex _ :: ms => dropCalls (n + 1) ms

end Sys2Proof.Machine
end

