-- ==== Sys2Proof/Machine/Sequencer.lean ====
section
/-! DEFINITION. The sequence of every command, call by call as files 41 to 44 write it, and the handshake around it:
acceptance, completion with the response, and going on with a command that waits (30_encoding.md R58, R59). -/

namespace Sys2Proof.Machine

/-! ## The sequences -/

/-- START (42_start_stop.md R100), after its recalibration. -/
def startBody : List Micro := [.call .high .lastScl, .call .high .high, .call .low .high]

/-- STOP (42_start_stop.md R102). -/
def stopBody : List Micro := [.call .low .lastScl, .call .low .high, .call .high .high]

/-- `send_ack_bit(level)` (43_ack.md R110). -/
def sendAckBitBody (level : LineArg) : List Micro :=
  [.call .lastSda .low, .call level .low, .call level .high, .call level .low, .call .high .low]

/-- `receive_ack_bit()` (43_ack.md R112). -/
def receiveAckBitBody : List Micro := [.call .high .low, .call .high .high, .sampleRaw, .call .high .low]

/-- One bit of WRITE_BYTE. -/
def writeBitBody (i : Nat) : List Micro := [.bitIndex i, .call .dataBit .low, .call .dataBit .high]

/-- WRITE_BYTE, bit 7 first (44_byte_transfer.md R120), after `SHREG <- b`. -/
def writeByteBody : List Micro := (List.range Config.bitsPerByte).reverse.flatMap writeBitBody

/-- One bit of READ_BYTE. -/
def readBitBody (i : Nat) : List Micro := [.bitIndex i, .call .lastSda .low, .call .lastSda .high, .sampleBit]

/-- READ_BYTE (44_byte_transfer.md R123), after `SHREG <- 0`. -/
def readByteBody : List Micro := (List.range Config.bitsPerByte).flatMap readBitBody ++ [.call .lastSda .low]

/-- One recovery pulse, in either order (41_bus_init_and_configure.md R85). -/
def pulseBody (order : PulseOrder) (i : Nat) : List Micro :=
  match order with
  | .highThenLow => [.pulseIndex i, .call .high .high, .call .high .low]
  | .lowThenHigh => [.pulseIndex i, .call .high .low, .call .high .high]

/-- `init()` (41_bus_init_and_configure.md R85): the wiggle, the recovery pulses, the body of STOP. -/
def initBody (order : PulseOrder) : List Micro :=
  [.call .high .low, .call .low .low, .call .high .low]
    ++ (List.range Config.recoveryPulses).flatMap (pulseBody order) ++ stopBody

/-- The sequence of a command. -/
def bodyOf (cmd : Command) (order : PulseOrder) : List Micro :=
  match cmd with
  | .configure => initBody order
  | .start => startBody
  | .stop => stopBody
  | .writeByte => writeByteBody
  | .readByte => readByteBody
  | .sendAck => sendAckBitBody .low
  | .sendNack => sendAckBitBody .high
  | .checkAck => receiveAckBitBody
  | .getSdaPin => []
  | .getSclPin => []

/-! ## The handshake -/

/-- The truth value of a sampled acknowledge bit: 0 is ACK, true; 1 is NACK, false (43_ack.md R116). -/
def ackValue (raw : Bit) : Resp := if raw then 0 else 1

/-- The response of a command as it completes (30_encoding.md R58). -/
def responseOf (cmd : Option Command) (s : State) : Resp :=
  match cmd with
  | some .configure => s.cfg.speedHz
  | some .readByte => s.shreg.setWidth 32
  | some .checkAck => ackValue s.raw
  | some .getSdaPin => s.cfg.sdaPin.setWidth 32
  | some .getSclPin => s.cfg.sclPin.setWidth 32
  | some .start => 0
  | some .stop => 0
  | some .writeByte => 0
  | some .sendAck => 0
  | some .sendNack => 0
  | none => s.resp

/-- Acceptance: `BUSY <- 1`, `UPC <- (cmd, 0, ph)` (30_encoding.md R59). DESIGN CHOICE (log 17): CONFIGURE's first phase
is `SETUP`, the accessors' is `DONE`; the spec names none for them. -/
def accept (cmd : Command) (ph : Phase) (s : State) : State := { s with busy := true, upc := ⟨some cmd, 0, ph⟩ }

/-- Completion: latch `RESP`, `UPC <- (NONE, 0, IDLE)`, `BUSY <- 0` (30_encoding.md R59); CONFIGURE sets `CONFIGURED`.
DESIGN CHOICE (log 17): no command but the accessors passes through the phase `DONE` on its way here. -/
def complete (s : State) : State :=
  { s with
    resp := responseOf s.upc.cmd s
    configured := configuredAfter s.upc.cmd s.configured
    upc := ⟨none, 0, .idle⟩
    busy := false }

/-- The outcome of running a command: complete, or still in a wait with `BUSY = 1` (60_exceptions.md R132). -/
def settle (r : Run) : Host.Outcome State Fault Refusal :=
  match r with
  | .done s => .next (complete s)
  | .waiting s => .next s

/-- Run an accepted command's sequence from its start. -/
def runCommand (cmd : Command) (s : State) : Host.Outcome State Fault Refusal :=
  settle (runMicros (bodyOf cmd s.env.pulseOrder) s)

/-- What is left of the present command's sequence after the call in progress. -/
def restOfCommand (s : State) : List Micro :=
  match s.upc.cmd with
  | some cmd => dropCalls (s.upc.calls + 1) (bodyOf cmd s.env.pulseOrder)
  | none => []

/-- Go on with a command that waits: finish the call in progress, then the rest of the sequence. -/
def resume (s : State) : Host.Outcome State Fault Refusal :=
  settle ((resumeCall s).bind fun t => runMicros (restOfCommand s) (callDone t))

/-- Every command is refused while another executes (U3), and every one but CONFIGURE before the first CONFIGURE has
completed (U2: 70_reset_and_hazards.md R152). -/
def whenReady (k : State → Host.Outcome State Fault Refusal) (s : State) : Host.Outcome State Fault Refusal :=
  if s.busy then .refused .commandWhileBusy
  else if s.configured then k s
  else .refused .notConfigured

end Sys2Proof.Machine
end

