-- ==== Sys2Proof/Machine/Ack.lean ====
section
/-! DEFINITION. SEND_ACK, SEND_NACK and CHECK_ACK (43_ack.md). -/

namespace Sys2Proof.Machine

/-- SEND_ACK: `send_ack_bit(0)` (43_ack.md R114). -/
def execSendAck (s : State) : Host.Outcome State Fault Refusal :=
  whenReady (fun s => runCommand .sendAck (accept .sendAck .record s)) s

/-- SEND_NACK: `send_ack_bit(1)` (43_ack.md R115). -/
def execSendNack (s : State) : Host.Outcome State Fault Refusal :=
  whenReady (fun s => runCommand .sendNack (accept .sendNack .record s)) s

/-- CHECK_ACK: `receive_ack_bit()`, inverted at completion (43_ack.md R116). -/
def execCheckAck (s : State) : Host.Outcome State Fault Refusal :=
  whenReady (fun s => runCommand .checkAck (accept .checkAck .record s)) s

end Sys2Proof.Machine
end

