-- ==== Sys2Proof/Machine/Bus.lean ====
section
/-! DEFINITION. CONFIGURE and the pin accessors (41_bus_init_and_configure.md). -/

namespace Sys2Proof.Machine

/-- `max(speed, MIN_SPEED_HZ)` (41_bus_init_and_configure.md R88, R90). -/
def clampSpeed (speed : Speed) : Speed :=
  if speed.toNat < Config.minSpeedHz then BitVec.ofNat Config.speedWidth Config.minSpeedHz else speed

/-- The first statements of CONFIGURE, in their order: the two identifiers, the two GPIO numbers, each looked up once,
and the clamped speed. DESIGN CHOICE (log 17): they stand in the phase `SETUP`. -/
def latchConfig (sdaPin sclPin : PinId) (speed : Speed) (gSda gScl : Nat) (s : State) : State :=
  let s1 : State := { s with cfg := { s.cfg with sdaPin := sdaPin, sclPin := sclPin } }
  let s2 : State := State.log (.map sdaPin gSda) { interleave s1 with gpioSda := gSda }
  let s3 : State := State.log (.map sclPin gScl) { interleave s2 with gpioScl := gScl }
  { s3 with cfg := { s3.cfg with speedHz := clampSpeed speed } }

/-- The pin set-up of CONFIGURE, with interrupts suppressed around the pin-mode and initial-level writes (D10, D11). -/
def pinSetup (s : State) : State :=
  intEnable (linesWrite ⟨true, true⟩ (pinModeOpenDrain s.gpioScl (pinModeOpenDrain s.gpioSda (intDisable (s.enter .setup)))))

/-- CONFIGURE with its two GPIO numbers found (41_bus_init_and_configure.md R88). DESIGN CHOICE (log 17): its phases are
`SETUP`, `CAL`, `SETUP`, then those of its calls. -/
def configureMapped (sdaPin sclPin : PinId) (speed : Speed) (gSda gScl : Nat) (s : State) :
    Host.Outcome State Fault Refusal :=
  if gSda = gScl then .refused .pinsNotDistinct
  else
    match recalibrate (latchConfig sdaPin sclPin speed gSda gScl (accept .configure .setup s)) with
    | none => .refused .delayOutOfRange
    | some t => runCommand .configure (pinSetup t)

/-- CONFIGURE sda_pin, scl_pin, speed (41_bus_init_and_configure.md R88, R90, R91). -/
def execConfigure (sdaPin sclPin : PinId) (speed : Speed) (s : State) : Host.Outcome State Fault Refusal :=
  if s.busy then .refused .commandWhileBusy
  else if s.configured && !idleRequested s then .refused .configureNotIdle
  else
    match pinMap sdaPin s, pinMap sclPin s with
    | none, _ => .refused (.pinNotMapped sdaPin)
    | some _, none => .refused (.pinNotMapped sclPin)
    | some gSda, some gScl => configureMapped sdaPin sclPin speed gSda gScl s

/-- GET_SDA_PIN (41_bus_init_and_configure.md R92). DESIGN CHOICE (log 17): accepted in the phase `DONE`. -/
def execGetSdaPin (s : State) : Host.Outcome State Fault Refusal :=
  whenReady (fun s => runCommand .getSdaPin (accept .getSdaPin .done s)) s

/-- GET_SCL_PIN (41_bus_init_and_configure.md R93). DESIGN CHOICE (log 17): accepted in the phase `DONE`. -/
def execGetSclPin (s : State) : Host.Outcome State Fault Refusal :=
  whenReady (fun s => runCommand .getSclPin (accept .getSclPin .done s)) s

end Sys2Proof.Machine
end

