-- ==== Sys2Proof/Machine/ByteTransfer.lean ====
section
/-! DEFINITION. WRITE_BYTE and READ_BYTE (44_byte_transfer.md). -/

namespace Sys2Proof.Machine

/-- WRITE_BYTE b (44_byte_transfer.md R120). -/
def execWriteByte (b : Byte) (s : State) : Host.Outcome State Fault Refusal :=
  whenReady (fun s => runCommand .writeByte { accept .writeByte .record s with shreg := b }) s

/-- READ_BYTE (44_byte_transfer.md R123). With `LS.sda = 0` at entry it runs as R123 says (log 5). -/
def execReadByte (s : State) : Host.Outcome State Fault Refusal :=
  whenReady (fun s => runCommand .readByte { accept .readByte .record s with shreg := 0 }) s

end Sys2Proof.Machine
end

