-- ==== Sys2Proof/Machine/StartStop.lean ====
section
/-! DEFINITION. START and STOP (42_start_stop.md). -/

namespace Sys2Proof.Machine

/-- START (42_start_stop.md R100): recalibrate, then the three calls. -/
def execStart (s : State) : Host.Outcome State Fault Refusal :=
  whenReady (fun s =>
    match recalibrate (accept .start .cal s) with
    | none => .refused .delayOutOfRange
    | some t => runCommand .start t) s

/-- STOP (42_start_stop.md R102). It does not recalibrate. -/
def execStop (s : State) : Host.Outcome State Fault Refusal :=
  whenReady (fun s => runCommand .stop (accept .stop .record s)) s

end Sys2Proof.Machine
end

