-- ==== Sys2Proof/Machine/Dispatch.lean ====
section
/-! DEFINITION. One arm per command. -/

namespace Sys2Proof.Machine

def exec (i : Instr) (s : State) : Host.Outcome State Fault Refusal :=
  match i with
  | .configure sdaPin sclPin speed => Sys2Proof.Machine.execConfigure sdaPin sclPin speed s
  | .start => Sys2Proof.Machine.execStart s
  | .stop => Sys2Proof.Machine.execStop s
  | .writeByte b => Sys2Proof.Machine.execWriteByte b s
  | .readByte => Sys2Proof.Machine.execReadByte s
  | .sendAck => Sys2Proof.Machine.execSendAck s
  | .sendNack => Sys2Proof.Machine.execSendNack s
  | .checkAck => Sys2Proof.Machine.execCheckAck s
  | .getSdaPin => Sys2Proof.Machine.execGetSdaPin s
  | .getSclPin => Sys2Proof.Machine.execGetSclPin s

end Sys2Proof.Machine
end

