-- ==== Sys2Proof/Machine/Step.lean ====
section
/-! DEFINITION. One step: a system reset, or a command taken from the host and run, or one more attempt to go on with
the command that waits, or nothing while no command is presented (30_encoding.md R59; log 4, log 10, log 11). -/

namespace Sys2Proof.Machine

/-- Decode the host's word and run the command (30_encoding.md R54, R59). -/
def stepWord (w : CommandWord) (s : State) : Host.Outcome State Fault Refusal :=
  match decode w with
  | .ok i => exec i s
  | .error why => .refused (.invalidWord why)

/-- One step of the machine. -/
def step (s : State) : Host.Outcome State Fault Refusal :=
  match fetch s with
  | .reset t => .next (systemReset t)
  | .command w t => stepWord w t
  | .nothing => if s.busy then resume s else .next s

/-- The host presents next the word whose low `nbits` bits are those of `w` (log 10). -/
def State.withFetchWord (s : State) (nbits w : Nat) : State := present (BitVec.ofNat 64 (w % 2 ^ nbits)) s

end Sys2Proof.Machine
end

