-- ==== Sys2Proof/Machine/BusView.lean ====
section
/-! DEFINITION. What a device on the bus sees, derived from the values `LINE` takes (20_memory.md R49), and the pairs
the block requests and drives, read from its events (R40). -/

namespace Sys2Proof.Machine

/-- What the bus carries: a START or STOP condition, or one transferred data bit (20_memory.md R49). -/
inductive BusEvent where
  | start
  | stop
  | bit (b : Bit)
deriving DecidableEq, Repr

/-- Where a reader of the bus stands: the last value, whether the present high phase was entered from SCL = 0, and
whether it has held a START or a STOP. -/
structure BusScan where
  last : Lines
  fromLow : Bool
  condition : Bool
deriving DecidableEq, Repr

/-- A reader that has seen only one value of `LINE`. -/
def BusScan.init (v : Lines) : BusScan := ⟨v, false, false⟩

/-- One further value of `LINE` (20_memory.md R49): what it completes on the bus. -/
def scanEvents (sc : BusScan) (v : Lines) : List BusEvent :=
  match sc.last.scl, v.scl with
  | true, true => if sc.last.sda = v.sda then [] else if v.sda then [.stop] else [.start]
  | true, false => if sc.fromLow && !sc.condition then [.bit sc.last.sda] else []
  | false, true => []
  | false, false => []

/-- One further value of `LINE`: where the reader then stands. -/
def scanNext (sc : BusScan) (v : Lines) : BusScan :=
  match sc.last.scl, v.scl with
  | true, true => ⟨v, sc.fromLow, sc.condition || sc.last.sda != v.sda⟩
  | true, false => ⟨v, false, false⟩
  | false, true => ⟨v, true, false⟩
  | false, false => ⟨v, false, false⟩

/-- The bus view of further values. -/
def scanBus (sc : BusScan) : List Lines → List BusEvent
  | [] => []
  | v :: vs => scanEvents sc v ++ scanBus (scanNext sc v) vs

/-- The bus view of a sequence of values of `LINE` (20_memory.md R49). -/
def busView : List Lines → List BusEvent
  | [] => []
  | v :: vs => scanBus (BusScan.init v) vs

/-- The values of `LINE` from state `s` to a later state `t`, at the pins selected in `t`. -/
def linesBetween (s t : State) : List Lines :=
  (s.lowPins s.env.heldLow :: t.bus.drop s.bus.length).map (levelsOf t.gpioSda t.gpioScl)

/-- What a device on the pins selected in `t` sees from state `s` to a later state `t`. -/
def deviceView (s t : State) : List BusEvent := busView (linesBetween s t)

/-- The pair of a `set_lines` call, from its `REC` event. -/
def Event.requested : Event → Option Lines
  | .recorded l => some l
  | _ => none

/-- The pair of a `LinesWrite`, from its `DRV` event. -/
def Event.driven : Event → Option Lines
  | .drv l => some l
  | _ => none

/-- The bit of a `PinRead(SDA)`, from its `RSDA` event. -/
def Event.sampled : Event → Option Bit
  | .rsda v => some v
  | _ => none

/-- The events from state `s` to a later state `t`. -/
def eventsBetween (s t : State) : List Event := t.hist.drop s.hist.length

/-- The `set_lines` calls made from `s` to `t`, in order. -/
def callsBetween (s t : State) : List Lines := (eventsBetween s t).filterMap Event.requested

/-- The pairs driven from `s` to `t`, in order. -/
def drivenBetween (s t : State) : List Lines := (eventsBetween s t).filterMap Event.driven

/-- The SDA bits sampled from `s` to `t`, in order. -/
def samplesBetween (s t : State) : List Bit := (eventsBetween s t).filterMap Event.sampled

end Sys2Proof.Machine
end

