-- ==== Sys2Proof/Machine/Assembly.lean ====
section
/-! DEFINITION. The textual form of a command (30_encoding.md R55): the mnemonic, then its operands separated by commas,
numbers in decimal or in hexadecimal with the prefix `0x`. Text is a list of characters. Blanks around a part and a
comment after `;` are dropped (log 16). -/

namespace Sys2Proof.Machine

/-- The mnemonic of a command as 30_encoding.md R55 spells it. -/
def mnemonicText (c : Command) : List Char :=
  match c with
  | .configure => ['C', 'O', 'N', 'F', 'I', 'G', 'U', 'R', 'E']
  | .start => ['S', 'T', 'A', 'R', 'T']
  | .stop => ['S', 'T', 'O', 'P']
  | .writeByte => ['W', 'R', 'I', 'T', 'E', '_', 'B', 'Y', 'T', 'E']
  | .readByte => ['R', 'E', 'A', 'D', '_', 'B', 'Y', 'T', 'E']
  | .sendAck => ['S', 'E', 'N', 'D', '_', 'A', 'C', 'K']
  | .sendNack => ['S', 'E', 'N', 'D', '_', 'N', 'A', 'C', 'K']
  | .checkAck => ['C', 'H', 'E', 'C', 'K', '_', 'A', 'C', 'K']
  | .getSdaPin => ['G', 'E', 'T', '_', 'S', 'D', 'A', '_', 'P', 'I', 'N']
  | .getSclPin => ['G', 'E', 'T', '_', 'S', 'C', 'L', '_', 'P', 'I', 'N']

/-- The ten commands. -/
def allCommands : List Command :=
  [.configure, .start, .stop, .writeByte, .readByte, .sendAck, .sendNack, .checkAck, .getSdaPin, .getSclPin]

/-! ## Writing -/

/-- A decimal digit. -/
def digitChar (d : Nat) : Char := Char.ofNat (48 + d)

/-- The decimal digits of `n`, at most `fuel` of them, before `acc`. -/
def decimalDigits : Nat → Nat → List Char → List Char
  | 0, _, acc => acc
  | fuel + 1, n, acc =>
    if n < 10 then digitChar n :: acc else decimalDigits fuel (n / 10) (digitChar (n % 10) :: acc)

/-- A number below 2^32 in decimal: it has at most ten digits. -/
def decimalText (n : Nat) : List Char := decimalDigits 10 n []

/-- The line of a command. -/
def renderLine (i : Instr) : List Char :=
  match i with
  | .configure sdaPin sclPin speed =>
    mnemonicText .configure ++ ' ' :: decimalText sdaPin.toNat ++ ',' :: ' ' :: decimalText sclPin.toNat
      ++ ',' :: ' ' :: decimalText speed.toNat
  | .writeByte b => mnemonicText .writeByte ++ ' ' :: decimalText b.toNat
  | .start => mnemonicText .start
  | .stop => mnemonicText .stop
  | .readByte => mnemonicText .readByte
  | .sendAck => mnemonicText .sendAck
  | .sendNack => mnemonicText .sendNack
  | .checkAck => mnemonicText .checkAck
  | .getSdaPin => mnemonicText .getSdaPin
  | .getSclPin => mnemonicText .getSclPin

/-! ## Reading -/

/-- The value of a digit, decimal or hexadecimal. -/
def digitValue (c : Char) : Option Nat :=
  if 48 ≤ c.toNat ∧ c.toNat ≤ 57 then some (c.toNat - 48)
  else if 97 ≤ c.toNat ∧ c.toNat ≤ 102 then some (c.toNat - 87)
  else if 65 ≤ c.toNat ∧ c.toNat ≤ 70 then some (c.toNat - 55)
  else none

/-- The number that further digits of a base make of `acc`. -/
def readDigits (base : Nat) : List Char → Nat → Option Nat
  | [], acc => some acc
  | c :: cs, acc =>
    match digitValue c with
    | some d => if d < base then readDigits base cs (acc * base + d) else none
    | none => none

/-- A number, with `0x` before it in hexadecimal. -/
def readNumber (cs : List Char) : Option Nat :=
  match cs with
  | [] => none
  | c :: rest =>
    if c = '0' ∧ rest.head? = some 'x' ∧ 1 < rest.length then readDigits 16 (rest.drop 1) 0
    else readDigits 10 (c :: rest) 0

/-- An operand that fits its field (30_encoding.md R53). -/
def readOperand (w : Nat) (cs : List Char) : Option (BitVec w) :=
  match readNumber cs with
  | some n => if n < 2 ^ w then some (BitVec.ofNat w n) else none
  | none => none

/-- The parts of a text between separators. -/
def splitAtChar (sep : Char) : List Char → List (List Char)
  | [] => [[]]
  | c :: cs =>
    if c = sep then [] :: splitAtChar sep cs
    else
      match splitAtChar sep cs with
      | [] => [[c]]
      | part :: parts => (c :: part) :: parts

/-- A text without the blanks at its two ends. -/
def trimBlanks (cs : List Char) : List Char :=
  ((cs.dropWhile (· == ' ')).reverse.dropWhile (· == ' ')).reverse

/-- The operands of a line. -/
def readOperandTexts (cs : List Char) : List (List Char) :=
  if trimBlanks cs = [] then [] else (splitAtChar ',' cs).map trimBlanks

/-- A command from its name and the texts of its operands. -/
def instrOfTexts (c : Command) (ops : List (List Char)) : Option Instr :=
  match c, ops with
  | .configure, [a, b, d] =>
    match readOperand Config.pinIdWidth a, readOperand Config.pinIdWidth b, readOperand Config.speedWidth d with
    | some sda, some scl, some speed => some (.configure sda scl speed)
    | _, _, _ => none
  | .writeByte, [a] => (readOperand Config.bitsPerByte a).map Instr.writeByte
  | .start, [] => some .start
  | .stop, [] => some .stop
  | .readByte, [] => some .readByte
  | .sendAck, [] => some .sendAck
  | .sendNack, [] => some .sendNack
  | .checkAck, [] => some .checkAck
  | .getSdaPin, [] => some .getSdaPin
  | .getSclPin, [] => some .getSclPin
  | _, _ => none

/-- One line of a program (30_encoding.md R55). -/
def parseLine (line : List Char) : Option Instr :=
  let body := trimBlanks (line.takeWhile (· != ';'))
  let name := body.takeWhile (· != ' ')
  match allCommands.find? (fun c => mnemonicText c == name) with
  | some c => instrOfTexts c (readOperandTexts (body.dropWhile (· != ' ')))
  | none => none

/-- A program: a list of lines, executed by the host in order (30_encoding.md R55); the words the host sends. -/
def assemble : List (List Char) → Option (List CommandWord)
  | [] => some []
  | line :: lines =>
    match parseLine line, assemble lines with
    | some i, some ws => some (encode i :: ws)
    | _, _ => none

end Sys2Proof.Machine
end

