-- ==== Sys2Proof/Safety.lean ====
section
/-! DEFINITION. The terms in which claims about the machine are made: a state at rest, a state that waits, what an
environment must do for a wait to end, what a command leaves alone, the calls it has still to make, and the invariant
every step keeps. -/

namespace Sys2Proof.Machine

/-! ## At rest and waiting -/

/-- No command is executing (10_state.md R17, R20). -/
def AtRest (s : State) : Prop := s.busy = false ∧ s.upc = ⟨none, 0, .idle⟩

/-- Configured and free to accept any of the ten commands but a CONFIGURE in mid-transaction
(70_reset_and_hazards.md R154). -/
def Ready (s : State) : Prop := s.busy = false ∧ s.configured = true

/-- No host input resets the system next. -/
def NoReset (s : State) : Prop := s.env.host.head? ≠ some .systemReset

/-- A command waits in the delay wait of a call (40_timing_and_line_driver.md R73). -/
def InDelayWait (s : State) : Prop :=
  s.upc.phase = .waitPoll ∧ 0 < s.delay.toNat
    ∧ delayElapsed s.delay s.t0 (counterValue s.env.cycles) = false

/-- A command waits in the stretch poll of a call: the pair is applied, SCL was requested high and read low
(60_exceptions.md R132, R137). -/
def InStretchWait (s : State) : Prop :=
  s.upc.phase = .stretchPoll ∧ s.ls.scl = true ∧ s.drv = s.ls ∧ s.extLines.scl = false

/-- The command `cmd` executes, in one of its calls, and waits (60_exceptions.md R132, R133). -/
def WaitsIn (cmd : Command) (s : State) : Prop :=
  s.busy = true ∧ s.upc.cmd = some cmd
    ∧ s.upc.calls < callCount (bodyOf cmd s.env.pulseOrder)
    ∧ (InDelayWait s ∨ InStretchWait s)

/-! ## The environment -/

/-- What the environment holds low once `n` more events have been preceded by its changes (20_memory.md R39). -/
def Env.heldAfter (n : Nat) (e : Env) : List Nat := (e.moves.take n).flatten.getLast?.getD e.heldLow

/-- Nothing but the block pulls GPIO `g` low, now or later (20_memory.md R38). -/
def Env.Quiet (e : Env) (g : Nat) : Prop := g ∉ e.heldLow ∧ ∀ vs ∈ e.moves, ∀ v ∈ vs, g ∉ v

/-- The environment holds GPIO `g` low before each of the next `n` events. -/
def Env.HoldsFor (e : Env) (g n : Nat) : Prop := g ∈ e.heldLow ∧ ∀ vs ∈ e.moves.take n, ∀ v ∈ vs, g ∈ v

/-- The environment never lets go of GPIO `g`. -/
def Env.HoldsForGood (e : Env) (g : Nat) : Prop := g ∈ e.heldLow ∧ ∀ vs ∈ e.moves, ∀ v ∈ vs, g ∈ v

/-- The environment has let go of GPIO `g` once its changes are over, so every stretch poll ends (20_memory.md R39). -/
def Env.ReleasesAtLast (e : Env) (g : Nat) : Prop := g ∉ e.moves.flatten.getLast?.getD e.heldLow

/-- A counter that moves on by `n` has shown `delay` cycles, modulo `2^CW`. -/
def Shows (delay n : Nat) : Prop := delay ≤ n % 2 ^ Config.counterWidth

/-- Each delay wait ends at its first poll: the counter moves on far enough between two reads (20_memory.md R34). -/
def Env.CounterServes (e : Env) (delay : Nat) : Prop :=
  delay = 0 ∨ ((∀ n ∈ e.ticks, Shows delay n) ∧ Shows delay e.pace)

/-- No wait of a command with this delay and this SCL pin outlasts its first poll. -/
def Env.Serves (e : Env) (gScl delay : Nat) : Prop := e.Quiet gScl ∧ e.CounterServes delay

/-! ## Frames

Each frame is an equation: `t` is `s` but for the fields it lists, so every other field is unchanged. -/

/-- The environment has moved on about the pins and the counter, nothing else. -/
def EnvMoved (s t : State) : Prop :=
  t.env = { s.env with heldLow := t.env.heldLow, moves := t.env.moves, cycles := t.env.cycles, ticks := t.env.ticks }

/-- The environment has moved on about the pins, the counter and the CPU frequency, which was read once. -/
def EnvMovedFreq (s t : State) : Prop :=
  t.env = { s.env with
    heldLow := t.env.heldLow, moves := t.env.moves, cycles := t.env.cycles, ticks := t.env.ticks
    cpuFreq := s.env.nextFreq.cpuFreq, freqs := s.env.nextFreq.freqs }

/-- The records of events and levels are only added to. -/
def RecordsGrow (s t : State) : Prop := s.hist <+: t.hist ∧ s.bus <+: t.bus

/-- What STOP, SEND_ACK and SEND_NACK may change (42_start_stop.md R102, 43_ack.md R110). -/
def LinesFrame (s t : State) : Prop :=
  t = { s with
    ls := t.ls, drv := t.drv, t0 := t.t0, upc := t.upc, busy := t.busy, resp := t.resp
    env := t.env, hist := t.hist, bus := t.bus }
  ∧ EnvMoved s t ∧ RecordsGrow s t

/-- What WRITE_BYTE and READ_BYTE may change: `SHREG` and `BITCNT` too (44_byte_transfer.md R120, R123). -/
def ByteFrame (s t : State) : Prop :=
  t = { s with
    ls := t.ls, drv := t.drv, t0 := t.t0, upc := t.upc, busy := t.busy, resp := t.resp
    shreg := t.shreg, bitcnt := t.bitcnt, env := t.env, hist := t.hist, bus := t.bus }
  ∧ EnvMoved s t ∧ RecordsGrow s t

/-- What CHECK_ACK may change: `RAW` too (43_ack.md R112). -/
def CheckFrame (s t : State) : Prop :=
  t = { s with
    ls := t.ls, drv := t.drv, t0 := t.t0, upc := t.upc, busy := t.busy, resp := t.resp
    raw := t.raw, env := t.env, hist := t.hist, bus := t.bus }
  ∧ EnvMoved s t ∧ RecordsGrow s t

/-- What START may change: `DELAY` too, and it reads the CPU frequency (42_start_stop.md R100). -/
def StartFrame (s t : State) : Prop :=
  t = { s with
    delay := t.delay, ls := t.ls, drv := t.drv, t0 := t.t0, upc := t.upc, busy := t.busy, resp := t.resp
    env := t.env, hist := t.hist, bus := t.bus }
  ∧ EnvMovedFreq s t ∧ RecordsGrow s t

/-- What CONFIGURE may change: all but `SHREG`, `BITCNT`, `RAW`, the tables and the host's inputs
(41_bus_init_and_configure.md R88). -/
def ConfigureFrame (s t : State) : Prop :=
  t = { s with
    cfg := t.cfg, gpioSda := t.gpioSda, gpioScl := t.gpioScl, delay := t.delay, ls := t.ls, drv := t.drv
    configured := t.configured, busy := t.busy, upc := t.upc, resp := t.resp, pulsecnt := t.pulsecnt, t0 := t.t0
    env := t.env, hist := t.hist, bus := t.bus }
  ∧ t.env = { s.env with
      heldLow := t.env.heldLow, moves := t.env.moves, cycles := t.env.cycles, ticks := t.env.ticks
      cpuFreq := s.env.nextFreq.cpuFreq, freqs := s.env.nextFreq.freqs
      intEnabled := t.env.intEnabled, openDrain := t.env.openDrain }
  ∧ RecordsGrow s t

/-- What one more step on a waiting command may change: as the command's own frame, and without the parts of CONFIGURE
and START that come before their calls. -/
def WaitFrame (cmd : Command) (s t : State) : Prop :=
  t = { s with
    ls := t.ls, drv := t.drv, t0 := t.t0, upc := t.upc, busy := t.busy, resp := t.resp
    configured := if cmd = .configure then t.configured else s.configured
    pulsecnt := if cmd = .configure then t.pulsecnt else s.pulsecnt
    shreg := if cmd = .readByte then t.shreg else s.shreg
    bitcnt := if cmd = .readByte ∨ cmd = .writeByte then t.bitcnt else s.bitcnt
    raw := if cmd = .checkAck then t.raw else s.raw
    env := t.env, hist := t.hist, bus := t.bus }
  ∧ EnvMoved s t ∧ RecordsGrow s t

/-! ## The calls of a command

Written out from the spec's own sequences, not taken from the model's. -/

/-- The sixteen calls of WRITE_BYTE (44_byte_transfer.md R120): each bit, bit 7 first, with SCL low and then high. -/
def writePairs (b : Byte) : List Lines :=
  [7, 6, 5, 4, 3, 2, 1, 0].flatMap fun i => [⟨b.getLsbD i, false⟩, ⟨b.getLsbD i, true⟩]

/-- The seventeen calls of READ_BYTE entered with `LS.sda = sda` (44_byte_transfer.md R123). -/
def readPairs (sda : Bit) : List Lines :=
  (List.replicate 8 [⟨sda, false⟩, ⟨sda, true⟩]).flatten ++ [⟨sda, false⟩]

/-- The 62 calls of `init` (41_bus_init_and_configure.md R85). -/
def initPairs (order : PulseOrder) : List Lines :=
  [⟨true, false⟩, ⟨false, false⟩, ⟨true, false⟩]
    ++ (List.replicate 28 (match order with
        | .highThenLow => [⟨true, true⟩, ⟨true, false⟩]
        | .lowThenHigh => [⟨true, false⟩, ⟨true, true⟩])).flatten
    ++ (match order with
        | .highThenLow => [⟨false, false⟩, ⟨false, true⟩, ⟨true, true⟩]
        | .lowThenHigh => [⟨false, true⟩, ⟨false, true⟩, ⟨true, true⟩])

/-- The five calls of `send_ack_bit(level)` (43_ack.md R110). -/
def ackPairs (sda level : Bit) : List Lines :=
  [⟨sda, false⟩, ⟨level, false⟩, ⟨level, true⟩, ⟨level, false⟩, ⟨true, false⟩]

/-- The calls of a command that is in one of them, from the sequences of files 41 to 44. What the first call takes from
`LS` at entry, that call has recorded in `LS` again; the later calls take nothing from it but READ_BYTE's, which keep
`LS.sda`. -/
def commandPairs (cmd : Command) (s : State) : List Lines :=
  match cmd with
  | .configure => initPairs s.env.pulseOrder
  | .start => [⟨true, s.ls.scl⟩, ⟨true, true⟩, ⟨false, true⟩]
  | .stop => [⟨false, s.ls.scl⟩, ⟨false, true⟩, ⟨true, true⟩]
  | .writeByte => writePairs s.shreg
  | .readByte => readPairs s.ls.sda
  | .sendAck => ackPairs s.ls.sda false
  | .sendNack => ackPairs s.ls.sda true
  | .checkAck => [⟨true, false⟩, ⟨true, true⟩, ⟨true, false⟩]
  | .getSdaPin => []
  | .getSclPin => []

/-- The calls a waiting command has still to make after the one in progress. -/
def remainingPairs (cmd : Command) (s : State) : List Lines := (commandPairs cmd s).drop (s.upc.calls + 1)

/-- The pair a call has recorded and not yet applied: that of a call in its delay wait (10_state.md R14). -/
def pendingPairs (s : State) : List Lines := if s.upc.phase = .waitPoll then [s.ls] else []

/-- How many SDA samples a command has taken when `k` of its calls have completed (43_ack.md R112,
44_byte_transfer.md R123). -/
def samplesTaken (cmd : Command) (k : Nat) : Nat :=
  match cmd with
  | .readByte => k / 2
  | .checkAck => if 2 ≤ k then 1 else 0
  | .configure => 0
  | .start => 0
  | .stop => 0
  | .writeByte => 0
  | .sendAck => 0
  | .sendNack => 0
  | .getSdaPin => 0
  | .getSclPin => 0

/-- The SDA samples of a history, oldest first. -/
def samplesOf (h : List Event) : List Bit := h.filterMap Event.sampled

/-- SDA does not change between a value with SCL = 0 and a following one with SCL = 1 (70_reset_and_hazards.md R158). -/
def SteadyRises : List Lines → Prop
  | [] => True
  | [_] => True
  | p :: q :: rest => (p.scl = false → q.scl = true → p.sda = q.sda) ∧ SteadyRises (q :: rest)

/-! ## How a command ends -/

/-- From `s` to `t` the command has made the calls `calls` and driven the pairs `pairs`, and is over with `post`; or it
waits in one of its calls, having made the first of them, with no response yet (30_encoding.md R59). -/
def CommandEnds (cmd : Command) (s t : State) (calls pairs : List Lines) (post : Prop) : Prop :=
  (AtRest t ∧ callsBetween s t = calls ∧ drivenBetween s t = pairs ∧ post)
  ∨ (WaitsIn cmd t ∧ t.resp = s.resp ∧ t.configured = s.configured ∧ callsBetween s t <+: calls
      ∧ (callsBetween s t).length = t.upc.calls + 1 ∧ drivenBetween s t ++ pendingPairs t <+: pairs
      ∧ (samplesBetween s t).length = samplesTaken cmd t.upc.calls)

/-- From `s` the command that waits there, if one does, is gone on with, step by step, until it is over in `t`, with no
system reset (30_encoding.md R59). -/
inductive RunsToRest : State → State → Prop where
  | rest {s : State} (free : s.busy = false) : RunsToRest s s
  | wait {s u t : State} (busy : s.busy = true) (noReset : NoReset s) (next : step s = .next u)
      (onward : RunsToRest u t) : RunsToRest s t

/-- The command `i`, accepted in `s`, is over in `t`, at once or after waits of any number of polls. -/
def Completes (i : Instr) (s t : State) : Prop := ∃ u, exec i s = .next u ∧ RunsToRest u t

/-- The pair a command that holds `LS.sda = sda` in a call leaves the lines at (10_state.md R23), from what its end
state holds. READ_BYTE keeps `LS.sda` throughout. -/
def EndPair (cmd : Command) (sda : Bit) (t : State) : Prop :=
  match cmd with
  | .configure => t.ls = ⟨true, true⟩
  | .start => t.ls = ⟨false, true⟩
  | .stop => t.ls = ⟨true, true⟩
  | .writeByte => t.ls = ⟨t.shreg.getLsbD 0, true⟩
  | .readByte => t.ls = ⟨sda, false⟩
  | .sendAck => t.ls = ⟨true, false⟩
  | .sendNack => t.ls = ⟨true, false⟩
  | .checkAck => t.ls = ⟨true, false⟩
  | .getSdaPin => True
  | .getSclPin => True

/-! ## The invariant -/

/-- The block has latched a bus configuration: `CONFIGURED = 1`, or a CONFIGURE waits in its `init`. -/
def Armed (s : State) : Prop := s.configured = true ∨ s.busy = true

/-- What every step keeps. -/
structure Inv (s : State) : Prop where
  /-- `BUSY = 0` means no command and the idle phase (R20). -/
  rest : s.busy = false → s.upc = ⟨none, 0, .idle⟩
  /-- `BUSY = 1` between steps means a wait (60_exceptions.md R132, R133). -/
  waits : s.busy = true → ∃ cmd, WaitsIn cmd s ∧ (s.configured = true ∨ cmd = .configure)
  /-- `LS` is the pair of the call in progress (10_state.md R13, R20). -/
  inCall : s.busy = true → ∀ cmd, s.upc.cmd = some cmd → (commandPairs cmd s)[s.upc.calls]? = some s.ls
  /-- A command that waits in its last call has recorded the pair it ends with (R23). -/
  lastCall : s.busy = true → ∀ cmd, s.upc.cmd = some cmd →
    s.upc.calls + 1 = callCount (bodyOf cmd s.env.pulseOrder) → EndPair cmd s.ls.sda s
  /-- From the pair applied, through the one waiting to be and those to come, SDA is steady as SCL rises (R158). -/
  steady : s.busy = true → ∀ cmd, s.upc.cmd = some cmd →
    SteadyRises (s.drv :: (pendingPairs s ++ remainingPairs cmd s))
  /-- `BITCNT` is the bit that WRITE_BYTE's call in progress sends (44_byte_transfer.md R120). -/
  writeIndex : s.busy = true → s.upc.cmd = some .writeByte → s.bitcnt = 7 - s.upc.calls / 2
  /-- `BITCNT` is the number of READ_BYTE's bit in progress (44_byte_transfer.md R123). -/
  readIndex : s.busy = true → s.upc.cmd = some .readByte → s.bitcnt = min 7 (s.upc.calls / 2)
  /-- `SHREG` holds the samples READ_BYTE has taken, the first at bit 7, and zeros (44_byte_transfer.md R124). -/
  readSamples : s.busy = true → s.upc.cmd = some .readByte → ∃ before vs, samplesOf s.hist = before ++ vs
    ∧ vs.length = samplesTaken .readByte s.upc.calls ∧ ∀ i, i < 8 → s.shreg.getLsbD (7 - i) = vs[i]?.getD false
  /-- Once CHECK_ACK has sampled, `RAW` holds the sample (43_ack.md R112). -/
  rawSample : s.busy = true → s.upc.cmd = some .checkAck → samplesTaken .checkAck s.upc.calls = 1 →
    (samplesOf s.hist).getLast? = some s.raw
  /-- The armed speed is never below `MIN_SPEED_HZ` (10_state.md R11). -/
  speed : Armed s → Config.minSpeedHz ≤ s.cfg.speedHz.toNat
  /-- The GPIO numbers are those of `PIN_MAP` (10_state.md R15). -/
  sdaMapped : Armed s → pinMap s.cfg.sdaPin s = some s.gpioSda
  sclMapped : Armed s → pinMap s.cfg.sclPin s = some s.gpioScl
  /-- The two lines are two pins (93_implementation_defined.md U6). -/
  distinct : Armed s → s.gpioSda ≠ s.gpioScl
  /-- `DELAY` is the calibration of the armed speed at the frequency last read (10_state.md R12). -/
  calibrated : Armed s → s.delay.toNat = calibrate s.cfg.speedHz.toNat s.env.cpuFreq
  /-- Outside a wait the recorded pair is the applied pair (10_state.md R14). -/
  latched : Ready s → s.drv = s.ls
  /-- Before the first CONFIGURE the block pulls nothing low (10_state.md R27). -/
  released : s.busy = false → s.configured = false → s.drv = ⟨true, true⟩
  /-- The loop indices stay in their ranges (10_state.md R19). -/
  bitcnt : s.bitcnt < Config.bitsPerByte
  pulsecnt : s.pulsecnt < Config.recoveryPulses
  /-- The list of open-drain GPIOs stays rising without repeats. -/
  openDrain : s.env.openDrain.Pairwise (· < ·)

end Sys2Proof.Machine
end

