-- ==== Sys2Proof/Certificates/Slice0/Obligations.lean ====
section
/-! DEFINITION. The statements, in the order of OBLIGATIONS.json. The call lists they use stand in
Safety.lean, written out from the spec's own sequences. -/

open Sys2Proof Sys2Proof.Machine

/-! ## Encoding and text -/

/-- Sanity: words of every format decode as the opcode map says, and words outside it do not (30_encoding.md R51 to R54). -/
def Obligations.SpecWordsDecode : Prop :=
  decode 0x010201000186A000 = .ok (.configure 2 1 100000)
  ∧ decode 0x0100FFFFFFFFFF00 = .ok (.configure 0 255 4294967295)
  ∧ decode 0x0200000000000000 = .ok .start
  ∧ decode 0x04A0000000000000 = .ok (.writeByte 0xA0)
  ∧ decode 0x0800000000000000 = .ok .checkAck
  ∧ decode 0x0A00000000000000 = .ok .getSclPin
  ∧ decode 0x0B00000000000000 = .error .unknownOpcode
  ∧ decode 0x010201000186A001 = .error .reservedBitSet

/-- Decoding an encoded command gives it back, for every command and every operand. -/
def Obligations.DecodeInvertsEncode : Prop := ∀ i : Instr, decode (encode i) = .ok i

/-- A word that decodes is the encoding of what it decodes to: no encoding aliases another (30_encoding.md R54). -/
def Obligations.EncodeInvertsDecode : Prop := ∀ (w : CommandWord) (i : Instr), decode w = .ok i → encode i = w

/-- The operands are the word's unsigned fields: `b` and `sda_pin` bits 55 to 48, `scl_pin` bits 47 to 40, `speed` bits
39 to 8 (30_encoding.md R53). -/
def Obligations.OperandsAreTheWordsFields : Prop :=
  ∀ w : CommandWord,
    (∀ sda scl speed, decode w = .ok (.configure sda scl speed) →
      sda.toNat = w.toNat / 2 ^ 48 % 2 ^ 8 ∧ scl.toNat = w.toNat / 2 ^ 40 % 2 ^ 8
      ∧ speed.toNat = w.toNat / 2 ^ 8 % 2 ^ 32)
    ∧ ∀ b, decode w = .ok (.writeByte b) → b.toNat = w.toNat / 2 ^ 48 % 2 ^ 8

/-- A word is a command exactly if it matches a row of the opcode map, and it never matches two (30_encoding.md R52, R54). -/
def Obligations.DecodeAcceptsTheOpcodeMap : Prop :=
  ∀ w : CommandWord,
    ((∃ i, decode w = .ok i) ↔ ∃ row ∈ opcodeMap, matchesRow w row = true)
    ∧ (opcodeMap.filter (matchesRow w)).length ≤ 1

/-- A command's line reads back as the command (30_encoding.md R55). -/
def Obligations.TextReadsBack : Prop := ∀ i : Instr, parseLine (renderLine i) = some i

/-! ## The step -/

/-- When no command executes, a step takes the host's next word and, if it decodes to `i`, is `exec i` at the state
with the word taken. -/
def Obligations.StepRunsDecodedCommand : Prop :=
  ∀ (s : State) (w : CommandWord) (i : Instr) (rest : List HostInput),
    s.busy = false → s.env.host = .command w :: rest → decode w = .ok i →
    step s = exec i { s with env := { s.env with host := rest } }

/-- An invalid word is refused (30_encoding.md R54). -/
def Obligations.StepRefusesInvalidWord : Prop :=
  ∀ (s : State) (w : CommandWord) (rest : List HostInput),
    s.busy = false → s.env.host = .command w :: rest → (∀ row ∈ opcodeMap, matchesRow w row = false) →
    ∃ why, step s = .refused (.invalidWord why)

/-- The reset state holds what 10_state.md R27 gives. -/
def Obligations.ResetStateAsSpecified : Prop :=
  State.reset.configured = false ∧ State.reset.busy = false ∧ State.reset.upc = ⟨none, 0, .idle⟩
  ∧ State.reset.drv = ⟨true, true⟩

/-- A system reset puts the block in its reset state from every state, a hang included (60_exceptions.md R138,
70_reset_and_hazards.md R150); that the environment and the records stay is the model's choice (log 11). -/
def Obligations.SystemResetFromAnyState : Prop :=
  ∀ (s : State) (rest : List HostInput), s.env.host = .systemReset :: rest →
    ∃ t, step s = .next t ∧ t.configured = false ∧ t.busy = false ∧ t.upc = ⟨none, 0, .idle⟩
      ∧ t.drv = ⟨true, true⟩ ∧ t.env = { s.env with host := rest } ∧ t.hist = s.hist

/-! ## Calibration -/

/-- `calibrate` is the floor of `cpu_freq * 500000 / speed_hz`, less 130, and 0 where that is negative
(40_timing_and_line_driver.md R70, R71). -/
def Obligations.CalibrateFormula : Prop :=
  ∀ speed freq : Nat,
    (freq * 500000 / speed < 130 → calibrate speed freq = 0)
    ∧ (130 ≤ freq * 500000 / speed → calibrate speed freq + 130 = freq * 500000 / speed)

/-- `calibrate` does not increase as the speed increases (40_timing_and_line_driver.md R72 (a)). -/
def Obligations.CalibrateMonotone : Prop :=
  ∀ freq speed speed' : Nat, 1 ≤ speed → speed ≤ speed' → calibrate speed' freq ≤ calibrate speed freq

/-- Up to the speed bound of R72 (b) the clamp does not act; above it the result is 0. -/
def Obligations.CalibrateClampBoundary : Prop :=
  ∀ freq speed : Nat, 1 ≤ speed →
    (speed * 130 ≤ freq * 500000 → calibrate speed freq + 130 = freq * 500000 / speed)
    ∧ (freq * 500000 < speed * 130 → calibrate speed freq = 0)

/-- With a 32-bit counter every result fits for every frequency up to 8589934, at any armed speed; at the next
frequency and the lowest speed it does not (40_timing_and_line_driver.md R72 (c)). -/
def Obligations.DelayFitsUpToFrequencyBound : Prop :=
  (∀ speed freq : Nat, 1000 ≤ speed → freq ≤ 8589934 → delayFits (calibrate speed freq) = true)
  ∧ delayFits (calibrate 1000 8589935) = false

/-! ## The primitives -/

/-- A pin read answers 1 exactly if the block releases the line and nothing else holds the selected pin low, and changes
nothing but what the environment does before it and the records; a second read with nothing between answers the same
(20_memory.md R33, R38). -/
def Obligations.PinReadIsWiredAnd : Prop :=
  ∀ s : State,
    ((pinReadScl s).1 = true ↔ s.drv.scl = true ∧ s.gpioScl ∉ s.env.settle.heldLow)
    ∧ (pinReadScl s).2 = { s with
        env := s.env.settle, hist := s.hist ++ [.rscl (pinReadScl s).1], bus := s.bus ++ s.env.nextMoves.map s.lowPins }
    ∧ ((pinReadSda s).1 = true ↔ s.drv.sda = true ∧ s.gpioSda ∉ s.env.settle.heldLow)
    ∧ (pinReadSda s).2 = { s with
        env := s.env.settle, hist := s.hist ++ [.rsda (pinReadSda s).1], bus := s.bus ++ s.env.nextMoves.map s.lowPins }
    ∧ (s.env.moves.tail = [] →
        (pinReadScl (pinReadScl s).2).1 = (pinReadScl s).1 ∧ (pinReadSda (pinReadSda s).2).1 = (pinReadSda s).1)

/-- `LinesWrite` changes both bits of `DRV` in one action, and nothing else of the block; one further entry of the record
of low pins shows it, after those of the environment's own changes (20_memory.md R32, R49). -/
def Obligations.LinesWriteIsOneAction : Prop :=
  ∀ (l : Lines) (s : State),
    linesWrite l s = { s with
      drv := l, env := s.env.settle, hist := s.hist ++ [.drv l]
      bus := s.bus ++ s.env.nextMoves.map s.lowPins ++ [(linesWrite l s).lowPins s.env.settle.heldLow] }

/-- The block acts on the two pins it has selected: a GPIO is low after a `LinesWrite` exactly if something else holds it
low, or it is `GPIO_SDA` or `GPIO_SCL` and the pair pulls that line low; `LINE` is the level of the two selected pins
(10_state.md R15, 20_memory.md R32, R38). -/
def Obligations.SelectedPinsAreTheOnesDriven : Prop :=
  ∀ (l : Lines) (s : State),
    (∀ g, g ∈ (linesWrite l s).lowPins (linesWrite l s).env.heldLow ↔
      g ∈ s.env.settle.heldLow ∨ (g = s.gpioSda ∧ l.sda = false) ∨ (g = s.gpioScl ∧ l.scl = false))
    ∧ (s.gpioSda ≠ s.gpioScl → s.line = levelsOf s.gpioSda s.gpioScl (s.lowPins s.env.heldLow))

/-- `CycleRead` answers the count modulo `2^32`, the count never decreases, and only the environment and the records move
(20_memory.md R34). -/
def Obligations.CycleReadWraps : Prop :=
  ∀ s : State,
    (cycleRead s).1.toNat = (cycleRead s).2.env.cycles % 2 ^ 32 ∧ s.env.cycles ≤ (cycleRead s).2.env.cycles
    ∧ (cycleRead s).2 = { s with
        env := s.env.settle.advance, hist := s.hist ++ [.cyc (cycleRead s).1]
        bus := s.bus ++ s.env.nextMoves.map s.lowPins }

/-! ## The delay wait and set_lines -/

/-- The delay wait arms with one `CycleRead` and polls with another; while the elapsed count, modulo `2^CW`, is below
`DELAY` it waits, each further step being one more poll, and the first poll that shows `DELAY` ends it: the pair is
applied next (40_timing_and_line_driver.md R73, R74). -/
def Obligations.DelayWaitEndsAtFirstElapsedRead : Prop :=
  (∀ s t : State, waitCycles s = .done t →
    ∃ x : Cycles, t.hist = s.hist ++ [.cyc t.t0, .cyc x] ∧ s.delay.toNat ≤ (x - t.t0).toNat)
  ∧ (∀ s t : State, waitCycles s = .waiting t →
    ∃ x : Cycles, t.hist = s.hist ++ [.cyc t.t0, .cyc x] ∧ (x - t.t0).toNat < s.delay.toNat)
  ∧ ∀ (cmd : Command) (s t : State), WaitsIn cmd s → InDelayWait s → NoReset s → step s = .next t →
    ∃ (x : Cycles) (rest : List Event),
      eventsBetween s t = .cyc x :: rest ∧ x = counterValue (s.env.cycles + s.env.ticks.headD s.env.pace)
      ∧ ((x - s.t0).toNat < s.delay.toNat →
          rest = [] ∧ InDelayWait t ∧ t.t0 = s.t0 ∧ t.upc = s.upc ∧ t.ls = s.ls ∧ t.drv = s.drv)
      ∧ (s.delay.toNat ≤ (x - s.t0).toNat → ∃ more, rest = .drv s.ls :: more)

/-- A `set_lines` call whose two loops end at their first turn: bit 0 of each operand is recorded, the delay is waited if
it is positive, the pair is applied, then SCL is polled if it was requested high; `LS`, `DRV` and `T0` are all it writes.
(Further turns: `DelayWaitEndsAtFirstElapsedRead`, `StretchMakesOnePollPerLowAnswer`.) (40_timing_and_line_driver.md R74) -/
def Obligations.SetLinesFiveSteps : Prop :=
  ∀ (a b : Nat) (s t : State), setLines a b s = .done t →
    t = { s with
      ls := ⟨a.testBit 0, b.testBit 0⟩, drv := ⟨a.testBit 0, b.testBit 0⟩, t0 := t.t0
      upc := ⟨s.upc.cmd, s.upc.calls, t.upc.phase⟩, env := t.env, hist := t.hist, bus := t.bus }
    ∧ EnvMoved s t
    ∧ ∃ (ts : List Cycles) (vs : List Bit),
        t.hist = s.hist ++ [Event.recorded ⟨a.testBit 0, b.testBit 0⟩] ++ ts.map Event.cyc
          ++ [Event.drv ⟨a.testBit 0, b.testBit 0⟩] ++ vs.map Event.rscl
        ∧ (s.delay.toNat = 0 → ts = [] ∧ t.t0 = s.t0)
        ∧ (0 < s.delay.toNat → ∃ last : Cycles, ts = [t.t0, last] ∧ s.delay.toNat ≤ (last - t.t0).toNat)
        ∧ (b.testBit 0 = false → vs = [])
        ∧ (b.testBit 0 = true → vs = [true])

/-- While a call waits in step 3 the recorded pair is the new one and the applied pair the old one; while it waits in
step 5 both are the new one and SCL has read 0; and its events so far (10_state.md R14, 60_exceptions.md R137). -/
def Obligations.WaitingCallHoldsOldPairUntilApplied : Prop :=
  ∀ (a b : Nat) (s t : State), setLines a b s = .waiting t →
    t.ls = ⟨a.testBit 0, b.testBit 0⟩
    ∧ ((t.upc.phase = .waitPoll ∧ t.drv = s.drv
        ∧ ∃ x : Cycles, t.hist = s.hist ++ [.recorded t.ls, .cyc t.t0, .cyc x])
      ∨ (t.upc.phase = .stretchPoll ∧ t.drv = t.ls ∧ t.line.scl = false
        ∧ ∃ ts : List Cycles, t.hist = s.hist ++ [.recorded t.ls] ++ ts.map Event.cyc ++ [.drv t.ls, .rscl false]))

/-- Calling `set_lines` twice with the same arguments leaves `LS`, `DRV` and the line levels as calling it once, given
an external pull state that does not change (40_timing_and_line_driver.md R75 (a)). -/
def Obligations.SetLinesIdempotent : Prop :=
  ∀ (a b : Nat) (s t u : State), s.env.moves = [] → setLines a b s = .done t → setLines a b t = .done u →
    u.ls = t.ls ∧ u.drv = t.drv ∧ u.line = t.line

/-- While something holds SCL low, each step is one more poll that reads 0, and no high phase shows on the bus; the first
poll after it is let go reads 1 and ends the call: after `n` further reads of 0 a read of 1, whatever SDA does meanwhile
(40_timing_and_line_driver.md R74, R75 (e); 44_byte_transfer.md R121 (a)). -/
def Obligations.StretchMakesOnePollPerLowAnswer : Prop :=
  ∀ (cmd : Command) (s : State) (n : Nat),
    WaitsIn cmd s → InStretchWait s → NoReset s → s.env.HoldsFor s.gpioScl n →
    ∃ t, Sys2Proof.core.run n s = .next t ∧ WaitsIn cmd t ∧ InStretchWait t
      ∧ t.hist = s.hist ++ List.replicate n (Event.rscl false)
      ∧ (∀ low ∈ t.bus.drop s.bus.length, levelOf s.gpioScl low = false)
      ∧ (s.gpioScl ∉ s.env.heldAfter (n + 1) →
          ∃ u rest, step t = .next u ∧ eventsBetween t u = .rscl true :: rest
            ∧ (u.busy = false ∨ s.upc.calls < u.upc.calls))

/-! ## Hangs and waits -/

/-- If SCL is held low for good, a command in a stretch wait never completes: after any number of steps it is still in
the wait, with the lines as the call set them, one more read of 0 for each step, and no response (60_exceptions.md R132). -/
def Obligations.StretchHangNeverCompletes : Prop :=
  ∀ (cmd : Command) (s : State) (n : Nat),
    WaitsIn cmd s → InStretchWait s → s.env.HoldsForGood s.gpioScl → NoReset s →
    ∃ t, Sys2Proof.core.run n s = .next t ∧ WaitsIn cmd t ∧ InStretchWait t ∧ t.ls = s.ls ∧ t.drv = s.drv
      ∧ t.resp = s.resp ∧ t.upc = s.upc ∧ t.hist = s.hist ++ List.replicate n (Event.rscl false)

/-- If the counter stops, a command in a delay wait never completes (60_exceptions.md R133). -/
def Obligations.StoppedCounterNeverCompletes : Prop :=
  ∀ (cmd : Command) (s : State) (n : Nat),
    WaitsIn cmd s → InDelayWait s → (∀ x ∈ s.env.ticks, x = 0) → s.env.pace = 0 → NoReset s →
    ∃ t, Sys2Proof.core.run n s = .next t ∧ WaitsIn cmd t ∧ InDelayWait t ∧ t.ls = s.ls ∧ t.drv = s.drv
      ∧ t.resp = s.resp ∧ t.upc = s.upc

/-- A command that waits completes after finitely many steps if the environment in the end lets go of SCL and the
counter's later reads advance it without aliasing (20_memory.md R34, R39; premises as D8 asks; the environment's form is
the model's, log 2). -/
def Obligations.ServedWaitCompletes : Prop :=
  ∀ (cmd : Command) (s : State),
    WaitsIn cmd s → NoReset s → s.env.ReleasesAtLast s.gpioScl → 1 ≤ s.env.pace →
    s.env.pace + s.delay.toNat ≤ 2 ^ 32 →
    ∃ (n : Nat) (t : State), Sys2Proof.core.run n s = .next t ∧ AtRest t ∧ RecordsGrow s t

/-- Every step on a waiting command, whether it completes it or leaves it waiting again: its frame; the pairs it drives
are those recorded and not yet applied; the calls it makes are the first of those the command has left, all of them if
it completes, and then the lines are left as the command's rule says; it takes the samples that fall between the calls
(10_state.md R14, R20, R23; 30_encoding.md R59; 43_ack.md R112; 44_byte_transfer.md R123). -/
def Obligations.ResumedCommandMakesRemainingCalls : Prop :=
  ∀ (cmd : Command) (s t : State), Inv s → WaitsIn cmd s → NoReset s → step s = .next t →
    WaitFrame cmd s t
    ∧ drivenBetween s t ++ pendingPairs t = pendingPairs s ++ callsBetween s t
    ∧ ((AtRest t ∧ callsBetween s t = remainingPairs cmd s ∧ EndPair cmd s.ls.sda t ∧ t.drv = t.ls
          ∧ t.configured = true
          ∧ samplesTaken cmd s.upc.calls + (samplesBetween s t).length
              = samplesTaken cmd (callCount (bodyOf cmd s.env.pulseOrder)))
      ∨ (WaitsIn cmd t ∧ callsBetween s t <+: remainingPairs cmd s
          ∧ t.upc.calls = s.upc.calls + (callsBetween s t).length ∧ t.resp = s.resp ∧ t.configured = s.configured
          ∧ samplesTaken cmd s.upc.calls + (samplesBetween s t).length = samplesTaken cmd t.upc.calls))

/-- A READ_BYTE that completes after a wait answers its eight samples, bit 7 first, whichever steps took them; a
CHECK_ACK that completes after a wait answers by its one sample, inverted (44_byte_transfer.md R123, R124; 43_ack.md
R112, R116). -/
def Obligations.WaitedSamplesReachTheResponse : Prop :=
  ∀ s t : State, Inv s → NoReset s → step s = .next t → t.busy = false →
    (WaitsIn .readByte s → ∃ before vs, samplesOf t.hist = before ++ vs ∧ vs.length = 8 ∧ t.resp.toNat < 256
      ∧ ∀ i, i < 8 → some (t.resp.getLsbD (7 - i)) = vs[i]?)
    ∧ (WaitsIn .checkAck s → (samplesOf t.hist).getLast? = some t.raw
      ∧ (t.raw = false → t.resp = 1) ∧ (t.raw = true → t.resp = 0))

/-- In every step, each pin read answers the level that holds after every earlier `LinesWrite` and every change of the
environment before it: the wired AND of the pair last driven and what the environment then lets be
(20_memory.md R33, R38, R39, R40). -/
def Obligations.ReadsReturnTheLineLevel : Prop :=
  ∀ s t : State, NoReset s → step s = .next t → ∀ (j : Nat) (v : Bit),
    ((eventsBetween s t)[j]? = some (.rscl v) →
      v = ((((eventsBetween s t).take j).filterMap Event.driven).getLast?.getD s.drv).scl
        && levelOf t.gpioScl (s.env.heldAfter (j + 1)))
    ∧ ((eventsBetween s t)[j]? = some (.rsda v) →
      v = ((((eventsBetween s t).take j).filterMap Event.driven).getLast?.getD s.drv).sda
        && levelOf t.gpioSda (s.env.heldAfter (j + 1)))

/-! ## The commands -/

/-- CONFIGURE with two mapped, distinct pins, from reset or from idle: what it latches, its events up to `init`, its 62
calls, its response (41_bus_init_and_configure.md R85, R88). That it runs for every delay below 2^32, also one that can
alias, is the model's choice (log 6). -/
def Obligations.ConfigureArmsTheBus : Prop :=
  ∀ (s : State) (sda scl : PinId) (speed : Speed) (gSda gScl delay : Nat),
    s.busy = false → (s.configured = true → s.ls = ⟨true, true⟩) →
    pinMap sda s = some gSda → pinMap scl s = some gScl → gSda ≠ gScl →
    delay = calibrate (max speed.toNat 1000) s.env.nextFreq.cpuFreq → delay < 2 ^ 32 →
    ∃ t, exec (.configure sda scl speed) s = .next t ∧ ConfigureFrame s t
      ∧ t.cfg.sdaPin = sda ∧ t.cfg.sclPin = scl ∧ t.cfg.speedHz.toNat = max speed.toNat 1000
      ∧ t.gpioSda = gSda ∧ t.gpioScl = gScl ∧ t.delay.toNat = delay
      ∧ gSda ∈ t.env.openDrain ∧ gScl ∈ t.env.openDrain ∧ t.env.intEnabled = true
      ∧ [.map sda gSda, .map scl gScl, .freq s.env.nextFreq.cpuFreq, .ioff, .mode gSda, .mode gScl,
          .drv ⟨true, true⟩, .ion] <+: eventsBetween s t
      ∧ CommandEnds .configure s t (initPairs s.env.pulseOrder) (⟨true, true⟩ :: initPairs s.env.pulseOrder)
          (t.ls = ⟨true, true⟩ ∧ t.drv = ⟨true, true⟩ ∧ t.configured = true ∧ t.resp = t.cfg.speedHz)
      ∧ (s.env.Serves gScl delay → AtRest t)

/-- START recalibrates and makes its three calls; it ends at (0,1) with response 0 (42_start_stop.md R100). That it
runs for every delay below 2^32, also one that can alias, is the model's choice (log 6). -/
def Obligations.StartRecalibratesAndStarts : Prop :=
  ∀ (s : State) (delay : Nat), Ready s →
    delay = calibrate s.cfg.speedHz.toNat s.env.nextFreq.cpuFreq → delay < 2 ^ 32 →
    ∃ t, exec .start s = .next t ∧ StartFrame s t ∧ t.delay.toNat = delay
      ∧ CommandEnds .start s t [⟨true, s.ls.scl⟩, ⟨true, true⟩, ⟨false, true⟩]
          [⟨true, s.ls.scl⟩, ⟨true, true⟩, ⟨false, true⟩]
          (t.ls = ⟨false, true⟩ ∧ t.drv = ⟨false, true⟩ ∧ t.resp = 0)
      ∧ (s.env.Serves s.gpioScl delay → AtRest t)

/-- STOP makes its three calls and ends at (1,1), whatever the entry state, with response 0 (42_start_stop.md R102). -/
def Obligations.StopReturnsToIdle : Prop :=
  ∀ s : State, Ready s →
    ∃ t, exec .stop s = .next t ∧ LinesFrame s t
      ∧ CommandEnds .stop s t [⟨false, s.ls.scl⟩, ⟨false, true⟩, ⟨true, true⟩]
          [⟨false, s.ls.scl⟩, ⟨false, true⟩, ⟨true, true⟩]
          (t.ls = ⟨true, true⟩ ∧ t.drv = ⟨true, true⟩ ∧ t.resp = 0)
      ∧ (s.env.Serves s.gpioScl s.delay.toNat → AtRest t)

/-- WRITE_BYTE makes sixteen calls, the bits from bit 7 to bit 0, each with SCL low and then high; it ends with SCL high
and SDA at bit 0, with response 0 (44_byte_transfer.md R120). -/
def Obligations.WriteByteSendsBitsMsbFirst : Prop :=
  ∀ (s : State) (b : Byte), Ready s →
    ∃ t, exec (.writeByte b) s = .next t ∧ ByteFrame s t ∧ t.shreg = b
      ∧ CommandEnds .writeByte s t (writePairs b) (writePairs b)
          (t.ls = ⟨b.getLsbD 0, true⟩ ∧ t.drv = ⟨b.getLsbD 0, true⟩ ∧ t.resp = 0 ∧ samplesBetween s t = [])
      ∧ (s.env.Serves s.gpioScl s.delay.toNat → AtRest t)

/-- READ_BYTE makes seventeen calls with `LS.sda` kept, samples SDA eight times and answers the byte whose bit `7 - i` is
sample `i`; each sample is the wired AND of the SDA the block holds and what the environment then lets
be (44_byte_transfer.md R123, R124). With LS.sda = 0 the command runs by the model's choice (log 5). -/
def Obligations.ReadByteAssemblesSamples : Prop :=
  ∀ s : State, Ready s →
    ∃ t, exec .readByte s = .next t ∧ ByteFrame s t
      ∧ CommandEnds .readByte s t (readPairs s.ls.sda) (readPairs s.ls.sda)
          (t.ls = ⟨s.ls.sda, false⟩ ∧ t.drv = ⟨s.ls.sda, false⟩
            ∧ (samplesBetween s t).length = 8
            ∧ t.resp.toNat < 256
            ∧ ∀ i, i < 8 → some (t.resp.getLsbD (7 - i)) = (samplesBetween s t)[i]?)
      ∧ (∀ j v, (eventsBetween s t)[j]? = some (.rsda v) →
          v = (s.ls.sda && levelOf s.gpioSda (s.env.heldAfter (j + 1))))
      ∧ (s.env.Serves s.gpioScl s.delay.toNat → AtRest t)

/-- SEND_ACK makes the five calls of `send_ack_bit(0)` and ends at (1,0) with response 0 (43_ack.md R110, R114). -/
def Obligations.SendAckDrivesLow : Prop :=
  ∀ s : State, Ready s →
    ∃ t, exec .sendAck s = .next t ∧ LinesFrame s t
      ∧ CommandEnds .sendAck s t (ackPairs s.ls.sda false) (ackPairs s.ls.sda false)
          (t.ls = ⟨true, false⟩ ∧ t.drv = ⟨true, false⟩ ∧ t.resp = 0)
      ∧ (s.env.Serves s.gpioScl s.delay.toNat → AtRest t)

/-- SEND_NACK makes the five calls of `send_ack_bit(1)` and ends at (1,0) with response 0 (43_ack.md R110, R115). -/
def Obligations.SendNackReleases : Prop :=
  ∀ s : State, Ready s →
    ∃ t, exec .sendNack s = .next t ∧ LinesFrame s t
      ∧ CommandEnds .sendNack s t (ackPairs s.ls.sda true) (ackPairs s.ls.sda true)
          (t.ls = ⟨true, false⟩ ∧ t.drv = ⟨true, false⟩ ∧ t.resp = 0)
      ∧ (s.env.Serves s.gpioScl s.delay.toNat → AtRest t)

/-- CHECK_ACK makes its three calls, samples SDA once, and answers 1 exactly when the sampled bit is 0
(43_ack.md R112, R116, R117). -/
def Obligations.CheckAckInvertsTheSample : Prop :=
  ∀ s : State, Ready s →
    ∃ t, exec .checkAck s = .next t ∧ CheckFrame s t
      ∧ CommandEnds .checkAck s t [⟨true, false⟩, ⟨true, true⟩, ⟨true, false⟩]
          [⟨true, false⟩, ⟨true, true⟩, ⟨true, false⟩]
          (t.ls = ⟨true, false⟩ ∧ t.drv = ⟨true, false⟩
            ∧ samplesBetween s t = [t.raw]
            ∧ (t.raw = false → t.resp = 1) ∧ (t.raw = true → t.resp = 0))
      ∧ (∀ j v, (eventsBetween s t)[j]? = some (.rsda v) → v = levelOf s.gpioSda (s.env.heldAfter (j + 1)))
      ∧ (s.env.Serves s.gpioScl s.delay.toNat → AtRest t)

/-- GET_SDA_PIN answers the logical identifier the host passed, and changes nothing but the response; before the first
CONFIGURE it is refused (41_bus_init_and_configure.md R92). -/
def Obligations.GetSdaPinAnswersIdentifier : Prop :=
  ∀ s : State,
    (Ready s → exec .getSdaPin s = .next { s with resp := s.cfg.sdaPin.setWidth 32, upc := ⟨none, 0, .idle⟩ })
    ∧ (s.busy = false → s.configured = false → exec .getSdaPin s = .refused .notConfigured)

/-- GET_SCL_PIN answers the logical identifier the host passed, and changes nothing but the response; before the first
CONFIGURE it is refused (41_bus_init_and_configure.md R93). -/
def Obligations.GetSclPinAnswersIdentifier : Prop :=
  ∀ s : State,
    (Ready s → exec .getSclPin s = .next { s with resp := s.cfg.sclPin.setWidth 32, upc := ⟨none, 0, .idle⟩ })
    ∧ (s.busy = false → s.configured = false → exec .getSclPin s = .refused .notConfigured)

/-- The response of every command as it completes, at once or after a wait (30_encoding.md R58). -/
def Obligations.ResponseOfEveryCommand : Prop :=
  (∀ (i : Instr) (s t : State), exec i s = .next t → t.busy = false →
    match i with
    | .configure _ _ _ => t.resp = t.cfg.speedHz
    | .readByte => t.resp = t.shreg.setWidth 32
    | .checkAck => t.resp = if t.raw then 0 else 1
    | .getSdaPin => t.resp = t.cfg.sdaPin.setWidth 32
    | .getSclPin => t.resp = t.cfg.sclPin.setWidth 32
    | .start => t.resp = 0
    | .stop => t.resp = 0
    | .writeByte _ => t.resp = 0
    | .sendAck => t.resp = 0
    | .sendNack => t.resp = 0)
  ∧ ∀ (cmd : Command) (s t : State), s.busy = true → s.upc.cmd = some cmd → NoReset s → step s = .next t →
    t.busy = false →
    match cmd with
    | .configure => t.resp = t.cfg.speedHz
    | .readByte => t.resp = t.shreg.setWidth 32
    | .checkAck => t.resp = if t.raw then 0 else 1
    | .getSdaPin => t.resp = t.cfg.sdaPin.setWidth 32
    | .getSclPin => t.resp = t.cfg.sclPin.setWidth 32
    | .start => t.resp = 0
    | .stop => t.resp = 0
    | .writeByte => t.resp = 0
    | .sendAck => t.resp = 0
    | .sendNack => t.resp = 0

/-- Whenever the eight samples of a READ_BYTE are the levels that WRITE_BYTE `v` drives as its clock rises, in order, it
answers `v`, with or without waits on the way (44_byte_transfer.md R125; the harness of 90_conflicts.md C5). -/
def Obligations.WrittenLevelsReadBack : Prop :=
  ∀ (s t : State) (v : Byte), Completes .readByte s t →
    samplesBetween s t = ((writePairs v).filter (fun l => l.scl)).map (fun l => l.sda) → t.resp = v.setWidth 32

/-- On the wire with nothing else on the bus, a WRITE_BYTE and then a READ_BYTE does not read the byte back: every sample
is the SDA level the block still holds, bit 0 of the byte (44_byte_transfer.md R125). With LS.sda = 0 READ_BYTE
runs by the model's choice (log 5). -/
def Obligations.WiredReadAfterWrite : Prop :=
  ∀ (s t u : State) (v : Byte), s.env.Quiet s.gpioSda → Completes (.writeByte v) s t → Completes .readByte t u →
    u.resp = (if v.getLsbD 0 then 0xFF else 0x00)

/-- Entered with SDA held low, READ_BYTE answers 0 whatever the slave sends (70_reset_and_hazards.md R159,
44_byte_transfer.md R123). That it runs there is the model's choice (log 5). -/
def Obligations.ReadByteHoldingSdaLowAnswersZero : Prop :=
  ∀ s t : State, s.ls.sda = false → Completes .readByte s t → t.resp = 0 ∧ t.ls = ⟨false, false⟩

/-- A whole transaction leaves `LS` at (1,1), whatever the bytes and the acknowledge bits, and whatever the waits in its
commands (42_start_stop.md R103). -/
def Obligations.TransactionEndsIdle : Prop :=
  ∀ (s₀ s₁ s₂ s₃ s₄ s₅ s₆ : State) (x y : Byte),
    Completes .start s₀ s₁ → Completes (.writeByte x) s₁ s₂ → Completes .checkAck s₂ s₃ →
    Completes (.writeByte y) s₃ s₄ → Completes .checkAck s₄ s₅ → Completes .stop s₅ s₆ → s₆.ls = ⟨true, true⟩

/-! ## Refusals -/

/-- Before the first CONFIGURE has completed, every other command is refused (70_reset_and_hazards.md R152). -/
def Obligations.OnlyConfigureBeforeConfigured : Prop :=
  ∀ (i : Instr) (s : State), s.configured = false → (∀ sda scl speed, i ≠ .configure sda scl speed) →
    (s.busy = false → exec i s = .refused .notConfigured) ∧ (s.busy = true → exec i s = .refused .commandWhileBusy)

/-- A command presented while another executes is refused (60_exceptions.md R141), and a step takes none from the host
then (30_encoding.md R59). -/
def Obligations.NoCommandWhileBusy : Prop :=
  ∀ (i : Instr) (s t : State), s.busy = true → exec i s = .refused .commandWhileBusy
    ∧ (NoReset s → step s = .next t → t.env.host = s.env.host)

/-- CONFIGURE is refused in mid-transaction, for an identifier outside the pin table, and for pins that are not
distinct (41_bus_init_and_configure.md R90, R91). -/
def Obligations.ConfigureRefusals : Prop :=
  ∀ (s : State) (sda scl : PinId) (speed : Speed), s.busy = false →
    (s.configured = true → s.ls ≠ ⟨true, true⟩ →
      exec (.configure sda scl speed) s = .refused .configureNotIdle)
    ∧ ((s.configured = true → s.ls = ⟨true, true⟩) →
        (pinMap sda s = none → exec (.configure sda scl speed) s = .refused (.pinNotMapped sda))
        ∧ (∀ g, pinMap sda s = some g → pinMap scl s = none →
            exec (.configure sda scl speed) s = .refused (.pinNotMapped scl))
        ∧ (∀ g, pinMap sda s = some g → pinMap scl s = some g →
            exec (.configure sda scl speed) s = .refused .pinsNotDistinct))

/-- A delay that does not fit the counter's width is refused, by START and by CONFIGURE
(40_timing_and_line_driver.md R72 (c)). -/
def Obligations.OversizeDelayRefused : Prop :=
  (∀ s : State, Ready s → 2 ^ 32 ≤ calibrate s.cfg.speedHz.toNat s.env.nextFreq.cpuFreq →
    exec .start s = .refused .delayOutOfRange)
  ∧ ∀ (s : State) (sda scl : PinId) (speed : Speed) (gSda gScl : Nat),
      s.busy = false → (s.configured = true → s.ls = ⟨true, true⟩) →
      pinMap sda s = some gSda → pinMap scl s = some gScl → gSda ≠ gScl →
      2 ^ 32 ≤ calibrate (max speed.toNat 1000) s.env.nextFreq.cpuFreq →
      exec (.configure sda scl speed) s = .refused .delayOutOfRange

/-! ## Whole-machine rules -/

/-- The invariant holds after reset. -/
def Obligations.ResetMeetsInvariant : Prop := Inv State.reset

/-- Every step keeps the invariant. -/
def Obligations.StepKeepsInvariant : Prop := ∀ s t : State, Inv s → step s = .next t → Inv t

/-- Only CONFIGURE writes `CFG`, the GPIO numbers and `CONFIGURED`, and only a system reset undoes them
(10_state.md R11, R16). -/
def Obligations.OnlyConfigureWritesConfiguration : Prop :=
  ∀ s t : State, NoReset s → step s = .next t →
    (s.configured = true → t.configured = true)
    ∧ ((s.busy = false →
          ∀ w rest sda scl speed, s.env.host = .command w :: rest → decode w ≠ .ok (.configure sda scl speed)) →
        t.cfg = s.cfg ∧ t.gpioSda = s.gpioSda ∧ t.gpioScl = s.gpioScl)

/-- `DELAY` is written by CONFIGURE and START and by nothing else, a system reset apart (10_state.md R12). -/
def Obligations.OnlyConfigureAndStartWriteDelay : Prop :=
  ∀ s t : State, NoReset s → step s = .next t →
    (s.busy = false → ∀ w rest, s.env.host = .command w :: rest →
      decode w ≠ .ok .start ∧ ∀ sda scl speed, decode w ≠ .ok (.configure sda scl speed)) →
    t.delay = s.delay

/-- No step takes back an event, or changes the pin table or the pulse order (20_memory.md R40, R37). -/
def Obligations.StepsOnlyAddEvents : Prop :=
  ∀ s t : State, step s = .next t →
    RecordsGrow s t ∧ t.env.pinMap = s.env.pinMap ∧ t.env.pulseOrder = s.env.pulseOrder

/-- The first CONFIGURE reads nothing that reset leaves unspecified (41_bus_init_and_configure.md R89 (a)): two states
that differ only there are refused alike, or reach states that differ only in working registers not yet written
and, until completion, in the response. `DRV` is (1,1) before the first CONFIGURE (Inv.released). -/
def Obligations.FirstConfigureIgnoresUnspecified : Prop :=
  ∀ (s s' : State) (sda scl : PinId) (speed : Speed),
    s.busy = false → s.configured = false → s.drv = ⟨true, true⟩ →
    s' = { s with
      cfg := s'.cfg, gpioSda := s'.gpioSda, gpioScl := s'.gpioScl, delay := s'.delay, ls := s'.ls, resp := s'.resp
      shreg := s'.shreg, bitcnt := s'.bitcnt, pulsecnt := s'.pulsecnt, t0 := s'.t0, raw := s'.raw } →
    (∀ r, exec (.configure sda scl speed) s = .refused r → exec (.configure sda scl speed) s' = .refused r)
    ∧ ∀ t, exec (.configure sda scl speed) s = .next t →
        ∃ t', exec (.configure sda scl speed) s' = .next t'
          ∧ t' = { t with
              resp := t'.resp, shreg := t'.shreg, bitcnt := t'.bitcnt, pulsecnt := t'.pulsecnt, t0 := t'.t0
              raw := t'.raw }
          ∧ (t.busy = false → t'.resp = t.resp)
          ∧ (t.upc.phase = .waitPoll → t'.t0 = t.t0)

/-- No step drives a pair that changes SDA as SCL rises, whether it takes a command or goes on with one that waits
(70_reset_and_hazards.md R158). -/
def Obligations.SdaSteadyAsSclRises : Prop :=
  ∀ s t : State, Inv s → step s = .next t → SteadyRises (s.drv :: drivenBetween s t)

/-- With nothing else on the bus, a START shows a device, by the time it is over: a START; after SDA low with SCL high, a
STOP and then a START (42_start_stop.md R100). -/
def Obligations.StartOnTheBus : Prop :=
  ∀ s t : State, s.drv = s.ls → s.gpioSda ≠ s.gpioScl → s.env.Quiet s.gpioSda → s.env.Quiet s.gpioScl →
    Completes .start s t → deviceView s t = if s.ls = ⟨false, true⟩ then [.stop, .start] else [.start]

/-- With nothing else on the bus, a STOP shows a device, by the time it is over: a STOP; from (1,1), a START and then a
STOP (42_start_stop.md R102). -/
def Obligations.StopOnTheBus : Prop :=
  ∀ s t : State, s.drv = s.ls → s.gpioSda ≠ s.gpioScl → s.env.Quiet s.gpioSda → s.env.Quiet s.gpioScl →
    Completes .stop s t → deviceView s t = if s.ls = ⟨true, true⟩ then [.start, .stop] else [.stop]

/-- With nothing else on the bus, a CONFIGURE shows a device, by the time it is over, 28 bits of 1 and a STOP, and no
START; with the other pulse order, 27 bits of 1, a START and a STOP (41_bus_init_and_configure.md R86 (d)). -/
def Obligations.InitOnTheBus : Prop :=
  ∀ (s t : State) (sda scl : PinId) (speed : Speed) (gSda gScl : Nat), s.drv = ⟨true, true⟩ →
    pinMap sda s = some gSda → pinMap scl s = some gScl → s.env.Quiet gSda → s.env.Quiet gScl →
    Completes (.configure sda scl speed) s t →
    deviceView s t = match s.env.pulseOrder with
      | .highThenLow => List.replicate 28 (.bit true) ++ [.stop]
      | .lowThenHigh => List.replicate 27 (.bit true) ++ [.start, .stop]

/-- With nothing else on the bus, a WRITE_BYTE has transferred, by the time it is over, its bits 7 to 1, in that order,
and nothing else; the eighth high phase is open, with SDA at bit 0 (44_byte_transfer.md R121 (a)). -/
def Obligations.WriteByteOnTheBus : Prop :=
  ∀ (s t : State) (b : Byte), s.drv = s.ls → s.gpioSda ≠ s.gpioScl → s.env.Quiet s.gpioSda → s.env.Quiet s.gpioScl →
    Completes (.writeByte b) s t →
    deviceView s t = [7, 6, 5, 4, 3, 2, 1].map (fun i => .bit (b.getLsbD i)) ∧ t.line = ⟨b.getLsbD 0, true⟩

/-- Each command makes the number of `set_lines` calls the timing table gives (70_reset_and_hazards.md R165,
41_bus_init_and_configure.md R86 (b)). -/
def Obligations.CallCountsOfTheTimingTable : Prop :=
  ∀ order : PulseOrder,
    callCount (bodyOf .configure order) = 62 ∧ callCount (bodyOf .start order) = 3
    ∧ callCount (bodyOf .stop order) = 3 ∧ callCount (bodyOf .writeByte order) = 16
    ∧ callCount (bodyOf .readByte order) = 17 ∧ callCount (bodyOf .sendAck order) = 5
    ∧ callCount (bodyOf .sendNack order) = 5 ∧ callCount (bodyOf .checkAck order) = 3
    ∧ callCount (bodyOf .getSdaPin order) = 0 ∧ callCount (bodyOf .getSclPin order) = 0
end

