-- ==== Sys2Proof/Laws/State.lean ====
section
/-! SUPPORT. What each small update of the state and of its environment leaves alone and what it writes: one lemma per
update, a field at a time. -/

namespace Sys2Proof.Machine

/-! ## The environment -/

/-- The environment's changes before an event move the pins only. -/
@[simp] theorem settle_fields (e : Env) :
    e.settle.heldLow = e.nextMoves.getLast?.getD e.heldLow
      ∧ e.settle.moves = e.moves.tail
      ∧ e.settle.cycles = e.cycles
      ∧ e.settle.ticks = e.ticks
      ∧ e.settle.pace = e.pace
      ∧ e.settle.cpuFreq = e.cpuFreq
      ∧ e.settle.freqs = e.freqs
      ∧ e.settle.pinMap = e.pinMap
      ∧ e.settle.pulseOrder = e.pulseOrder
      ∧ e.settle.intEnabled = e.intEnabled
      ∧ e.settle.openDrain = e.openDrain
      ∧ e.settle.host = e.host :=
  ⟨rfl, rfl, rfl, rfl, rfl, rfl, rfl, rfl, rfl, rfl, rfl, rfl⟩

/-- The counter's advance moves the count only. -/
@[simp] theorem advance_fields (e : Env) :
    e.advance.heldLow = e.heldLow
      ∧ e.advance.moves = e.moves
      ∧ e.advance.cycles = e.cycles + e.ticks.headD e.pace
      ∧ e.advance.ticks = e.ticks.tail
      ∧ e.advance.pace = e.pace
      ∧ e.advance.cpuFreq = e.cpuFreq
      ∧ e.advance.freqs = e.freqs
      ∧ e.advance.pinMap = e.pinMap
      ∧ e.advance.pulseOrder = e.pulseOrder
      ∧ e.advance.intEnabled = e.intEnabled
      ∧ e.advance.openDrain = e.openDrain
      ∧ e.advance.host = e.host :=
  ⟨rfl, rfl, rfl, rfl, rfl, rfl, rfl, rfl, rfl, rfl, rfl, rfl⟩

/-- A change of the CPU frequency moves the frequency only. -/
@[simp] theorem nextFreq_fields (e : Env) :
    e.nextFreq.heldLow = e.heldLow
      ∧ e.nextFreq.moves = e.moves
      ∧ e.nextFreq.cycles = e.cycles
      ∧ e.nextFreq.ticks = e.ticks
      ∧ e.nextFreq.pace = e.pace
      ∧ e.nextFreq.cpuFreq = e.freqs.headD e.cpuFreq
      ∧ e.nextFreq.freqs = e.freqs.tail
      ∧ e.nextFreq.pinMap = e.pinMap
      ∧ e.nextFreq.pulseOrder = e.pulseOrder
      ∧ e.nextFreq.intEnabled = e.intEnabled
      ∧ e.nextFreq.openDrain = e.openDrain
      ∧ e.nextFreq.host = e.host :=
  ⟨rfl, rfl, rfl, rfl, rfl, rfl, rfl, rfl, rfl, rfl, rfl, rfl⟩

@[simp] theorem heldAfter_zero (e : Env) : e.heldAfter 0 = e.heldLow := rfl

/-- The last of two lists one after the other. -/
theorem getLast_append_getD {α : Type} (xs ys : List α) (d : α) :
    (xs ++ ys).getLast?.getD d = ys.getLast?.getD (xs.getLast?.getD d) := by
  rw [List.getLast?_append]
  cases ys.getLast? <;> simp

/-- What the environment holds low after `m` and then `n` events. -/
theorem heldAfter_add (e : Env) (m n : Nat) :
    e.heldAfter (m + n) = ((e.moves.drop m).take n).flatten.getLast?.getD (e.heldAfter m) := by
  rw [Env.heldAfter, List.take_add, List.flatten_append, getLast_append_getD]
  rfl

/-- The changes before the next event are the first of the changes to come. -/
theorem settle_heldLow (e : Env) : e.settle.heldLow = e.heldAfter 1 := by
  rw [(settle_fields e).1, Env.nextMoves, Env.heldAfter]
  cases e.moves <;> simp

/-! ## The records -/

/-- Recording an event writes the history only. -/
@[simp] theorem log_fields (e : Event) (s : State) :
    (s.log e).cfg = s.cfg
      ∧ (s.log e).gpioSda = s.gpioSda
      ∧ (s.log e).gpioScl = s.gpioScl
      ∧ (s.log e).delay = s.delay
      ∧ (s.log e).ls = s.ls
      ∧ (s.log e).drv = s.drv
      ∧ (s.log e).configured = s.configured
      ∧ (s.log e).busy = s.busy
      ∧ (s.log e).upc = s.upc
      ∧ (s.log e).resp = s.resp
      ∧ (s.log e).shreg = s.shreg
      ∧ (s.log e).bitcnt = s.bitcnt
      ∧ (s.log e).pulsecnt = s.pulsecnt
      ∧ (s.log e).t0 = s.t0
      ∧ (s.log e).raw = s.raw
      ∧ (s.log e).env = s.env
      ∧ (s.log e).hist = s.hist ++ [e]
      ∧ (s.log e).bus = s.bus :=
  ⟨rfl, rfl, rfl, rfl, rfl, rfl, rfl, rfl, rfl, rfl, rfl, rfl, rfl, rfl, rfl, rfl, rfl, rfl⟩

/-- Entering a phase writes the sequencing position only. -/
@[simp] theorem enter_fields (ph : Phase) (s : State) :
    (s.enter ph).cfg = s.cfg
      ∧ (s.enter ph).gpioSda = s.gpioSda
      ∧ (s.enter ph).gpioScl = s.gpioScl
      ∧ (s.enter ph).delay = s.delay
      ∧ (s.enter ph).ls = s.ls
      ∧ (s.enter ph).drv = s.drv
      ∧ (s.enter ph).configured = s.configured
      ∧ (s.enter ph).busy = s.busy
      ∧ (s.enter ph).upc = ⟨s.upc.cmd, s.upc.calls, ph⟩
      ∧ (s.enter ph).resp = s.resp
      ∧ (s.enter ph).shreg = s.shreg
      ∧ (s.enter ph).bitcnt = s.bitcnt
      ∧ (s.enter ph).pulsecnt = s.pulsecnt
      ∧ (s.enter ph).t0 = s.t0
      ∧ (s.enter ph).raw = s.raw
      ∧ (s.enter ph).env = s.env
      ∧ (s.enter ph).hist = s.hist
      ∧ (s.enter ph).bus = s.bus :=
  ⟨rfl, rfl, rfl, rfl, rfl, rfl, rfl, rfl, rfl, rfl, rfl, rfl, rfl, rfl, rfl, rfl, rfl, rfl⟩

/-- Recording the low pins writes their record only. -/
@[simp] theorem recordPins_fields (s : State) :
    (s.recordPins).cfg = s.cfg
      ∧ (s.recordPins).gpioSda = s.gpioSda
      ∧ (s.recordPins).gpioScl = s.gpioScl
      ∧ (s.recordPins).delay = s.delay
      ∧ (s.recordPins).ls = s.ls
      ∧ (s.recordPins).drv = s.drv
      ∧ (s.recordPins).configured = s.configured
      ∧ (s.recordPins).busy = s.busy
      ∧ (s.recordPins).upc = s.upc
      ∧ (s.recordPins).resp = s.resp
      ∧ (s.recordPins).shreg = s.shreg
      ∧ (s.recordPins).bitcnt = s.bitcnt
      ∧ (s.recordPins).pulsecnt = s.pulsecnt
      ∧ (s.recordPins).t0 = s.t0
      ∧ (s.recordPins).raw = s.raw
      ∧ (s.recordPins).env = s.env
      ∧ (s.recordPins).hist = s.hist
      ∧ (s.recordPins).bus = s.bus ++ [s.lowPins s.env.heldLow] :=
  ⟨rfl, rfl, rfl, rfl, rfl, rfl, rfl, rfl, rfl, rfl, rfl, rfl, rfl, rfl, rfl, rfl, rfl, rfl⟩

/-- The environment's changes before an event are recorded and change no state of the block. -/
@[simp] theorem interleave_fields (s : State) :
    (interleave s).cfg = s.cfg
      ∧ (interleave s).gpioSda = s.gpioSda
      ∧ (interleave s).gpioScl = s.gpioScl
      ∧ (interleave s).delay = s.delay
      ∧ (interleave s).ls = s.ls
      ∧ (interleave s).drv = s.drv
      ∧ (interleave s).configured = s.configured
      ∧ (interleave s).busy = s.busy
      ∧ (interleave s).upc = s.upc
      ∧ (interleave s).resp = s.resp
      ∧ (interleave s).shreg = s.shreg
      ∧ (interleave s).bitcnt = s.bitcnt
      ∧ (interleave s).pulsecnt = s.pulsecnt
      ∧ (interleave s).t0 = s.t0
      ∧ (interleave s).raw = s.raw
      ∧ (interleave s).env = s.env.settle
      ∧ (interleave s).hist = s.hist
      ∧ (interleave s).bus = s.bus ++ s.env.nextMoves.map s.lowPins :=
  ⟨rfl, rfl, rfl, rfl, rfl, rfl, rfl, rfl, rfl, rfl, rfl, rfl, rfl, rfl, rfl, rfl, rfl, rfl⟩

/-! ## The primitives -/

/-- `LinesWrite` writes the output latch, as one pair, and the records. -/
@[simp] theorem linesWrite_fields (l : Lines) (s : State) :
    (linesWrite l s).cfg = s.cfg
      ∧ (linesWrite l s).gpioSda = s.gpioSda
      ∧ (linesWrite l s).gpioScl = s.gpioScl
      ∧ (linesWrite l s).delay = s.delay
      ∧ (linesWrite l s).ls = s.ls
      ∧ (linesWrite l s).drv = l
      ∧ (linesWrite l s).configured = s.configured
      ∧ (linesWrite l s).busy = s.busy
      ∧ (linesWrite l s).upc = s.upc
      ∧ (linesWrite l s).resp = s.resp
      ∧ (linesWrite l s).shreg = s.shreg
      ∧ (linesWrite l s).bitcnt = s.bitcnt
      ∧ (linesWrite l s).pulsecnt = s.pulsecnt
      ∧ (linesWrite l s).t0 = s.t0
      ∧ (linesWrite l s).raw = s.raw
      ∧ (linesWrite l s).env = s.env.settle
      ∧ (linesWrite l s).hist = s.hist ++ [.drv l]
      ∧ (linesWrite l s).bus = s.bus ++ s.env.nextMoves.map s.lowPins ++ [(linesWrite l s).lowPins s.env.settle.heldLow] :=
  ⟨rfl, rfl, rfl, rfl, rfl, rfl, rfl, rfl, rfl, rfl, rfl, rfl, rfl, rfl, rfl, rfl, rfl, rfl⟩

/-- `PinRead(SDA)` changes no state of the block. -/
@[simp] theorem pinReadSda_fields (s : State) :
    ((pinReadSda s).2).cfg = s.cfg
      ∧ ((pinReadSda s).2).gpioSda = s.gpioSda
      ∧ ((pinReadSda s).2).gpioScl = s.gpioScl
      ∧ ((pinReadSda s).2).delay = s.delay
      ∧ ((pinReadSda s).2).ls = s.ls
      ∧ ((pinReadSda s).2).drv = s.drv
      ∧ ((pinReadSda s).2).configured = s.configured
      ∧ ((pinReadSda s).2).busy = s.busy
      ∧ ((pinReadSda s).2).upc = s.upc
      ∧ ((pinReadSda s).2).resp = s.resp
      ∧ ((pinReadSda s).2).shreg = s.shreg
      ∧ ((pinReadSda s).2).bitcnt = s.bitcnt
      ∧ ((pinReadSda s).2).pulsecnt = s.pulsecnt
      ∧ ((pinReadSda s).2).t0 = s.t0
      ∧ ((pinReadSda s).2).raw = s.raw
      ∧ ((pinReadSda s).2).env = s.env.settle
      ∧ ((pinReadSda s).2).hist = s.hist ++ [.rsda (pinReadSda s).1]
      ∧ ((pinReadSda s).2).bus = s.bus ++ s.env.nextMoves.map s.lowPins :=
  ⟨rfl, rfl, rfl, rfl, rfl, rfl, rfl, rfl, rfl, rfl, rfl, rfl, rfl, rfl, rfl, rfl, rfl, rfl⟩

/-- `PinRead(SCL)` changes no state of the block. -/
@[simp] theorem pinReadScl_fields (s : State) :
    ((pinReadScl s).2).cfg = s.cfg
      ∧ ((pinReadScl s).2).gpioSda = s.gpioSda
      ∧ ((pinReadScl s).2).gpioScl = s.gpioScl
      ∧ ((pinReadScl s).2).delay = s.delay
      ∧ ((pinReadScl s).2).ls = s.ls
      ∧ ((pinReadScl s).2).drv = s.drv
      ∧ ((pinReadScl s).2).configured = s.configured
      ∧ ((pinReadScl s).2).busy = s.busy
      ∧ ((pinReadScl s).2).upc = s.upc
      ∧ ((pinReadScl s).2).resp = s.resp
      ∧ ((pinReadScl s).2).shreg = s.shreg
      ∧ ((pinReadScl s).2).bitcnt = s.bitcnt
      ∧ ((pinReadScl s).2).pulsecnt = s.pulsecnt
      ∧ ((pinReadScl s).2).t0 = s.t0
      ∧ ((pinReadScl s).2).raw = s.raw
      ∧ ((pinReadScl s).2).env = s.env.settle
      ∧ ((pinReadScl s).2).hist = s.hist ++ [.rscl (pinReadScl s).1]
      ∧ ((pinReadScl s).2).bus = s.bus ++ s.env.nextMoves.map s.lowPins :=
  ⟨rfl, rfl, rfl, rfl, rfl, rfl, rfl, rfl, rfl, rfl, rfl, rfl, rfl, rfl, rfl, rfl, rfl, rfl⟩

/-- `CycleRead` changes no state of the block. -/
@[simp] theorem cycleRead_fields (s : State) :
    ((cycleRead s).2).cfg = s.cfg
      ∧ ((cycleRead s).2).gpioSda = s.gpioSda
      ∧ ((cycleRead s).2).gpioScl = s.gpioScl
      ∧ ((cycleRead s).2).delay = s.delay
      ∧ ((cycleRead s).2).ls = s.ls
      ∧ ((cycleRead s).2).drv = s.drv
      ∧ ((cycleRead s).2).configured = s.configured
      ∧ ((cycleRead s).2).busy = s.busy
      ∧ ((cycleRead s).2).upc = s.upc
      ∧ ((cycleRead s).2).resp = s.resp
      ∧ ((cycleRead s).2).shreg = s.shreg
      ∧ ((cycleRead s).2).bitcnt = s.bitcnt
      ∧ ((cycleRead s).2).pulsecnt = s.pulsecnt
      ∧ ((cycleRead s).2).t0 = s.t0
      ∧ ((cycleRead s).2).raw = s.raw
      ∧ ((cycleRead s).2).env = s.env.settle.advance
      ∧ ((cycleRead s).2).hist = s.hist ++ [.cyc (cycleRead s).1]
      ∧ ((cycleRead s).2).bus = s.bus ++ s.env.nextMoves.map s.lowPins :=
  ⟨rfl, rfl, rfl, rfl, rfl, rfl, rfl, rfl, rfl, rfl, rfl, rfl, rfl, rfl, rfl, rfl, rfl, rfl⟩

/-- `CpuFreqRead` changes no state of the block. -/
@[simp] theorem cpuFreqRead_fields (s : State) :
    ((cpuFreqRead s).2).cfg = s.cfg
      ∧ ((cpuFreqRead s).2).gpioSda = s.gpioSda
      ∧ ((cpuFreqRead s).2).gpioScl = s.gpioScl
      ∧ ((cpuFreqRead s).2).delay = s.delay
      ∧ ((cpuFreqRead s).2).ls = s.ls
      ∧ ((cpuFreqRead s).2).drv = s.drv
      ∧ ((cpuFreqRead s).2).configured = s.configured
      ∧ ((cpuFreqRead s).2).busy = s.busy
      ∧ ((cpuFreqRead s).2).upc = s.upc
      ∧ ((cpuFreqRead s).2).resp = s.resp
      ∧ ((cpuFreqRead s).2).shreg = s.shreg
      ∧ ((cpuFreqRead s).2).bitcnt = s.bitcnt
      ∧ ((cpuFreqRead s).2).pulsecnt = s.pulsecnt
      ∧ ((cpuFreqRead s).2).t0 = s.t0
      ∧ ((cpuFreqRead s).2).raw = s.raw
      ∧ ((cpuFreqRead s).2).env = s.env.settle.nextFreq
      ∧ ((cpuFreqRead s).2).hist = s.hist ++ [.freq s.env.nextFreq.cpuFreq]
      ∧ ((cpuFreqRead s).2).bus = s.bus ++ s.env.nextMoves.map s.lowPins :=
  ⟨rfl, rfl, rfl, rfl, rfl, rfl, rfl, rfl, rfl, rfl, rfl, rfl, rfl, rfl, rfl, rfl, rfl, rfl⟩

/-! ## The sequencer -/

/-- Step 2 of `set_lines` writes `LS`, the phase and the records. -/
@[simp] theorem recordLines_fields (l : Lines) (s : State) :
    (recordLines l s).cfg = s.cfg
      ∧ (recordLines l s).gpioSda = s.gpioSda
      ∧ (recordLines l s).gpioScl = s.gpioScl
      ∧ (recordLines l s).delay = s.delay
      ∧ (recordLines l s).ls = l
      ∧ (recordLines l s).drv = s.drv
      ∧ (recordLines l s).configured = s.configured
      ∧ (recordLines l s).busy = s.busy
      ∧ (recordLines l s).upc = ⟨s.upc.cmd, s.upc.calls, .record⟩
      ∧ (recordLines l s).resp = s.resp
      ∧ (recordLines l s).shreg = s.shreg
      ∧ (recordLines l s).bitcnt = s.bitcnt
      ∧ (recordLines l s).pulsecnt = s.pulsecnt
      ∧ (recordLines l s).t0 = s.t0
      ∧ (recordLines l s).raw = s.raw
      ∧ (recordLines l s).env = s.env.settle
      ∧ (recordLines l s).hist = s.hist ++ [.recorded l]
      ∧ (recordLines l s).bus = s.bus ++ s.env.nextMoves.map s.lowPins :=
  ⟨rfl, rfl, rfl, rfl, rfl, rfl, rfl, rfl, rfl, rfl, rfl, rfl, rfl, rfl, rfl, rfl, rfl, rfl⟩

/-- Arming the delay wait writes `T0`, the phase and the records. -/
@[simp] theorem armDelay_fields (s : State) :
    (armDelay s).cfg = s.cfg
      ∧ (armDelay s).gpioSda = s.gpioSda
      ∧ (armDelay s).gpioScl = s.gpioScl
      ∧ (armDelay s).delay = s.delay
      ∧ (armDelay s).ls = s.ls
      ∧ (armDelay s).drv = s.drv
      ∧ (armDelay s).configured = s.configured
      ∧ (armDelay s).busy = s.busy
      ∧ (armDelay s).upc = ⟨s.upc.cmd, s.upc.calls, .waitArm⟩
      ∧ (armDelay s).resp = s.resp
      ∧ (armDelay s).shreg = s.shreg
      ∧ (armDelay s).bitcnt = s.bitcnt
      ∧ (armDelay s).pulsecnt = s.pulsecnt
      ∧ (armDelay s).t0 = counterValue s.env.advance.cycles
      ∧ (armDelay s).raw = s.raw
      ∧ (armDelay s).env = s.env.settle.advance
      ∧ (armDelay s).hist = s.hist ++ [.cyc (counterValue s.env.advance.cycles)]
      ∧ (armDelay s).bus = s.bus ++ s.env.nextMoves.map s.lowPins :=
  ⟨rfl, rfl, rfl, rfl, rfl, rfl, rfl, rfl, rfl, rfl, rfl, rfl, rfl, rfl, rfl, rfl, rfl, rfl⟩

/-- The sample of CHECK_ACK writes `RAW`, the phase and the records. -/
@[simp] theorem sampleRaw_fields (s : State) :
    (sampleRaw s).cfg = s.cfg
      ∧ (sampleRaw s).gpioSda = s.gpioSda
      ∧ (sampleRaw s).gpioScl = s.gpioScl
      ∧ (sampleRaw s).delay = s.delay
      ∧ (sampleRaw s).ls = s.ls
      ∧ (sampleRaw s).drv = s.drv
      ∧ (sampleRaw s).configured = s.configured
      ∧ (sampleRaw s).busy = s.busy
      ∧ (sampleRaw s).upc = ⟨s.upc.cmd, s.upc.calls, .sample⟩
      ∧ (sampleRaw s).resp = s.resp
      ∧ (sampleRaw s).shreg = s.shreg
      ∧ (sampleRaw s).bitcnt = s.bitcnt
      ∧ (sampleRaw s).pulsecnt = s.pulsecnt
      ∧ (sampleRaw s).t0 = s.t0
      ∧ (sampleRaw s).raw = (pinReadSda s).1
      ∧ (sampleRaw s).env = s.env.settle
      ∧ (sampleRaw s).hist = s.hist ++ [.rsda (pinReadSda s).1]
      ∧ (sampleRaw s).bus = s.bus ++ s.env.nextMoves.map s.lowPins :=
  ⟨rfl, rfl, rfl, rfl, rfl, rfl, rfl, rfl, rfl, rfl, rfl, rfl, rfl, rfl, rfl, rfl, rfl, rfl⟩

/-- A sample of READ_BYTE writes `SHREG`, the phase and the records. -/
@[simp] theorem sampleBit_fields (s : State) :
    (sampleBit s).cfg = s.cfg
      ∧ (sampleBit s).gpioSda = s.gpioSda
      ∧ (sampleBit s).gpioScl = s.gpioScl
      ∧ (sampleBit s).delay = s.delay
      ∧ (sampleBit s).ls = s.ls
      ∧ (sampleBit s).drv = s.drv
      ∧ (sampleBit s).configured = s.configured
      ∧ (sampleBit s).busy = s.busy
      ∧ (sampleBit s).upc = ⟨s.upc.cmd, s.upc.calls, .sample⟩
      ∧ (sampleBit s).resp = s.resp
      ∧ (sampleBit s).shreg = shiftIn s.shreg s.bitcnt (pinReadSda s).1
      ∧ (sampleBit s).bitcnt = s.bitcnt
      ∧ (sampleBit s).pulsecnt = s.pulsecnt
      ∧ (sampleBit s).t0 = s.t0
      ∧ (sampleBit s).raw = s.raw
      ∧ (sampleBit s).env = s.env.settle
      ∧ (sampleBit s).hist = s.hist ++ [.rsda (pinReadSda s).1]
      ∧ (sampleBit s).bus = s.bus ++ s.env.nextMoves.map s.lowPins :=
  ⟨rfl, rfl, rfl, rfl, rfl, rfl, rfl, rfl, rfl, rfl, rfl, rfl, rfl, rfl, rfl, rfl, rfl, rfl⟩

/-- A completed call is counted. -/
@[simp] theorem callDone_fields (s : State) :
    (callDone s).cfg = s.cfg
      ∧ (callDone s).gpioSda = s.gpioSda
      ∧ (callDone s).gpioScl = s.gpioScl
      ∧ (callDone s).delay = s.delay
      ∧ (callDone s).ls = s.ls
      ∧ (callDone s).drv = s.drv
      ∧ (callDone s).configured = s.configured
      ∧ (callDone s).busy = s.busy
      ∧ (callDone s).upc = ⟨s.upc.cmd, s.upc.calls + 1, s.upc.phase⟩
      ∧ (callDone s).resp = s.resp
      ∧ (callDone s).shreg = s.shreg
      ∧ (callDone s).bitcnt = s.bitcnt
      ∧ (callDone s).pulsecnt = s.pulsecnt
      ∧ (callDone s).t0 = s.t0
      ∧ (callDone s).raw = s.raw
      ∧ (callDone s).env = s.env
      ∧ (callDone s).hist = s.hist
      ∧ (callDone s).bus = s.bus :=
  ⟨rfl, rfl, rfl, rfl, rfl, rfl, rfl, rfl, rfl, rfl, rfl, rfl, rfl, rfl, rfl, rfl, rfl, rfl⟩

/-- Acceptance writes `BUSY` and `UPC` (30_encoding.md R59). -/
@[simp] theorem accept_fields (cmd : Command) (ph : Phase) (s : State) :
    (accept cmd ph s).cfg = s.cfg
      ∧ (accept cmd ph s).gpioSda = s.gpioSda
      ∧ (accept cmd ph s).gpioScl = s.gpioScl
      ∧ (accept cmd ph s).delay = s.delay
      ∧ (accept cmd ph s).ls = s.ls
      ∧ (accept cmd ph s).drv = s.drv
      ∧ (accept cmd ph s).configured = s.configured
      ∧ (accept cmd ph s).busy = true
      ∧ (accept cmd ph s).upc = ⟨some cmd, 0, ph⟩
      ∧ (accept cmd ph s).resp = s.resp
      ∧ (accept cmd ph s).shreg = s.shreg
      ∧ (accept cmd ph s).bitcnt = s.bitcnt
      ∧ (accept cmd ph s).pulsecnt = s.pulsecnt
      ∧ (accept cmd ph s).t0 = s.t0
      ∧ (accept cmd ph s).raw = s.raw
      ∧ (accept cmd ph s).env = s.env
      ∧ (accept cmd ph s).hist = s.hist
      ∧ (accept cmd ph s).bus = s.bus :=
  ⟨rfl, rfl, rfl, rfl, rfl, rfl, rfl, rfl, rfl, rfl, rfl, rfl, rfl, rfl, rfl, rfl, rfl, rfl⟩

/-- Completion writes `RESP`, `CONFIGURED`, `UPC` and `BUSY` (30_encoding.md R59). -/
@[simp] theorem complete_fields (s : State) :
    (complete s).cfg = s.cfg
      ∧ (complete s).gpioSda = s.gpioSda
      ∧ (complete s).gpioScl = s.gpioScl
      ∧ (complete s).delay = s.delay
      ∧ (complete s).ls = s.ls
      ∧ (complete s).drv = s.drv
      ∧ (complete s).configured = configuredAfter s.upc.cmd s.configured
      ∧ (complete s).busy = false
      ∧ (complete s).upc = ⟨none, 0, .idle⟩
      ∧ (complete s).resp = responseOf s.upc.cmd s
      ∧ (complete s).shreg = s.shreg
      ∧ (complete s).bitcnt = s.bitcnt
      ∧ (complete s).pulsecnt = s.pulsecnt
      ∧ (complete s).t0 = s.t0
      ∧ (complete s).raw = s.raw
      ∧ (complete s).env = s.env
      ∧ (complete s).hist = s.hist
      ∧ (complete s).bus = s.bus :=
  ⟨rfl, rfl, rfl, rfl, rfl, rfl, rfl, rfl, rfl, rfl, rfl, rfl, rfl, rfl, rfl, rfl, rfl, rfl⟩

/-! ## Values read -/

/-- `PinRead(SDA)` answers the wired AND of `DRV` and what holds the selected pin (20_memory.md R33, R38). -/
@[simp] theorem pinReadSda_value (s : State) :
    (pinReadSda s).1 = (s.drv.sda && levelOf s.gpioSda s.env.settle.heldLow) := rfl

/-- `PinRead(SCL)` answers the wired AND of `DRV` and what holds the selected pin. -/
@[simp] theorem pinReadScl_value (s : State) :
    (pinReadScl s).1 = (s.drv.scl && levelOf s.gpioScl s.env.settle.heldLow) := rfl

@[simp] theorem cycleRead_value (s : State) : (cycleRead s).1 = counterValue s.env.advance.cycles := rfl

@[simp] theorem cpuFreqRead_value (s : State) : (cpuFreqRead s).1 = s.env.nextFreq.cpuFreq := rfl

/-- A GPIO is high exactly where it is not held low. -/
@[simp] theorem levelOf_eq_true (g : Nat) (low : List Nat) : levelOf g low = true ↔ g ∉ low := by simp [levelOf]

@[simp] theorem levelOf_eq_false (g : Nat) (low : List Nat) : levelOf g low = false ↔ g ∈ low := by simp [levelOf]

end Sys2Proof.Machine
end

