-- ==== Sys2Proof/Laws/Ops.lean ====
section
/-! SUPPORT. What each shared operation can do, said once: the polls, `set_lines` and its continuation after a wait.
Later proofs cite these and do not unfold the operations. -/

namespace Sys2Proof.Machine

/-! ## The environment and the records -/

/-- From `s` to `t` events were recorded, one after another, the environment's changes before each of them
(20_memory.md R39, R40). -/
structure Moved (s t : State) : Prop where
  hist : s.hist <+: t.hist
  heldLow : t.env.heldLow = s.env.heldAfter (t.hist.length - s.hist.length)
  moves : t.env.moves = s.env.moves.drop (t.hist.length - s.hist.length)
  ticks : t.env.ticks <:+ s.env.ticks
  cycles : s.env.cycles ≤ t.env.cycles
  bus : s.bus <+: t.bus

theorem Moved.refl (s : State) : Moved s s :=
  ⟨List.prefix_refl _, by rw [Nat.sub_self]; rfl, by rw [Nat.sub_self]; rfl, List.suffix_refl _, le_refl _,
    List.prefix_refl _⟩

theorem Moved.trans {s u v : State} (h : Moved s u) (k : Moved u v) : Moved s v := by
  have h1 := h.hist.length_le
  have h2 := k.hist.length_le
  have e : v.hist.length - s.hist.length = (u.hist.length - s.hist.length) + (v.hist.length - u.hist.length) := by omega
  refine ⟨h.hist.trans k.hist, ?_, ?_, k.ticks.trans h.ticks, h.cycles.trans k.cycles, h.bus.trans k.bus⟩
  · rw [e, heldAfter_add, ← h.heldLow, ← h.moves]; exact k.heldLow
  · rw [e, ← List.drop_drop, ← h.moves]; exact k.moves

/-- One event, with the environment's changes before it. -/
theorem Moved.event {s t : State} {e : Event} (hh : t.hist = s.hist ++ [e]) (hl : t.env.heldLow = s.env.settle.heldLow)
    (hm : t.env.moves = s.env.settle.moves) (ht : t.env.ticks <:+ s.env.ticks) (hc : s.env.cycles ≤ t.env.cycles)
    (hb : s.bus <+: t.bus) : Moved s t := by
  have n : t.hist.length - s.hist.length = 1 := by simp [hh]
  refine ⟨by rw [hh]; exact List.prefix_append _ _, ?_, ?_, ht, hc, hb⟩
  · rw [n, hl, settle_heldLow]
  · rw [n, hm]; simp

/-- Nothing recorded, and the environment left alone. -/
theorem Moved.same {s t : State} (hh : t.hist = s.hist) (he : t.env = s.env) (hb : t.bus = s.bus) : Moved s t := by
  refine ⟨by rw [hh], ?_, ?_, by rw [he], by rw [he], by rw [hb]⟩
  · rw [hh, Nat.sub_self, he]; rfl
  · rw [hh, Nat.sub_self, he]; rfl

/-! ## What a call may change -/

/-- What a `set_lines` call may change besides `LS`, `DRV` and its phase: `T0`, the pins and the counter of the
environment, the records. -/
structure CallFrame (s t : State) : Prop where
  state : t = { s with
    ls := t.ls, drv := t.drv, t0 := t.t0, upc := ⟨s.upc.cmd, s.upc.calls, t.upc.phase⟩
    env := t.env, hist := t.hist, bus := t.bus }
  env : EnvMoved s t
  moved : Moved s t

theorem CallFrame.refl (s : State) : CallFrame s s := ⟨rfl, rfl, .refl s⟩

theorem EnvMoved.trans {s u v : State} (h : EnvMoved s u) (k : EnvMoved u v) : EnvMoved s v := by
  unfold EnvMoved at h k ⊢
  rw [k, h]

theorem CallFrame.trans {s u v : State} (h : CallFrame s u) (k : CallFrame u v) : CallFrame s v := by
  obtain ⟨hs, he, hm⟩ := h
  obtain ⟨ks, ke, km⟩ := k
  refine ⟨?_, he.trans ke, hm.trans km⟩
  rw [ks, hs]

/-- The fields a call leaves alone. -/
theorem CallFrame.fields {s t : State} (h : CallFrame s t) :
    t.cfg = s.cfg ∧ t.gpioSda = s.gpioSda ∧ t.gpioScl = s.gpioScl ∧ t.delay = s.delay ∧ t.configured = s.configured
      ∧ t.busy = s.busy ∧ t.upc.cmd = s.upc.cmd ∧ t.upc.calls = s.upc.calls ∧ t.resp = s.resp ∧ t.shreg = s.shreg
      ∧ t.bitcnt = s.bitcnt ∧ t.pulsecnt = s.pulsecnt ∧ t.raw = s.raw ∧ t.env.pace = s.env.pace := by
  have he := h.env
  unfold EnvMoved at he
  have hs := h.state
  refine ⟨?_, ?_, ?_, ?_, ?_, ?_, ?_, ?_, ?_, ?_, ?_, ?_, ?_, ?_⟩ <;> first | (rw [hs]; done) | rw [he]

theorem enter_frame (ph : Phase) (s : State) : CallFrame s (s.enter ph) := ⟨rfl, rfl, .same rfl rfl rfl⟩

theorem recordLines_frame (l : Lines) (s : State) : CallFrame s (recordLines l s) :=
  ⟨rfl, rfl, .event rfl rfl rfl (List.suffix_refl _) (le_refl _) (by simp)⟩

theorem linesWrite_frame (l : Lines) (s : State) : CallFrame s (linesWrite l s) :=
  ⟨rfl, rfl, .event rfl rfl rfl (List.suffix_refl _) (le_refl _) (by simp)⟩

theorem cycleRead_frame (s : State) : CallFrame s (cycleRead s).2 := 
  ⟨rfl, rfl, .event rfl rfl rfl (List.tail_suffix _) (Nat.le_add_right _ _) (by simp)⟩

theorem armDelay_frame (s : State) : CallFrame s (armDelay s) := 
  ⟨rfl, rfl, .event rfl rfl rfl (List.tail_suffix _) (Nat.le_add_right _ _) (by simp)⟩

theorem pinReadScl_frame (s : State) : CallFrame s (pinReadScl s).2 :=
  ⟨rfl, rfl, .event rfl rfl rfl (List.suffix_refl _) (le_refl _) (by simp)⟩

/-! ## The polls -/

/-- One turn of the delay wait: one `CycleRead`; the wait ends if the elapsed count has reached `DELAY`, and goes on in
the next step if not (40_timing_and_line_driver.md R73). -/
theorem pollDelay_spec (s : State) :
    (pollDelay s = .done (cycleRead s).2 ∧ delayElapsed s.delay s.t0 (cycleRead s).1 = true) ∨
    (pollDelay s = .waiting (cycleRead s).2 ∧ delayElapsed s.delay s.t0 (cycleRead s).1 = false) := by
  by_cases h : delayElapsed s.delay s.t0 (cycleRead s).1 = true
  · exact .inl ⟨by rw [pollDelay, repeatTurn, pollCounter, if_pos h], h⟩
  · exact .inr ⟨by rw [pollDelay, repeatTurn, pollCounter, if_neg h], by simpa using h⟩

/-- One turn of the stretch poll: one `PinRead(SCL)`; the call ends if it answers 1, and goes on in the next step if not
(40_timing_and_line_driver.md R74). -/
theorem pollStretch_spec (s : State) :
    (pollStretch s = .done (pinReadScl s).2 ∧ (pinReadScl s).1 = true) ∨
    (pollStretch s = .waiting (pinReadScl s).2 ∧ (pinReadScl s).1 = false) := by
  by_cases h : (pinReadScl s).1 = true
  · exact .inl ⟨by rw [pollStretch, repeatTurn, if_pos h], h⟩
  · exact .inr ⟨by rw [pollStretch, repeatTurn, if_neg h], by simpa using h⟩

/-! ## Events that are no calls -/

/-- Which events `Event.requested` reads. -/
@[simp] theorem requested_event :
    (∀ l : Lines, (Event.recorded l).requested = some l)
      ∧ (∀ t : Cycles, (Event.cyc t).requested = none)
      ∧ (∀ l : Lines, (Event.drv l).requested = none)
      ∧ (∀ v : Bit, (Event.rscl v).requested = none)
      ∧ (∀ v : Bit, (Event.rsda v).requested = none)
      ∧ (∀ f : Nat, (Event.freq f).requested = none)
      ∧ Event.ioff.requested = none
      ∧ Event.ion.requested = none
      ∧ (∀ g : Nat, (Event.mode g).requested = none)
      ∧ (∀ (i : PinId) (g : Nat), (Event.map i g).requested = none) :=
  ⟨fun _ => rfl, fun _ => rfl, fun _ => rfl, fun _ => rfl, fun _ => rfl, fun _ => rfl, rfl, rfl, fun _ => rfl, fun _ _ => rfl⟩

/-- Which events `Event.driven` reads. -/
@[simp] theorem driven_event :
    (∀ l : Lines, (Event.recorded l).driven = none)
      ∧ (∀ t : Cycles, (Event.cyc t).driven = none)
      ∧ (∀ l : Lines, (Event.drv l).driven = some l)
      ∧ (∀ v : Bit, (Event.rscl v).driven = none)
      ∧ (∀ v : Bit, (Event.rsda v).driven = none)
      ∧ (∀ f : Nat, (Event.freq f).driven = none)
      ∧ Event.ioff.driven = none
      ∧ Event.ion.driven = none
      ∧ (∀ g : Nat, (Event.mode g).driven = none)
      ∧ (∀ (i : PinId) (g : Nat), (Event.map i g).driven = none) :=
  ⟨fun _ => rfl, fun _ => rfl, fun _ => rfl, fun _ => rfl, fun _ => rfl, fun _ => rfl, rfl, rfl, fun _ => rfl, fun _ _ => rfl⟩

/-- Which events `Event.sampled` reads. -/
@[simp] theorem sampled_event :
    (∀ l : Lines, (Event.recorded l).sampled = none)
      ∧ (∀ t : Cycles, (Event.cyc t).sampled = none)
      ∧ (∀ l : Lines, (Event.drv l).sampled = none)
      ∧ (∀ v : Bit, (Event.rscl v).sampled = none)
      ∧ (∀ v : Bit, (Event.rsda v).sampled = some v)
      ∧ (∀ f : Nat, (Event.freq f).sampled = none)
      ∧ Event.ioff.sampled = none
      ∧ Event.ion.sampled = none
      ∧ (∀ g : Nat, (Event.mode g).sampled = none)
      ∧ (∀ (i : PinId) (g : Nat), (Event.map i g).sampled = none) :=
  ⟨fun _ => rfl, fun _ => rfl, fun _ => rfl, fun _ => rfl, fun _ => rfl, fun _ => rfl, rfl, rfl, fun _ => rfl, fun _ _ => rfl⟩

@[simp] theorem requested_cycs (ts : List Cycles) : (ts.map Event.cyc).filterMap Event.requested = [] := by
  induction ts with
  | nil => rfl
  | cons _ _ ih => exact ih

@[simp] theorem driven_cycs (ts : List Cycles) : (ts.map Event.cyc).filterMap Event.driven = [] := by
  induction ts with
  | nil => rfl
  | cons _ _ ih => exact ih

@[simp] theorem sampled_cycs (ts : List Cycles) : (ts.map Event.cyc).filterMap Event.sampled = [] := by
  induction ts with
  | nil => rfl
  | cons _ _ ih => exact ih

/-! ## set_lines -/

/-- Step 3 of `set_lines`: nothing where no delay is asked for; else two `CycleRead`s, after which the call goes on if
`DELAY` cycles have elapsed, and waits if not. -/
theorem delayStep_spec (s : State) :
    (s.delay.toNat = 0 ∧ delayStep s = .done s) ∨
    (0 < s.delay.toNat ∧ ∃ (u : State) (x : Cycles), CallFrame s u ∧ u.ls = s.ls ∧ u.drv = s.drv
      ∧ u.hist = s.hist ++ [.cyc u.t0, .cyc x] ∧ x = counterValue u.env.cycles
      ∧ ((delayStep s = .done u ∧ delayElapsed s.delay u.t0 x = true)
        ∨ (delayStep s = .waiting u ∧ InDelayWait u))) := by
  by_cases hd : 0 < s.delay.toNat
  · refine .inr ⟨hd, (cycleRead ((armDelay s).enter .waitPoll)).2, (cycleRead ((armDelay s).enter .waitPoll)).1,
      ((armDelay_frame s).trans (enter_frame _ _)).trans (cycleRead_frame _), by simp, by simp, by simp, rfl, ?_⟩
    have e : delayStep s = pollDelay ((armDelay s).enter .waitPoll) := by
      rw [delayStep, if_pos (by simpa [delayPositive] using hd), waitCycles]
    rcases pollDelay_spec ((armDelay s).enter .waitPoll) with ⟨k, h⟩ | ⟨k, h⟩
    · exact .inl ⟨by rw [e, k], by simpa using h⟩
    · exact .inr ⟨by rw [e, k], by simp, by simpa using hd, by simpa using h⟩
  · exact .inl ⟨by omega, by rw [delayStep, if_neg (by simpa [delayPositive] using hd)]⟩

/-- Steps 4 and 5 of `set_lines`: the recorded pair is applied; then SCL, if requested high, is read once: high ends the
call, low leaves it waiting. -/
theorem driveStep_spec (s : State) :
    ∃ u, CallFrame s u ∧ u.ls = s.ls ∧ u.drv = s.ls ∧ u.t0 = s.t0 ∧ u.upc.phase ≠ .waitPoll
      ∧ ((driveStep s = .done u ∧ u.hist = s.hist ++ .drv s.ls :: (if s.ls.scl then [.rscl true] else [])
          ∧ (s.ls.scl = true → u.extLines.scl = true))
        ∨ (driveStep s = .waiting u ∧ u.hist = s.hist ++ [.drv s.ls, .rscl false] ∧ InStretchWait u)) := by
  by_cases hc : s.ls.scl = true
  · have e : driveStep s = pollStretch ((linesWrite s.ls (s.enter .drive)).enter .stretchPoll) := by
      rw [driveStep, stretchStep, if_pos (by simpa [requestsSclHigh] using hc)]
    refine ⟨_, (((enter_frame .drive s).trans (linesWrite_frame s.ls _)).trans (enter_frame .stretchPoll _)).trans
      (pinReadScl_frame _), by simp, by simp, by simp, by simp, ?_⟩
    rcases pollStretch_spec ((linesWrite s.ls (s.enter .drive)).enter .stretchPoll) with ⟨k, h⟩ | ⟨k, h⟩
    · refine .inl ⟨by rw [e, k], ?_, fun _ => ?_⟩
      · rw [(pinReadScl_fields _).2.2.2.2.2.2.2.2.2.2.2.2.2.2.2.2.1, h]; simp [hc]
      · simpa [hc, State.extLines, levelsOf] using h
    · refine .inr ⟨by rw [e, k], ?_, by simp, by simpa using hc, by simp, ?_⟩
      · rw [(pinReadScl_fields _).2.2.2.2.2.2.2.2.2.2.2.2.2.2.2.2.1, h]; simp
      · simpa [hc, State.extLines, levelsOf] using h
  · refine ⟨_, (enter_frame .drive s).trans (linesWrite_frame s.ls _), by simp, by simp, by simp, by simp,
      .inl ⟨?_, by simp [hc], fun h => absurd h hc⟩⟩
    rw [driveStep, stretchStep, if_neg (by simpa [requestsSclHigh] using hc)]

/-- What the delay wait of a completed call leaves: no poll and `T0` as before, or `T0` and the read that ended it. -/
def DelayWaited (s t : State) (ts : List Cycles) : Prop :=
  (s.delay.toNat = 0 ∧ ts = [] ∧ t.t0 = s.t0)
  ∨ (0 < s.delay.toNat ∧ ∃ x, ts = [t.t0, x] ∧ delayElapsed s.delay t.t0 x = true)

/-- A `set_lines` call of the pair `l` that ends at its first polls (40_timing_and_line_driver.md R74): `LS = DRV = l`,
its events, SCL seen high if it was requested high. -/
structure CallEffect (l : Lines) (s t : State) : Prop where
  frame : CallFrame s t
  ls : t.ls = l
  drv : t.drv = l
  applied : t.upc.phase ≠ .waitPoll
  hist : ∃ ts : List Cycles, DelayWaited s t ts
    ∧ t.hist = s.hist ++ .recorded l :: (ts.map Event.cyc ++ .drv l :: (if l.scl then [.rscl true] else []))
  high : l.scl = true → t.extLines.scl = true

/-- A `set_lines` call of the pair `l` that waits: the pair is recorded, and applied only if the wait is the stretch
poll (10_state.md R14, 60_exceptions.md R137). -/
structure CallWaits (l : Lines) (s t : State) : Prop where
  frame : CallFrame s t
  ls : t.ls = l
  wait : (InDelayWait t ∧ t.drv = s.drv ∧ ∃ x, t.hist = s.hist ++ [.recorded l, .cyc t.t0, .cyc x])
    ∨ (InStretchWait t ∧ ∃ ts : List Cycles, DelayWaited s t ts
        ∧ t.hist = s.hist ++ .recorded l :: (ts.map Event.cyc ++ [.drv l, .rscl false]))

/-- Everything a `set_lines` call can do. -/
theorem setLines_spec (a b : Nat) (s : State) :
    (∃ t, setLines a b s = .done t ∧ CallEffect (normalize a b) s t) ∨
    (∃ t, setLines a b s = .waiting t ∧ CallWaits (normalize a b) s t) := by
  have begun := recordLines_frame (normalize a b) s
  have drive : ∀ (u : State) (ts : List Cycles), delayStep (recordLines (normalize a b) s) = .done u → CallFrame s u →
      u.ls = normalize a b → DelayWaited s u ts →
      u.hist = s.hist ++ .recorded (normalize a b) :: ts.map Event.cyc →
      (∃ t, setLines a b s = .done t ∧ CallEffect (normalize a b) s t) ∨
      (∃ t, setLines a b s = .waiting t ∧ CallWaits (normalize a b) s t) := by
    intro u ts e hf hl hw hh
    obtain ⟨v, kf, kl, kd, k0, kp, hr⟩ := driveStep_spec u
    have hrun : setLines a b s = driveStep u := by rw [setLines, e]; rfl
    have hw' : DelayWaited s v ts := by unfold DelayWaited at hw ⊢; rw [k0]; exact hw
    rw [hl] at kl kd hr
    rcases hr with ⟨e', kh, hi⟩ | ⟨e', kh, hi⟩
    · exact .inl ⟨v, by rw [hrun, e'], hf.trans kf, kl, kd, kp, ⟨ts, hw', by rw [kh, hh]; simp⟩, hi⟩
    · exact .inr ⟨v, by rw [hrun, e'], hf.trans kf, kl, .inr ⟨hi, ts, hw', by rw [kh, hh]; simp⟩⟩
  rcases delayStep_spec (recordLines (normalize a b) s) with ⟨hd, e⟩ | ⟨hd, u, x, hf, hl, hdr, hh, -, hr⟩
  · exact drive _ [] e begun (by simp) (.inl ⟨by simpa using hd, rfl, by simp⟩) (by simp)
  · rcases hr with ⟨e, he⟩ | ⟨e, hw⟩
    · exact drive u [u.t0, x] e (begun.trans hf) (by simpa using hl)
        (.inr ⟨by simpa using hd, x, rfl, by simpa using he⟩) (by rw [hh]; simp)
    · exact .inr ⟨u, by rw [setLines, e]; rfl, begun.trans hf, by simpa using hl,
        .inl ⟨hw, by simpa using hdr, x, by rw [hh]; simp⟩⟩

/-! ## Going on with a call -/

/-- What going on with a waiting call records: no request, no sample, and the pair it had pending once it is applied. -/
structure ResumeEvents (s t : State) : Prop where
  requested : (eventsBetween s t).filterMap Event.requested = []
  sampled : (eventsBetween s t).filterMap Event.sampled = []
  driven : (eventsBetween s t).filterMap Event.driven ++ pendingPairs t = pendingPairs s

theorem eventsBetween_of_hist {s t : State} {es : List Event} (h : t.hist = s.hist ++ es) : eventsBetween s t = es := by
  rw [eventsBetween, h, List.drop_left]

theorem pendingPairs_of_ne {s : State} (h : s.upc.phase ≠ .waitPoll) : pendingPairs s = [] := by
  rw [pendingPairs, if_neg h]

/-- Everything going on with a waiting call can do: the pair it recorded is applied and seen, or it waits on. -/
theorem resumeCall_spec (s : State) (h : InDelayWait s ∨ InStretchWait s) :
    ∃ t, CallFrame s t ∧ t.ls = s.ls ∧ ResumeEvents s t
      ∧ ((resumeCall s = .done t ∧ t.drv = s.ls ∧ t.upc.phase ≠ .waitPoll ∧ (s.ls.scl = true → t.extLines.scl = true))
        ∨ (resumeCall s = .waiting t ∧ ((InDelayWait t ∧ t.drv = s.drv ∧ t.t0 = s.t0) ∨ InStretchWait t))) := by
  rcases h with ⟨hp, hpos, -⟩ | ⟨hp, hc, hdr, -⟩
  · have hpend : pendingPairs s = [s.ls] := by rw [pendingPairs, if_pos hp]
    have cf := cycleRead_frame s
    rcases pollDelay_spec s with ⟨e, -⟩ | ⟨e, hw⟩
    · obtain ⟨v, kf, kl, kd, -, kp, hr⟩ := driveStep_spec (cycleRead s).2
      have hrun : resumeCall s = driveStep (cycleRead s).2 := by simp only [resumeCall, hp, e]; rfl
      simp only [cycleRead_fields] at kl kd hr
      refine ⟨v, cf.trans kf, kl, ?_, ?_⟩
      · have hev : ∃ rest, eventsBetween s v = .cyc (cycleRead s).1 :: .drv s.ls :: rest
            ∧ rest.filterMap Event.requested = [] ∧ rest.filterMap Event.sampled = []
            ∧ rest.filterMap Event.driven = [] := by
          rcases hr with ⟨-, kh, -⟩ | ⟨-, kh, -⟩
          · refine ⟨if s.ls.scl then [.rscl true] else [], eventsBetween_of_hist (by rw [kh]; simp), ?_, ?_, ?_⟩ <;>
              cases s.ls.scl <;> rfl
          · exact ⟨[.rscl false], eventsBetween_of_hist (by rw [kh]; simp), rfl, rfl, rfl⟩
        obtain ⟨rest, he, h1, h2, h3⟩ := hev
        refine ⟨by rw [he]; simpa using h1, by rw [he]; simpa using h2, ?_⟩
        rw [he, hpend, pendingPairs_of_ne kp]; simpa using h3
      · rcases hr with ⟨e', -, hi⟩ | ⟨e', -, hi⟩
        · exact .inl ⟨by rw [hrun, e'], kd, kp, hi⟩
        · exact .inr ⟨by rw [hrun, e'], .inr hi⟩
    · refine ⟨(cycleRead s).2, cf, by simp, ?_, .inr ⟨by simp only [resumeCall, hp, e]; rfl, .inl ⟨⟨?_, ?_, ?_⟩, ?_, ?_⟩⟩⟩
      · have he : eventsBetween s (cycleRead s).2 = [.cyc (cycleRead s).1] := eventsBetween_of_hist (by simp)
        refine ⟨by rw [he]; rfl, by rw [he]; rfl, ?_⟩
        rw [he, hpend, pendingPairs, if_pos (by simpa using hp)]; simp
      · simpa using hp
      · simpa using hpos
      · simpa using hw
      · simp
      · simp
  · have hpend : pendingPairs s = [] := pendingPairs_of_ne (by rw [hp]; decide)
    have he : eventsBetween s (pinReadScl s).2 = [.rscl (pinReadScl s).1] := eventsBetween_of_hist (by simp)
    have hph : (pinReadScl s).2.upc.phase = .stretchPoll := by simpa using hp
    refine ⟨(pinReadScl s).2, pinReadScl_frame s, by simp, ?_, ?_⟩
    · refine ⟨by rw [he]; rfl, by rw [he]; rfl, ?_⟩
      rw [he, hpend, pendingPairs_of_ne (by rw [hph]; decide)]; rfl
    · rcases pollStretch_spec s with ⟨e, h⟩ | ⟨e, h⟩
      · refine .inl ⟨by simp only [resumeCall, hp, e], by simpa using hdr, by rw [hph]; decide, fun _ => ?_⟩
        simpa [hdr, hc, State.extLines, levelsOf] using h
      · refine .inr ⟨by simp only [resumeCall, hp, e], .inr ⟨hph, by simpa using hc, by simpa using hdr, ?_⟩⟩
        simpa [hdr, hc, State.extLines, levelsOf] using h

end Sys2Proof.Machine
end

