-- ==== Sys2Proof/Laws/Waits.lean ====
section
/-! SUPPORT. When the waits end at their first polls: an environment that leaves SCL alone, and a counter that moves on by
`DELAY` between two reads (20_memory.md R34, R39). -/

namespace Sys2Proof.Machine

/-! ## SCL -/

/-- A GPIO that nothing pulls low is not low after any number of events. -/
theorem quiet_heldAfter {e : Env} {g : Nat} (h : e.Quiet g) (n : Nat) : g ∉ e.heldAfter n := by
  rw [Env.heldAfter]
  cases hl : (e.moves.take n).flatten.getLast? with
  | none => exact h.1
  | some v =>
    obtain ⟨vs, hvs, hv⟩ := List.mem_flatten.mp (List.mem_of_getLast? hl)
    exact h.2 vs (List.mem_of_mem_take hvs) v hv

/-- A GPIO that nothing pulls low stays so. -/
theorem Moved.quiet {s t : State} (h : Moved s t) {g : Nat} (hq : s.env.Quiet g) : t.env.Quiet g := by
  refine ⟨by rw [h.heldLow]; exact quiet_heldAfter hq _, fun vs hvs => hq.2 vs ?_⟩
  rw [h.moves] at hvs
  exact List.mem_of_mem_drop hvs

/-- A GPIO that is held low for good stays so. -/
theorem Moved.holdsForGood {s t : State} (h : Moved s t) {g : Nat} (hq : s.env.HoldsForGood g) :
    t.env.HoldsForGood g := by
  refine ⟨?_, fun vs hvs => hq.2 vs ?_⟩
  · rw [h.heldLow, Env.heldAfter]
    cases hl : (s.env.moves.take (t.hist.length - s.hist.length)).flatten.getLast? with
    | none => exact hq.1
    | some v =>
      obtain ⟨vs, hvs, hv⟩ := List.mem_flatten.mp (List.mem_of_getLast? hl)
      exact hq.2 vs (List.mem_of_mem_take hvs) v hv
  · rw [h.moves] at hvs
    exact List.mem_of_mem_drop hvs

/-- What the environment holds low after its last change does not depend on how many events have passed. -/
theorem Moved.releasesAtLast {s t : State} (h : Moved s t) {g : Nat} (hr : s.env.ReleasesAtLast g) :
    t.env.ReleasesAtLast g := by
  unfold Env.ReleasesAtLast at hr ⊢
  rw [h.heldLow, h.moves, Env.heldAfter, ← getLast_append_getD, ← List.flatten_append, List.take_append_drop]
  exact hr

/-! ## The counter -/

/-- How far a counter that has moved on by `n` has come since, modulo `2^CW`. -/
theorem counterValue_sub (c n : Nat) : (counterValue (c + n) - counterValue c).toNat = n % 2 ^ Config.counterWidth := by
  have h : counterValue (c + n) = counterValue c + BitVec.ofNat Config.counterWidth n := by
    simp [counterValue, BitVec.ofNat_add]
  rw [h, BitVec.add_comm, BitVec.add_sub_cancel, BitVec.toNat_ofNat]

/-- A wait that armed at the count `c` ends at a read `n` cycles later exactly if those show the delay. -/
theorem delayElapsed_iff (d : Cycles) (c n : Nat) :
    delayElapsed d (counterValue c) (counterValue (c + n)) = true ↔ Shows d.toNat n := by
  rw [delayElapsed, counterValue_sub, Shows, decide_eq_true_iff]

/-- A counter that serves a delay goes on serving it. -/
theorem Moved.counterServes {s t : State} (h : Moved s t) (hp : t.env.pace = s.env.pace) {d : Nat}
    (hs : s.env.CounterServes d) : t.env.CounterServes d := by
  rcases hs with hs | ⟨h1, h2⟩
  · exact .inl hs
  · exact .inr ⟨fun n hn => h1 n (h.ticks.subset hn), by rw [hp]; exact h2⟩

/-- An environment that serves a delay goes on serving it. -/
theorem Moved.serves {s t : State} (h : Moved s t) (hp : t.env.pace = s.env.pace) {g d : Nat} (hs : s.env.Serves g d) :
    t.env.Serves g d := ⟨h.quiet hs.1, h.counterServes hp hs.2⟩

/-- How far the counter moves before a read. -/
theorem counterServes_next {e : Env} {d : Nat} (h : e.CounterServes d) (hd : 0 < d) : Shows d (e.ticks.headD e.pace) := by
  rcases h with h | ⟨h1, h2⟩
  · omega
  · cases ht : e.ticks with
    | nil => exact h2
    | cons n ns => exact h1 n (by rw [ht]; exact List.mem_cons_self)

/-- With a counter that serves `DELAY`, step 3 of `set_lines` ends. -/
theorem delayStep_done (s : State) (h : s.env.CounterServes s.delay.toNat) : ∃ u, delayStep s = .done u := by
  by_cases hd : 0 < s.delay.toNat
  · have e : delayStep s = pollDelay ((armDelay s).enter .waitPoll) := by
      rw [delayStep, if_pos (by simpa [delayPositive] using hd), waitCycles]
    rcases pollDelay_spec ((armDelay s).enter .waitPoll) with ⟨k, -⟩ | ⟨k, h'⟩
    · exact ⟨_, by rw [e, k]⟩
    · exfalso
      have hserve := counterServes_next ((armDelay_frame s).moved.counterServes (by simp) h) hd
      have hel := (delayElapsed_iff s.delay (armDelay s).env.cycles _).mpr hserve
      have h2 : delayElapsed s.delay (counterValue (armDelay s).env.cycles)
          (counterValue ((armDelay s).env.cycles + (armDelay s).env.ticks.headD (armDelay s).env.pace)) = false := by
        simpa using h'
      rw [hel] at h2
      cases h2
  · exact ⟨s, by rw [delayStep, if_neg (by simpa [delayPositive] using hd)]⟩

/-! ## A call -/

/-- With an environment that serves `DELAY`, a call completes and the environment goes on serving it. -/
theorem setLines_done (a b : Nat) (s : State) (hs : s.env.Serves s.gpioScl s.delay.toNat) :
    ∃ t, setLines a b s = .done t ∧ CallEffect (normalize a b) s t ∧ t.env.Serves s.gpioScl s.delay.toNat := by
  rcases setLines_spec a b s with ⟨t, e, he⟩ | ⟨t, e, hw⟩
  · exact ⟨t, e, he, he.frame.moved.serves he.frame.fields.2.2.2.2.2.2.2.2.2.2.2.2.2 hs⟩
  · exfalso
    rcases hw.wait with ⟨hd, -, -⟩ | ⟨hst, -⟩
    · obtain ⟨u, hu⟩ := delayStep_done (recordLines (normalize a b) s)
        (by
          have h := (recordLines_frame (normalize a b) s).moved.counterServes (by simp) hs.2
          simpa using h)
      rw [setLines, hu] at e
      obtain ⟨v, -, -, -, -, kp, hr⟩ := driveStep_spec u
      rcases hr with ⟨e', -⟩ | ⟨e', -⟩
      · rw [show (Run.done u).bind driveStep = driveStep u from rfl, e'] at e; cases e
      · rw [show (Run.done u).bind driveStep = driveStep u from rfl, e'] at e
        cases e
        exact kp hd.1
    · have hq := hw.frame.moved.quiet hs.1
      have hlow := hst.2.2.2
      rw [State.extLines, levelsOf, levelOf_eq_false, hw.frame.fields.2.2.1] at hlow
      exact hq.1 hlow

end Sys2Proof.Machine
end

