-- ==== Sys2Proof/Laws/Sequencer.lean ====
section
/-! SUPPORT. What a sequence of calls and samples can do, said once: its frame, how it waits, how it ends. -/

namespace Sys2Proof.Machine

/-! ## Arguments -/

@[simp] theorem value_low (s : State) : LineArg.low.value s = 0 := rfl
@[simp] theorem value_high (s : State) : LineArg.high.value s = 1 := rfl
@[simp] theorem value_lastSda (s : State) : LineArg.lastSda.value s = bitValue s.ls.sda := rfl
@[simp] theorem value_lastScl (s : State) : LineArg.lastScl.value s = bitValue s.ls.scl := rfl

/-- Bit 0 of the number a line bit stands for is that bit. -/
theorem bitValue_testBit (b : Bit) : (bitValue b).testBit 0 = b := by cases b <;> decide

/-- The data bit is bit `BITCNT` of `SHREG`. -/
theorem dataBit_testBit (s : State) : (LineArg.dataBit.value s).testBit 0 = s.shreg.getLsbD s.bitcnt := by
  have h : (s.shreg >>> s.bitcnt &&& 1#8).toNat.testBit 0 = (s.shreg >>> s.bitcnt &&& 1#8).getLsbD 0 := rfl
  exact h.trans (by simp)

/-! ## The frame of a sequence -/

/-- What a sequence may change: the lines, the working registers, the phase and call count, the pins and the counter of
the environment, the records. -/
structure SequenceMoved (s t : State) : Prop where
  state : t = { s with
    ls := t.ls, drv := t.drv, t0 := t.t0, upc := ⟨s.upc.cmd, t.upc.calls, t.upc.phase⟩
    shreg := t.shreg, bitcnt := t.bitcnt, pulsecnt := t.pulsecnt, raw := t.raw
    env := t.env, hist := t.hist, bus := t.bus }
  env : EnvMoved s t
  moved : Moved s t

theorem SequenceMoved.refl (s : State) : SequenceMoved s s := ⟨rfl, rfl, .refl s⟩

theorem SequenceMoved.trans {s u v : State} (h : SequenceMoved s u) (k : SequenceMoved u v) : SequenceMoved s v := by
  obtain ⟨hs, he, hm⟩ := h
  obtain ⟨ks, ke, km⟩ := k
  refine ⟨?_, he.trans ke, hm.trans km⟩
  rw [ks, hs]

/-- The fields a sequence leaves alone. -/
theorem SequenceMoved.fields {s t : State} (h : SequenceMoved s t) :
    t.cfg = s.cfg ∧ t.gpioSda = s.gpioSda ∧ t.gpioScl = s.gpioScl ∧ t.delay = s.delay ∧ t.configured = s.configured
      ∧ t.busy = s.busy ∧ t.upc.cmd = s.upc.cmd ∧ t.resp = s.resp ∧ t.env.pace = s.env.pace
      ∧ t.env.pulseOrder = s.env.pulseOrder ∧ t.env.pinMap = s.env.pinMap ∧ t.env.host = s.env.host := by
  have he := h.env
  unfold EnvMoved at he
  have hs := h.state
  refine ⟨?_, ?_, ?_, ?_, ?_, ?_, ?_, ?_, ?_, ?_, ?_, ?_⟩ <;> first | (rw [hs]; done) | rw [he]

theorem CallFrame.sequence {s t : State} (h : CallFrame s t) : SequenceMoved s t := by
  refine ⟨?_, h.env, h.moved⟩
  rw [h.state]

theorem callDone_moved (s : State) : SequenceMoved s (callDone s) := ⟨rfl, rfl, .same rfl rfl rfl⟩

theorem CallEffect.sequence {l : Lines} {s t : State} (h : CallEffect l s t) : SequenceMoved s (callDone t) :=
  h.frame.sequence.trans (callDone_moved t)

theorem sampleRaw_moved (s : State) : SequenceMoved s (sampleRaw s) :=
  ⟨rfl, rfl, .event rfl rfl rfl (List.suffix_refl _) (le_refl _) (by simp)⟩

theorem sampleBit_moved (s : State) : SequenceMoved s (sampleBit s) :=
  ⟨rfl, rfl, .event rfl rfl rfl (List.suffix_refl _) (le_refl _) (by simp)⟩

/-- Whether a part is a call. -/
def callWeight : Micro → Nat
  | .call _ _ => 1
  | .sampleRaw => 0
  | .sampleBit => 0
  | .bitIndex _ => 0
  | .pulseIndex _ => 0

theorem callCount_cons (m : Micro) (ms : List Micro) : callCount (m :: ms) = callWeight m + callCount ms := by
  cases m <;> simp [callCount, callWeight, Nat.add_comm]

theorem callCount_append (ms ns : List Micro) : callCount (ms ++ ns) = callCount ms + callCount ns := by
  induction ms with
  | nil => simp [callCount]
  | cons m ms ih => rw [List.cons_append, callCount_cons, callCount_cons, ih]; omega

/-- Everything one part can do. -/
theorem runMicro_spec (m : Micro) (s : State) :
    ∃ t, SequenceMoved s t ∧
      ((runMicro m s = .done t ∧ t.upc.calls = s.upc.calls + callWeight m) ∨
       (runMicro m s = .waiting t ∧ t.upc.calls = s.upc.calls ∧ callWeight m = 1
          ∧ (InDelayWait t ∨ InStretchWait t))) := by
  cases m with
  | call a b =>
    rcases setLines_spec (a.value s) (b.value s) s with ⟨t, e, h⟩ | ⟨t, e, h⟩
    · refine ⟨callDone t, h.sequence, .inl ⟨by simp [runMicro, e, Run.bind], ?_⟩⟩
      have hc : t.upc.calls = s.upc.calls := by rw [h.frame.state]
      simp [callWeight, hc]
    · refine ⟨t, h.frame.sequence, .inr ⟨by simp [runMicro, e, Run.bind], by rw [h.frame.state], rfl, ?_⟩⟩
      rcases h.wait with ⟨w, -⟩ | ⟨w, -⟩
      · exact .inl w
      · exact .inr w
  | sampleRaw => exact ⟨_, sampleRaw_moved s, .inl ⟨rfl, by simp [sampleRaw, callWeight]⟩⟩
  | sampleBit => exact ⟨_, sampleBit_moved s, .inl ⟨rfl, by simp [sampleBit, callWeight]⟩⟩
  | bitIndex i => exact ⟨{ s with bitcnt := i }, ⟨rfl, rfl, .same rfl rfl rfl⟩, .inl ⟨rfl, rfl⟩⟩
  | pulseIndex i => exact ⟨{ s with pulsecnt := i }, ⟨rfl, rfl, .same rfl rfl rfl⟩, .inl ⟨rfl, rfl⟩⟩

/-- Everything a sequence can do: it ends with all its calls made, or waits in one of them. -/
theorem runMicros_spec (ms : List Micro) (s : State) :
    ∃ t, SequenceMoved s t ∧
      ((runMicros ms s = .done t ∧ t.upc.calls = s.upc.calls + callCount ms) ∨
       (runMicros ms s = .waiting t ∧ s.upc.calls ≤ t.upc.calls ∧ t.upc.calls < s.upc.calls + callCount ms
          ∧ (InDelayWait t ∨ InStretchWait t))) := by
  induction ms generalizing s with
  | nil => exact ⟨s, .refl s, .inl ⟨rfl, by simp [callCount]⟩⟩
  | cons m ms ih =>
    obtain ⟨u, hu, hr⟩ := runMicro_spec m s
    rcases hr with ⟨e, hc⟩ | ⟨e, hc, hw, hwait⟩
    · obtain ⟨t, ht, hr'⟩ := ih u
      have hrun : runMicros (m :: ms) s = runMicros ms u := by simp [runMicros, e, Run.bind]
      refine ⟨t, hu.trans ht, ?_⟩
      rw [hrun, callCount_cons]
      rcases hr' with ⟨e', hc'⟩ | ⟨e', h1, h2, h3⟩
      · exact .inl ⟨e', by omega⟩
      · exact .inr ⟨e', by omega, by omega, h3⟩
    · refine ⟨u, hu, .inr ⟨by simp [runMicros, e, Run.bind], by omega, ?_, hwait⟩⟩
      rw [callCount_cons]; omega

/-- A sequence of two parts. -/
theorem runMicros_append (ms ns : List Micro) (s : State) :
    runMicros (ms ++ ns) s = (runMicros ms s).bind (runMicros ns) := by
  induction ms generalizing s with
  | nil => rfl
  | cons m ms ih =>
    simp only [List.cons_append, runMicros]
    cases runMicro m s with
    | done u => simpa [Run.bind] using ih u
    | waiting u => rfl

/-- A sequence that ends has ended each of its two parts. -/
theorem runMicros_append_done {ms ns : List Micro} {s t : State} (h : runMicros (ms ++ ns) s = .done t) :
    ∃ u, runMicros ms s = .done u ∧ runMicros ns u = .done t := by
  rw [runMicros_append] at h
  cases hm : runMicros ms s with
  | done u => rw [hm] at h; exact ⟨u, rfl, h⟩
  | waiting u => rw [hm] at h; cases h

/-- A sequence that ends and begins with a call has completed that call. -/
theorem runMicros_call_done {a b : LineArg} {ms : List Micro} {s t : State}
    (h : runMicros (.call a b :: ms) s = .done t) :
    ∃ u, setLines (a.value s) (b.value s) s = .done u ∧ CallEffect (normalize (a.value s) (b.value s)) s u
      ∧ runMicros ms (callDone u) = .done t := by
  rcases setLines_spec (a.value s) (b.value s) s with ⟨u, e, he⟩ | ⟨u, e, -⟩
  · exact ⟨u, e, he, by simpa [runMicros, runMicro, e, Run.bind] using h⟩
  · simp [runMicros, runMicro, e, Run.bind] at h

/-- A sequence that ends in a call leaves that call's pair in `LS` and `DRV`. -/
theorem runMicros_last_call {ms : List Micro} {a b : LineArg} {s t : State}
    (h : runMicros (ms ++ [.call a b]) s = .done t) :
    ∃ u, runMicros ms s = .done u ∧ t.ls = normalize (a.value u) (b.value u) ∧ t.drv = t.ls := by
  obtain ⟨u, hu, ht⟩ := runMicros_append_done h
  obtain ⟨v, -, he, hv⟩ := runMicros_call_done ht
  cases hv
  exact ⟨u, hu, by simpa using he.ls, by simp [he.ls, he.drv]⟩

/-- With an environment that serves `DELAY`, a sequence ends and the environment goes on serving it. -/
theorem runMicros_done (ms : List Micro) (s : State) (hs : s.env.Serves s.gpioScl s.delay.toNat) :
    ∃ t, runMicros ms s = .done t ∧ t.env.Serves s.gpioScl s.delay.toNat := by
  induction ms generalizing s with
  | nil => exact ⟨s, rfl, hs⟩
  | cons m ms ih =>
    have hstep : ∃ u, runMicro m s = .done u := by
      cases m with
      | call a b =>
        obtain ⟨u, e, -, -⟩ := setLines_done (a.value s) (b.value s) s hs
        exact ⟨callDone u, by simp [runMicro, e, Run.bind]⟩
      | sampleRaw => exact ⟨_, rfl⟩
      | sampleBit => exact ⟨_, rfl⟩
      | bitIndex i => exact ⟨_, rfl⟩
      | pulseIndex i => exact ⟨_, rfl⟩
    obtain ⟨u, e⟩ := hstep
    have hu : SequenceMoved s u := by
      obtain ⟨v, hv, hr⟩ := runMicro_spec m s
      rcases hr with ⟨e', -⟩ | ⟨e', -⟩ <;> rw [e] at e' <;> cases e'
      exact hv
    have hf := hu.fields
    have hsu := hu.moved.serves hf.2.2.2.2.2.2.2.2.1 hs
    obtain ⟨t, e', ht⟩ := ih u (by rw [hf.2.2.1, hf.2.2.2.1]; exact hsu)
    rw [hf.2.2.1, hf.2.2.2.1] at ht
    exact ⟨t, by simp [runMicros, e, Run.bind, e'], ht⟩

/-! ## What is left of a sequence -/

/-- Dropping calls that a sequence has leaves the rest of them. -/
theorem callCount_dropCalls (ms : List Micro) (n : Nat) (h : n ≤ callCount ms) :
    callCount (dropCalls n ms) = callCount ms - n := by
  induction ms generalizing n with
  | nil =>
    have : n = 0 := by simpa [callCount] using h
    subst this; simp [dropCalls, callCount]
  | cons m ms ih =>
    cases n with
    | zero => simp [dropCalls]
    | succ n =>
      rw [callCount_cons] at h ⊢
      cases m with
      | call a b =>
        simp only [dropCalls, callWeight] at h ⊢
        rw [ih n (by omega)]; omega
      | sampleRaw => simp only [dropCalls, callWeight] at h ⊢; rw [ih (n + 1) (by omega)]; omega
      | sampleBit => simp only [dropCalls, callWeight] at h ⊢; rw [ih (n + 1) (by omega)]; omega
      | bitIndex i => simp only [dropCalls, callWeight] at h ⊢; rw [ih (n + 1) (by omega)]; omega
      | pulseIndex i => simp only [dropCalls, callWeight] at h ⊢; rw [ih (n + 1) (by omega)]; omega

end Sys2Proof.Machine
end

