-- ==== Sys2Proof/Laws/Calls.lean ====
section
/-! SUPPORT. Which `set_lines` calls a sequence makes: worked out from the sequence's text and the state it is entered
in, and shown to be what its events record. -/

namespace Sys2Proof.Machine

/-- The bit an argument asks for, from `LS`, `SHREG` and `BITCNT`. -/
def plannedBit (a : LineArg) (ls : Lines) (shreg : Byte) (bitcnt : Nat) : Bit :=
  match a with
  | .low => false
  | .high => true
  | .lastSda => ls.sda
  | .lastScl => ls.scl
  | .dataBit => shreg.getLsbD bitcnt

/-- The calls a sequence makes. A sample of READ_BYTE changes `SHREG`, so the plan is right for sequences that do not
take a data bit after one. -/
def plannedCalls : List Micro → Lines → Byte → Nat → List Lines
  | [], _, _, _ => []
  | .call a b :: ms, ls, sh, i =>
    ⟨plannedBit a ls sh i, plannedBit b ls sh i⟩ :: plannedCalls ms ⟨plannedBit a ls sh i, plannedBit b ls sh i⟩ sh i
  | .bitIndex j :: ms, ls, sh, _ => plannedCalls ms ls sh j
  | .sampleRaw :: ms, ls, sh, i => plannedCalls ms ls sh i
  | .sampleBit :: ms, ls, sh, i => plannedCalls ms ls sh i
  | .pulseIndex _ :: ms, ls, sh, i => plannedCalls ms ls sh i

/-- A sequence that takes no data bit. -/
def noDataBit : List Micro → Bool
  | [] => true
  | .call a b :: ms => a != .dataBit && b != .dataBit && noDataBit ms
  | .bitIndex _ :: ms => noDataBit ms
  | .sampleRaw :: ms => noDataBit ms
  | .sampleBit :: ms => noDataBit ms
  | .pulseIndex _ :: ms => noDataBit ms

/-- A sequence whose plan is right: no data bit after a sample of READ_BYTE. -/
def planned : List Micro → Bool
  | [] => true
  | .call _ _ :: ms => planned ms
  | .bitIndex _ :: ms => planned ms
  | .sampleRaw :: ms => planned ms
  | .sampleBit :: ms => noDataBit ms
  | .pulseIndex _ :: ms => planned ms

theorem planned_of_noDataBit (ms : List Micro) (h : noDataBit ms = true) : planned ms = true := by
  induction ms with
  | nil => rfl
  | cons m ms ih => cases m <;> simp_all [noDataBit, planned]

theorem plannedBit_shreg {a : LineArg} (h : (a != .dataBit) = true) (ls : Lines) (sh sh' : Byte) (i : Nat) :
    plannedBit a ls sh i = plannedBit a ls sh' i := by
  cases a <;> simp_all [plannedBit]

/-- Without data bits the plan does not depend on `SHREG`. -/
theorem plannedCalls_shreg (ms : List Micro) (h : noDataBit ms = true) (ls : Lines) (sh sh' : Byte) (i : Nat) :
    plannedCalls ms ls sh i = plannedCalls ms ls sh' i := by
  induction ms generalizing ls i with
  | nil => rfl
  | cons m ms ih =>
    cases m with
    | call a b =>
      simp only [noDataBit, Bool.and_eq_true] at h
      simp only [plannedCalls, plannedBit_shreg h.1.1 ls sh sh' i, plannedBit_shreg h.1.2 ls sh sh' i]
      rw [ih h.2]
    | sampleRaw => exact ih h ls i
    | sampleBit => exact ih h ls i
    | bitIndex j => exact ih h ls j
    | pulseIndex j => exact ih h ls i

/-- An argument evaluates to the planned bit. -/
theorem value_planned (a : LineArg) (s : State) :
    (a.value s).testBit 0 = plannedBit a s.ls s.shreg s.bitcnt := by
  cases a with
  | low => simp [plannedBit]
  | high => simp [plannedBit]
  | lastSda => exact bitValue_testBit _
  | lastScl => exact bitValue_testBit _
  | dataBit => rw [dataBit_testBit]; rfl

theorem normalize_planned (a b : LineArg) (s : State) :
    normalize (a.value s) (b.value s) = ⟨plannedBit a s.ls s.shreg s.bitcnt, plannedBit b s.ls s.shreg s.bitcnt⟩ := by
  rw [normalize, value_planned, value_planned]

/-- The calls recorded in a history. -/
def requests (h : List Event) : List Lines := h.filterMap Event.requested

/-- The pairs driven in a history. -/
def drives (h : List Event) : List Lines := h.filterMap Event.driven

theorem requests_append (h k : List Event) : requests (h ++ k) = requests h ++ requests k := List.filterMap_append

theorem drives_append (h k : List Event) : drives (h ++ k) = drives h ++ drives k := List.filterMap_append

theorem samplesOf_append (h k : List Event) : samplesOf (h ++ k) = samplesOf h ++ samplesOf k := List.filterMap_append

/-- The events of a completed call record its pair once, drive it once, and take no sample. -/
theorem CallEffect.records {l : Lines} {s t : State} (h : CallEffect l s t) :
    requests t.hist = requests s.hist ++ [l] ∧ drives t.hist = drives s.hist ++ [l]
      ∧ samplesOf t.hist = samplesOf s.hist := by
  obtain ⟨ts, -, hh⟩ := h.hist
  rw [hh, requests_append, drives_append, samplesOf_append]
  refine ⟨?_, ?_, ?_⟩
  · simp only [requests, List.filterMap_cons, List.filterMap_append, requested_event, requested_cycs]
    cases l.scl <;> simp
  · simp only [drives, List.filterMap_cons, List.filterMap_append, driven_event, driven_cycs]
    cases l.scl <;> simp
  · simp only [samplesOf, List.filterMap_cons, List.filterMap_append, sampled_event, sampled_cycs]
    cases l.scl <;> simp

/-- The events of a call that waits record its pair once and drive it unless it is still pending. -/
theorem CallWaits.records {l : Lines} {s t : State} (h : CallWaits l s t) :
    requests t.hist = requests s.hist ++ [l] ∧ drives t.hist ++ pendingPairs t = drives s.hist ++ [l]
      ∧ samplesOf t.hist = samplesOf s.hist := by
  rcases h.wait with ⟨hw, -, x, hh⟩ | ⟨hw, ts, -, hh⟩
  · rw [hh, requests_append, drives_append, samplesOf_append, pendingPairs, if_pos hw.1, h.ls]
    simp [requests, drives, samplesOf]
  · rw [hh, requests_append, drives_append, samplesOf_append, pendingPairs_of_ne (by rw [hw.1]; decide)]
    simp [requests, drives, samplesOf]

/-- A sequence makes its planned calls and drives their pairs, in order; while it waits it has made the first of them,
and driven their pairs but for one pending. -/
theorem runMicros_calls (ms : List Micro) (s : State) (hp : planned ms = true) :
    (∀ t, runMicros ms s = .done t →
      requests t.hist = requests s.hist ++ plannedCalls ms s.ls s.shreg s.bitcnt
      ∧ drives t.hist = drives s.hist ++ plannedCalls ms s.ls s.shreg s.bitcnt
      ∧ t.ls = (plannedCalls ms s.ls s.shreg s.bitcnt).getLast?.getD s.ls
      ∧ t.drv = (plannedCalls ms s.ls s.shreg s.bitcnt).getLast?.getD s.drv) ∧
    (∀ t, runMicros ms s = .waiting t →
      ∃ p, p <+: plannedCalls ms s.ls s.shreg s.bitcnt ∧ requests t.hist = requests s.hist ++ p
        ∧ drives t.hist ++ pendingPairs t = drives s.hist ++ p ∧ t.upc.calls + 1 = s.upc.calls + p.length) := by
  induction ms generalizing s with
  | nil =>
    constructor
    · intro t h; cases h; simp [plannedCalls]
    · intro t h; cases h
  | cons m ms ih =>
    cases m with
    | call a b =>
      rcases setLines_spec (a.value s) (b.value s) s with ⟨u, e, he⟩ | ⟨u, e, he⟩
      · have hrun : runMicros (.call a b :: ms) s = runMicros ms (callDone u) := by
          simp [runMicros, runMicro, e, Run.bind]
        rw [normalize_planned] at he
        obtain ⟨hreq, hdrv, -⟩ := he.records
        have hsh : u.shreg = s.shreg := by rw [he.frame.state]
        have hbc : u.bitcnt = s.bitcnt := by rw [he.frame.state]
        have hca : u.upc.calls = s.upc.calls := by rw [he.frame.state]
        obtain ⟨id, iw⟩ := ih (callDone u) hp
        simp only [callDone_fields, he.ls, he.drv, hsh, hbc, hca, hreq, hdrv] at id iw
        rw [hrun]
        constructor
        · intro t ht
          obtain ⟨h1, h2, h3, h4⟩ := id t ht
          refine ⟨by rw [h1]; simp [plannedCalls], by rw [h2]; simp [plannedCalls], ?_, ?_⟩
          · rw [h3]; simp [plannedCalls, List.getLast?_cons]
          · rw [h4]; simp [plannedCalls, List.getLast?_cons]
        · intro t ht
          obtain ⟨p, hp1, hp2, hp3, hp4⟩ := iw t ht
          exact ⟨⟨plannedBit a s.ls s.shreg s.bitcnt, plannedBit b s.ls s.shreg s.bitcnt⟩ :: p,
            by simpa [plannedCalls] using hp1, by rw [hp2]; simp, by rw [hp3]; simp,
            by rw [hp4, List.length_cons]; omega⟩
      · have hrun : runMicros (.call a b :: ms) s = .waiting u := by simp [runMicros, runMicro, e, Run.bind]
        rw [hrun]
        constructor
        · intro t ht; cases ht
        · intro t ht
          cases ht
          rw [normalize_planned] at he
          obtain ⟨hreq, hdrv, -⟩ := he.records
          exact ⟨_, by simp [plannedCalls], hreq, hdrv, by rw [he.frame.state]; rfl⟩
    | sampleRaw =>
      have h := ih (sampleRaw s) hp
      have h4 : requests (sampleRaw s).hist = requests s.hist := by simp [requests]
      have h5 : drives (sampleRaw s).hist = drives s.hist := by simp [drives]
      rw [h4, h5] at h
      exact h
    | sampleBit =>
      have h := ih (sampleBit s) (planned_of_noDataBit ms hp)
      have hc : plannedCalls ms s.ls (sampleBit s).shreg s.bitcnt = plannedCalls ms s.ls s.shreg s.bitcnt :=
        plannedCalls_shreg ms hp _ _ _ _
      have h4 : requests (sampleBit s).hist = requests s.hist := by simp [requests]
      have h5 : drives (sampleBit s).hist = drives s.hist := by simp [drives]
      rw [h4, h5, show (sampleBit s).ls = s.ls from rfl, show (sampleBit s).bitcnt = s.bitcnt from rfl,
        show (sampleBit s).drv = s.drv from rfl, hc] at h
      exact h
    | bitIndex j => exact ih { s with bitcnt := j } hp
    | pulseIndex j => exact ih { s with pulsecnt := j } hp

/-- A sequence that waits is in one of its planned calls, and what is left of it after that call, entered from there, makes
the rest of the planned calls. -/
theorem runMicros_waiting_rest (ms : List Micro) (s t : State) (hp : planned ms = true)
    (h : runMicros ms s = .waiting t) :
    ∃ k, t.upc.calls = s.upc.calls + k ∧ planned (dropCalls (k + 1) ms) = true
      ∧ (plannedCalls ms s.ls s.shreg s.bitcnt)[k]? = some t.ls
      ∧ plannedCalls (dropCalls (k + 1) ms) t.ls t.shreg t.bitcnt
          = (plannedCalls ms s.ls s.shreg s.bitcnt).drop (k + 1) := by
  induction ms generalizing s with
  | nil => cases h
  | cons m ms ih =>
    cases m with
    | call a b =>
      rcases setLines_spec (a.value s) (b.value s) s with ⟨u, e, he⟩ | ⟨u, e, he⟩
      · rw [normalize_planned] at he
        have hf := he.frame.fields
        obtain ⟨k, h1, h2, h3, h4⟩ := ih (callDone u) hp (by simpa [runMicros, runMicro, e, Run.bind] using h)
        simp only [callDone_fields, he.ls, hf.2.2.2.2.2.2.2.2.2.1, hf.2.2.2.2.2.2.2.2.2.2.1, hf.2.2.2.2.2.2.2.1]
          at h1 h3 h4
        exact ⟨k + 1, by omega, h2, by simpa [plannedCalls] using h3, by simpa [plannedCalls, dropCalls] using h4⟩
      · rw [normalize_planned] at he
        have hf := he.frame.fields
        have : u = t := by simpa [runMicros, runMicro, e, Run.bind] using h
        subst this
        exact ⟨0, hf.2.2.2.2.2.2.2.1, by simpa [dropCalls, planned] using hp, by simp [plannedCalls, he.ls],
          by simp [plannedCalls, dropCalls, he.ls, hf.2.2.2.2.2.2.2.2.2.1, hf.2.2.2.2.2.2.2.2.2.2.1]⟩
    | sampleRaw => exact ih (sampleRaw s) hp h
    | sampleBit =>
      obtain ⟨k, h1, h2, h3, h4⟩ := ih (sampleBit s) (planned_of_noDataBit ms hp) h
      rw [show (sampleBit s).ls = s.ls from rfl, show (sampleBit s).bitcnt = s.bitcnt from rfl,
        plannedCalls_shreg ms hp _ _ s.shreg _] at h3 h4
      exact ⟨k, h1, h2, h3, h4⟩
    | bitIndex j => exact ih { s with bitcnt := j } hp h
    | pulseIndex j => exact ih { s with pulsecnt := j } hp h

/-- The calls between two states, from what their histories record. -/
theorem callsBetween_eq {s t : State} {p : List Lines} (h : s.hist <+: t.hist)
    (e : requests t.hist = requests s.hist ++ p) : callsBetween s t = p := by
  obtain ⟨es, he⟩ := h
  have : es.filterMap Event.requested = p := by
    rw [← he] at e
    simpa [requests] using e
  rw [callsBetween, eventsBetween, ← he]
  simpa using this

/-- The pairs driven between two states, from what their histories record. -/
theorem drivenBetween_eq {s t : State} {p : List Lines} (h : s.hist <+: t.hist)
    (e : drives t.hist = drives s.hist ++ p) : drivenBetween s t = p := by
  obtain ⟨es, he⟩ := h
  have : es.filterMap Event.driven = p := by
    rw [← he] at e
    simpa [drives] using e
  rw [drivenBetween, eventsBetween, ← he]
  simpa using this

/-- The samples between two states, from what their histories record. -/
theorem samplesBetween_eq {s t : State} {p : List Bit} (h : s.hist <+: t.hist)
    (e : samplesOf t.hist = samplesOf s.hist ++ p) : samplesBetween s t = p := by
  obtain ⟨es, he⟩ := h
  have : es.filterMap Event.sampled = p := by
    rw [← he] at e
    simpa [samplesOf] using e
  rw [samplesBetween, eventsBetween, ← he]
  simpa using this

end Sys2Proof.Machine
end

