-- ==== Sys2Proof/Laws/Commands.lean ====
section
/-! SUPPORT. What the handshake around a sequence can do, said once: the entry of a command, its run, its end, going on
after a wait, and the cases of one step. -/

namespace Sys2Proof.Machine

/-! ## Entry -/

/-- The command of an instruction. -/
def commandOf : Instr → Command
  | .configure _ _ _ => .configure
  | .start => .start
  | .stop => .stop
  | .writeByte _ => .writeByte
  | .readByte => .readByte
  | .sendAck => .sendAck
  | .sendNack => .sendNack
  | .checkAck => .checkAck
  | .getSdaPin => .getSdaPin
  | .getSclPin => .getSclPin

/-- CONFIGURE up to its call of `init`, for two mapped pins. -/
def configureEntry (sdaPin sclPin : PinId) (speed : Speed) (gSda gScl : Nat) (s : State) : Option State :=
  (recalibrate (latchConfig sdaPin sclPin speed gSda gScl (accept .configure .setup s))).map pinSetup

/-- The state in which a command's sequence of calls begins. -/
inductive Enters : Instr → State → State → Prop where
  | configure {sdaPin sclPin : PinId} {speed : Speed} {gSda gScl : Nat} {s u : State}
      (idle : s.configured = true → s.ls = ⟨true, true⟩) (sda : pinMap sdaPin s = some gSda)
      (scl : pinMap sclPin s = some gScl) (distinct : gSda ≠ gScl)
      (entry : configureEntry sdaPin sclPin speed gSda gScl s = some u) : Enters (.configure sdaPin sclPin speed) s u
  | start {s u : State} (ready : s.configured = true) (entry : recalibrate (accept .start .cal s) = some u) :
      Enters .start s u
  | stop {s : State} (ready : s.configured = true) : Enters .stop s (accept .stop .record s)
  | writeByte {s : State} {b : Byte} (ready : s.configured = true) :
      Enters (.writeByte b) s { accept .writeByte .record s with shreg := b }
  | readByte {s : State} (ready : s.configured = true) :
      Enters .readByte s { accept .readByte .record s with shreg := 0 }
  | sendAck {s : State} (ready : s.configured = true) : Enters .sendAck s (accept .sendAck .record s)
  | sendNack {s : State} (ready : s.configured = true) : Enters .sendNack s (accept .sendNack .record s)
  | checkAck {s : State} (ready : s.configured = true) : Enters .checkAck s (accept .checkAck .record s)
  | getSdaPin {s : State} (ready : s.configured = true) : Enters .getSdaPin s (accept .getSdaPin .done s)
  | getSclPin {s : State} (ready : s.configured = true) : Enters .getSclPin s (accept .getSclPin .done s)

theorem accept_moved (cmd : Command) (ph : Phase) (s : State) : Moved s (accept cmd ph s) := .same rfl rfl rfl

/-- Recalibration: the delay of the armed speed at the frequency read, or nothing where it does not fit. -/
theorem recalibrate_eq (s : State) :
    recalibrate s =
      if calibrate s.cfg.speedHz.toNat s.env.nextFreq.cpuFreq < 2 ^ Config.counterWidth then
        some { s with
          delay := BitVec.ofNat Config.counterWidth (calibrate s.cfg.speedHz.toNat s.env.nextFreq.cpuFreq)
          upc := ⟨s.upc.cmd, s.upc.calls, .cal⟩
          env := s.env.settle.nextFreq
          hist := s.hist ++ [.freq s.env.nextFreq.cpuFreq]
          bus := s.bus ++ s.env.nextMoves.map s.lowPins }
      else none := by
  have e : recalibrate s = if delayFits (calibrate s.cfg.speedHz.toNat s.env.nextFreq.cpuFreq) then
      some { s with
        delay := BitVec.ofNat Config.counterWidth (calibrate s.cfg.speedHz.toNat s.env.nextFreq.cpuFreq)
        upc := ⟨s.upc.cmd, s.upc.calls, .cal⟩
        env := s.env.settle.nextFreq
        hist := s.hist ++ [.freq s.env.nextFreq.cpuFreq]
        bus := s.bus ++ s.env.nextMoves.map s.lowPins } else none := rfl
  rw [e, delayFits]
  simp only [decide_eq_true_eq]

/-- A recalibration is one event. -/
theorem recalibrate_moved {s t : State} (h : recalibrate s = some t) : Moved s t := by
  rw [recalibrate_eq] at h
  split at h
  · cases h
    exact .event rfl rfl rfl (List.suffix_refl _) (le_refl _) (by simp)
  · cases h

/-- What latching the configuration writes, and its two events. -/
theorem latchConfig_spec (sdaPin sclPin : PinId) (speed : Speed) (gSda gScl : Nat) (s : State) :
    ∃ env bus, latchConfig sdaPin sclPin speed gSda gScl s = { s with
        cfg := ⟨sdaPin, sclPin, clampSpeed speed⟩, gpioSda := gSda, gpioScl := gScl
        env := env, hist := s.hist ++ [.map sdaPin gSda, .map sclPin gScl], bus := bus }
      ∧ env = { s.env with heldLow := env.heldLow, moves := env.moves }
      ∧ Moved s (latchConfig sdaPin sclPin speed gSda gScl s) := by
  refine ⟨s.env.settle.settle, (latchConfig sdaPin sclPin speed gSda gScl s).bus, ?_, rfl, ?_⟩
  · simp [latchConfig, State.log, interleave]
  · let u : State := State.log (.map sdaPin gSda)
      { interleave { s with cfg := { s.cfg with sdaPin := sdaPin, sclPin := sclPin } } with gpioSda := gSda }
    exact Moved.trans (u := u) (.event rfl rfl rfl (List.suffix_refl _) (le_refl _) (List.prefix_append _ _))
      (.event rfl rfl rfl (List.suffix_refl _) (le_refl _) (List.prefix_append _ _))

/-- What the pin set-up of CONFIGURE writes, and its five events. -/
theorem pinSetup_spec (s : State) :
    ∃ env bus, pinSetup s = { s with
        drv := ⟨true, true⟩, upc := ⟨s.upc.cmd, s.upc.calls, .setup⟩
        env := env, hist := s.hist ++ [.ioff, .mode s.gpioSda, .mode s.gpioScl, .drv ⟨true, true⟩, .ion], bus := bus }
      ∧ env = { s.env with
          heldLow := env.heldLow, moves := env.moves
          intEnabled := true, openDrain := insertGpio s.gpioScl (insertGpio s.gpioSda s.env.openDrain) }
      ∧ Moved s (pinSetup s) := by
  refine ⟨(pinSetup s).env, (pinSetup s).bus, ?_, rfl, ?_⟩
  · simp [pinSetup, intEnable, intDisable, pinModeOpenDrain, linesWrite, State.log, State.recordPins, State.enter,
      interleave]
  · let a := intDisable (s.enter .setup)
    let b := pinModeOpenDrain s.gpioSda a
    let c := pinModeOpenDrain s.gpioScl b
    let d := linesWrite ⟨true, true⟩ c
    have ha : Moved s a := .event rfl rfl rfl (List.suffix_refl _) (le_refl _) (List.prefix_append _ _)
    have hb : Moved a b := .event rfl rfl rfl (List.suffix_refl _) (le_refl _) (List.prefix_append _ _)
    have hc : Moved b c := .event rfl rfl rfl (List.suffix_refl _) (le_refl _) (List.prefix_append _ _)
    have hd : Moved c d := (linesWrite_frame _ _).moved
    have he : Moved d (pinSetup s) := .event rfl rfl rfl (List.suffix_refl _) (le_refl _) (List.prefix_append _ _)
    exact (((ha.trans hb).trans hc).trans hd).trans he

/-- A GPIO list stays rising. -/
theorem insertGpio_pairwise (g : Nat) (l : List Nat) (h : l.Pairwise (· < ·)) :
    (insertGpio g l).Pairwise (· < ·) ∧ ∀ x, x ∈ insertGpio g l ↔ x = g ∨ x ∈ l := by
  induction l with
  | nil => simp [insertGpio]
  | cons y ys ih =>
    obtain ⟨hy, hys⟩ := List.pairwise_cons.mp h
    obtain ⟨i1, i2⟩ := ih hys
    simp only [insertGpio]
    by_cases h1 : g < y
    · rw [if_pos h1]
      refine ⟨List.pairwise_cons.mpr ⟨?_, h⟩, by simp⟩
      intro x hx
      rcases List.mem_cons.mp hx with rfl | hx
      · exact h1
      · exact h1.trans (hy x hx)
    · rw [if_neg h1]
      by_cases h2 : g = y
      · rw [if_pos h2]; exact ⟨h, by subst h2; simp⟩
      · rw [if_neg h2]
        refine ⟨List.pairwise_cons.mpr ⟨?_, i1⟩, ?_⟩
        · intro x hx
          rcases (i2 x).mp hx with rfl | hx
          · omega
          · exact hy x hx
        · intro x; simp only [List.mem_cons, i2 x]; tauto

/-- A refusal or a run: what `whenReady` does where it answers a next state. -/
theorem whenReady_next {k : State → Host.Outcome State Fault Refusal} {s t : State} (h : whenReady k s = .next t) :
    s.busy = false ∧ s.configured = true ∧ k s = .next t := by
  unfold whenReady at h
  cases hb : s.busy <;> cases hc : s.configured <;> simp_all

/-- A ready block runs. -/
theorem whenReady_ready {k : State → Host.Outcome State Fault Refusal} {s : State} (h : Ready s) :
    whenReady k s = k s := by
  simp [whenReady, h.1, h.2]

/-- A command that answers a next state was accepted, and is its sequence run from where it enters it. -/
theorem exec_next {i : Instr} {s t : State} (h : exec i s = .next t) :
    s.busy = false ∧ ∃ u, Enters i s u ∧ runCommand (commandOf i) u = .next t := by
  cases i with
  | configure sdaPin sclPin speed =>
    simp only [exec, execConfigure] at h
    split at h
    · cases h
    · rename_i hb
      split at h
      · cases h
      · rename_i hi
        split at h
        · cases h
        · cases h
        · rename_i gSda gScl hsda hscl
          simp only [configureMapped] at h
          split at h
          · cases h
          · rename_i hd
            split at h
            · cases h
            · rename_i u hu
              refine ⟨by simpa using hb, pinSetup u, .configure ?_ hsda hscl hd (by rw [configureEntry, hu]; rfl), h⟩
              intro hc
              simpa [hc, idleRequested] using hi
  | start =>
    rw [exec, execStart] at h
    obtain ⟨hb, hc, h⟩ := whenReady_next h
    split at h
    · cases h
    · rename_i u hu; exact ⟨hb, u, .start hc hu, h⟩
  | stop =>
    rw [exec, execStop] at h
    obtain ⟨hb, hc, h⟩ := whenReady_next h
    exact ⟨hb, _, .stop hc, h⟩
  | writeByte b =>
    rw [exec, execWriteByte] at h
    obtain ⟨hb, hc, h⟩ := whenReady_next h
    exact ⟨hb, _, .writeByte hc, h⟩
  | readByte =>
    rw [exec, execReadByte] at h
    obtain ⟨hb, hc, h⟩ := whenReady_next h
    exact ⟨hb, _, .readByte hc, h⟩
  | sendAck =>
    rw [exec, execSendAck] at h
    obtain ⟨hb, hc, h⟩ := whenReady_next h
    exact ⟨hb, _, .sendAck hc, h⟩
  | sendNack =>
    rw [exec, execSendNack] at h
    obtain ⟨hb, hc, h⟩ := whenReady_next h
    exact ⟨hb, _, .sendNack hc, h⟩
  | checkAck =>
    rw [exec, execCheckAck] at h
    obtain ⟨hb, hc, h⟩ := whenReady_next h
    exact ⟨hb, _, .checkAck hc, h⟩
  | getSdaPin =>
    rw [exec, execGetSdaPin] at h
    obtain ⟨hb, hc, h⟩ := whenReady_next h
    exact ⟨hb, _, .getSdaPin hc, h⟩
  | getSclPin =>
    rw [exec, execGetSclPin] at h
    obtain ⟨hb, hc, h⟩ := whenReady_next h
    exact ⟨hb, _, .getSclPin hc, h⟩

/-- A free block that enters a command runs its sequence. -/
theorem exec_enters {i : Instr} {s u : State} (hb : s.busy = false) (h : Enters i s u) :
    exec i s = runCommand (commandOf i) u := by
  cases h with
  | configure idle sda scl distinct entry =>
    have hi : (s.configured && !idleRequested s) = false := by
      cases hc : s.configured
      · rfl
      · simp [idleRequested, idle hc]
    rw [configureEntry, Option.map_eq_some_iff] at entry
    obtain ⟨v, hv, rfl⟩ := entry
    simp [exec, execConfigure, hb, hi, sda, scl, configureMapped, distinct, hv, commandOf]
  | start ready entry => simp [exec, execStart, whenReady, hb, ready, entry, commandOf]
  | stop ready => simp [exec, execStop, whenReady, hb, ready, commandOf]
  | writeByte ready => simp [exec, execWriteByte, whenReady, hb, ready, commandOf]
  | readByte ready => simp [exec, execReadByte, whenReady, hb, ready, commandOf]
  | sendAck ready => simp [exec, execSendAck, whenReady, hb, ready, commandOf]
  | sendNack ready => simp [exec, execSendNack, whenReady, hb, ready, commandOf]
  | checkAck ready => simp [exec, execCheckAck, whenReady, hb, ready, commandOf]
  | getSdaPin ready => simp [exec, execGetSdaPin, whenReady, hb, ready, commandOf]
  | getSclPin ready => simp [exec, execGetSclPin, whenReady, hb, ready, commandOf]

/-- What every entry leaves as acceptance sets it: `BUSY = 1`, the command, no call made; and what it does not touch. -/
theorem Enters.accepted {i : Instr} {s u : State} (h : Enters i s u) :
    (u.busy = true ∧ u.upc.cmd = some (commandOf i) ∧ u.upc.calls = 0 ∧ u.configured = s.configured ∧ u.ls = s.ls
      ∧ u.resp = s.resp ∧ u.raw = s.raw ∧ u.bitcnt = s.bitcnt ∧ u.pulsecnt = s.pulsecnt ∧ u.t0 = s.t0
      ∧ u.env.pulseOrder = s.env.pulseOrder ∧ u.env.pinMap = s.env.pinMap ∧ u.env.pace = s.env.pace
      ∧ u.env.host = s.env.host) ∧ Moved s u := by
  cases h with
  | @configure sdaPin sclPin speed gSda gScl _ _ _ _ _ _ entry =>
    rw [configureEntry, Option.map_eq_some_iff] at entry
    obtain ⟨v, hv, rfl⟩ := entry
    obtain ⟨e1, b1, h1, h1', m1⟩ := latchConfig_spec sdaPin sclPin speed gSda gScl (accept .configure .setup s)
    have m2 := recalibrate_moved hv
    obtain ⟨e3, b3, h3, h3', m3⟩ := pinSetup_spec v
    refine ⟨?_, ((accept_moved _ _ s).trans m1).trans (m2.trans m3)⟩
    rw [h1, recalibrate_eq] at hv
    split at hv
    · cases hv
      rw [h3, h3', h1']
      simp [accept, commandOf]
    · cases hv
  | start _ entry =>
    refine ⟨?_, (accept_moved _ _ s).trans (recalibrate_moved entry)⟩
    rw [recalibrate_eq] at entry
    split at entry
    · cases entry
      simp [accept, commandOf]
    · cases entry
  | _ => exact ⟨⟨rfl, rfl, rfl, rfl, rfl, rfl, rfl, rfl, rfl, rfl, rfl, rfl, rfl, rfl⟩, .same rfl rfl rfl⟩

/-! ## Run and end -/

/-- The two ways a run command ends. -/
theorem settle_next {r : Run} {t : State} (h : settle r = .next t) :
    (∃ u, r = .done u ∧ t = complete u) ∨ r = .waiting t := by
  cases r with
  | done u => simp only [settle, Host.Outcome.next.injEq] at h; exact .inl ⟨u, rfl, h.symm⟩
  | waiting u => simp only [settle, Host.Outcome.next.injEq] at h; exact .inr (by rw [h])

/-- Everything an accepted command can do: it makes all its calls and completes, or it waits in one of them. -/
theorem runCommand_spec (cmd : Command) (s : State) :
    ∃ t, runCommand cmd s = .next t ∧
      ((∃ u, runMicros (bodyOf cmd s.env.pulseOrder) s = .done u ∧ SequenceMoved s u
          ∧ u.upc.calls = s.upc.calls + callCount (bodyOf cmd s.env.pulseOrder) ∧ t = complete u) ∨
       (runMicros (bodyOf cmd s.env.pulseOrder) s = .waiting t ∧ SequenceMoved s t
          ∧ s.upc.calls ≤ t.upc.calls ∧ t.upc.calls < s.upc.calls + callCount (bodyOf cmd s.env.pulseOrder)
          ∧ (InDelayWait t ∨ InStretchWait t))) := by
  obtain ⟨u, hu, h⟩ := runMicros_spec (bodyOf cmd s.env.pulseOrder) s
  rcases h with ⟨e, hc⟩ | ⟨e, h1, h2, h3⟩
  · exact ⟨complete u, by rw [runCommand, e]; rfl, .inl ⟨u, e, hu, hc, rfl⟩⟩
  · exact ⟨u, by rw [runCommand, e]; rfl, .inr ⟨e, hu, h1, h2, h3⟩⟩

/-- Everything a step on a waiting command can do: the call in progress ends and the rest of the sequence runs, to its
end or to another wait, or the call waits on. -/
theorem resume_spec (s : State) (h : InDelayWait s ∨ InStretchWait s) :
    ∃ t, resume s = .next t ∧
      ((∃ v, resumeCall s = .done v ∧ CallFrame s v ∧ v.ls = s.ls ∧ v.drv = s.ls ∧ v.upc.phase ≠ .waitPoll
          ∧ ResumeEvents s v
          ∧ ((∃ u, runMicros (restOfCommand s) (callDone v) = .done u ∧ SequenceMoved (callDone v) u
              ∧ u.upc.calls = s.upc.calls + 1 + callCount (restOfCommand s) ∧ t = complete u)
            ∨ (runMicros (restOfCommand s) (callDone v) = .waiting t ∧ SequenceMoved (callDone v) t
              ∧ s.upc.calls + 1 ≤ t.upc.calls ∧ t.upc.calls < s.upc.calls + 1 + callCount (restOfCommand s)
              ∧ (InDelayWait t ∨ InStretchWait t)))) ∨
       (resumeCall s = .waiting t ∧ CallFrame s t ∧ t.ls = s.ls ∧ ResumeEvents s t
          ∧ ((InDelayWait t ∧ t.drv = s.drv ∧ t.t0 = s.t0) ∨ InStretchWait t))) := by
  obtain ⟨v, hf, hl, he, hr⟩ := resumeCall_spec s h
  rcases hr with ⟨e, hd, hp, -⟩ | ⟨e, hw⟩
  · have hcalls : (callDone v).upc.calls = s.upc.calls + 1 := by
      have : v.upc.calls = s.upc.calls := by rw [hf.state]
      simp [this]
    obtain ⟨u, hu, hk⟩ := runMicros_spec (restOfCommand s) (callDone v)
    rw [hcalls] at hk
    rcases hk with ⟨e', hc⟩ | ⟨e', h1, h2, h3⟩
    · exact ⟨complete u, by simp [resume, e, Run.bind, e', settle],
        .inl ⟨v, e, hf, hl, hd, hp, he, .inl ⟨u, e', hu, hc, rfl⟩⟩⟩
    · exact ⟨u, by simp [resume, e, Run.bind, e', settle],
        .inl ⟨v, e, hf, hl, hd, hp, he, .inr ⟨e', hu, h1, h2, h3⟩⟩⟩
  · exact ⟨v, by simp [resume, e, Run.bind, settle], .inr ⟨e, hf, hl, he, hw⟩⟩

/-! ## One step -/

/-- The cases of a step that answers a next state: a system reset; a command taken and run; a waiting command gone on
with; nothing presented. -/
theorem step_next {s t : State} (h : step s = .next t) :
    (∃ rest, s.env.host = .systemReset :: rest ∧ t = systemReset { s with env := { s.env with host := rest } })
    ∨ (∃ w i rest, s.busy = false ∧ s.env.host = .command w :: rest ∧ decode w = .ok i
        ∧ exec i { s with env := { s.env with host := rest } } = .next t)
    ∨ (s.busy = true ∧ s.env.host.head? ≠ some .systemReset ∧ resume s = .next t)
    ∨ (s.busy = false ∧ s.env.host = [] ∧ t = s) := by
  unfold step fetch at h
  cases hh : s.env.host with
  | nil =>
    simp only [hh] at h
    cases hb : s.busy
    · simp only [hb, Bool.false_eq_true, if_false, Host.Outcome.next.injEq] at h
      exact .inr (.inr (.inr ⟨rfl, rfl, h.symm⟩))
    · simp only [hb, if_true] at h
      exact .inr (.inr (.inl ⟨rfl, by simp, h⟩))
  | cons x rest =>
    cases x with
    | systemReset =>
      simp only [hh, Host.Outcome.next.injEq] at h
      exact .inl ⟨rest, rfl, h.symm⟩
    | command w =>
      cases hb : s.busy
      · simp only [hh, hb, Bool.false_eq_true, if_false, stepWord] at h
        split at h
        · rename_i i hi; exact .inr (.inl ⟨w, i, rest, rfl, rfl, hi, h⟩)
        · cases h
      · simp only [hh, hb, if_true] at h
        exact .inr (.inr (.inl ⟨rfl, by simp, h⟩))

/-! ## Going on to the end -/

/-- With a command executing and no reset, a step goes on with the command. -/
theorem step_busy {s : State} (hb : s.busy = true) (hr : NoReset s) : step s = resume s := by
  unfold NoReset at hr
  unfold step fetch
  cases hh : s.env.host with
  | nil => simp [hb]
  | cons x rest =>
    cases x with
    | systemReset => simp [hh] at hr
    | command w => simp [hb]

/-- A run to rest ends at rest. -/
theorem RunsToRest.free {s t : State} (h : RunsToRest s t) : t.busy = false := by
  induction h with
  | rest free => exact free
  | wait _ _ _ _ ih => exact ih

/-- What holds where a command waits, and is kept by every step on a waiting command as long as it waits, leads to what
its last step leaves. -/
theorem RunsToRest.keeps {P Q : State → Prop} {s t : State} (h : RunsToRest s t)
    (start : if s.busy then P s else Q s)
    (keep : ∀ u v, u.busy = true → NoReset u → P u → resume u = .next v → if v.busy then P v else Q v) : Q t := by
  induction h with
  | rest free => simpa [free] using start
  | wait busy noReset next _ ih =>
    exact ih (keep _ _ busy noReset (by simpa [busy] using start) (by rw [← step_busy busy noReset]; exact next))

/-- A command that is over was accepted, run from its entry, and gone on with as long as it waited. -/
theorem Completes.entry {i : Instr} {s t : State} (h : Completes i s t) :
    s.busy = false ∧ t.busy = false
      ∧ ∃ u v, Enters i s u ∧ runCommand (commandOf i) u = .next v ∧ RunsToRest v t := by
  obtain ⟨v, he, hr⟩ := h
  obtain ⟨hb, u, hu, hc⟩ := exec_next he
  exact ⟨hb, hr.free, u, v, hu, hc, hr⟩

end Sys2Proof.Machine
end

