-- ==== Sys2Proof/Laws/Decode.lean ====
section
/-! SUPPORT. The fields of a word put together from fields, and a word put together from its fields
(30_encoding.md R51). -/

namespace Sys2Proof

/-- A field above the low part of a word lies in the high part. -/
theorem extract_high {v w : Nat} (x : BitVec v) (y : BitVec w) (k st len : Nat) (h : st = w + k) :
    (x ++ y).extractLsb' st len = x.extractLsb' k len := by
  rw [BitVec.extractLsb'_append_eq_of_le (by omega), show st - w = k by omega]

/-- A field within the low part of a word lies there. -/
theorem extract_low {v w : Nat} (x : BitVec v) (y : BitVec w) (st len : Nat) (h : st + len ≤ w) :
    (x ++ y).extractLsb' st len = y.extractLsb' st len := BitVec.extractLsb'_append_eq_of_add_le h

/-! ## Fields of encoded words -/

theorem opcodeField_encodeN (o : BitVec 8) : opcodeField (encodeN o) = o :=
  (extract_high o 0#56 0 56 8 rfl).trans (by simp)

theorem zeroField_encodeN (o : BitVec 8) : (encodeN o).extractLsb' 0 56 = 0 :=
  (extract_low o 0#56 0 56 (by decide)).trans (by simp)

theorem opcodeField_encodeB (o : BitVec 8) (b : Byte) : opcodeField (encodeB o b) = o :=
  (extract_high (o ++ b) 0#48 8 56 8 rfl).trans ((extract_high o b 0 8 8 rfl).trans (by simp))

theorem operandField_encodeB (o : BitVec 8) (b : Byte) : operandField (encodeB o b) = b :=
  (extract_high (o ++ b) 0#48 0 48 8 rfl).trans ((extract_low o b 0 8 (by decide)).trans (by simp))

theorem zeroField_encodeB (o : BitVec 8) (b : Byte) : (encodeB o b).extractLsb' 0 48 = 0 :=
  (extract_low (o ++ b) 0#48 0 48 (by decide)).trans (by simp)

theorem opcodeField_encodeC (o : BitVec 8) (a b : PinId) (c : Speed) : opcodeField (encodeC o a b c) = o :=
  (extract_high (o ++ a ++ b ++ c) 0#8 48 56 8 rfl).trans <| (extract_high (o ++ a ++ b) c 16 48 8 rfl).trans <|
    (extract_high (o ++ a) b 8 16 8 rfl).trans <| (extract_high o a 0 8 8 rfl).trans (by simp)

theorem operandField_encodeC (o : BitVec 8) (a b : PinId) (c : Speed) : operandField (encodeC o a b c) = a :=
  (extract_high (o ++ a ++ b ++ c) 0#8 40 48 8 rfl).trans <| (extract_high (o ++ a ++ b) c 8 40 8 rfl).trans <|
    (extract_high (o ++ a) b 0 8 8 rfl).trans <| (extract_low o a 0 8 (by decide)).trans (by simp)

theorem sclPinField_encodeC (o : BitVec 8) (a b : PinId) (c : Speed) : sclPinField (encodeC o a b c) = b :=
  (extract_high (o ++ a ++ b ++ c) 0#8 32 40 8 rfl).trans <| (extract_high (o ++ a ++ b) c 0 32 8 rfl).trans <|
    (extract_low (o ++ a) b 0 8 (by decide)).trans (by simp)

theorem speedField_encodeC (o : BitVec 8) (a b : PinId) (c : Speed) : speedField (encodeC o a b c) = c :=
  (extract_high (o ++ a ++ b ++ c) 0#8 0 8 32 rfl).trans <|
    (extract_low (o ++ a ++ b) c 0 32 (by decide)).trans (by simp)

theorem zeroField_encodeC (o : BitVec 8) (a b : PinId) (c : Speed) : (encodeC o a b c).extractLsb' 0 8 = 0 :=
  (extract_low (o ++ a ++ b ++ c) 0#8 0 8 (by decide)).trans (by simp)

/-! ## Words from their fields -/

/-- A word is its opcode and its low 56 bits. -/
theorem word_of_fieldsN (w : CommandWord) : (opcodeField w ++ w.extractLsb' 0 56 : CommandWord) = w := by
  have h := BitVec.extractLsb'_append_extractLsb'_eq_extractLsb' (x := w) (start₂ := 56) (start₁ := 0) (len₁ := 56)
    (len₂ := 8) rfl
  simp only [Nat.reduceAdd] at h
  rw [opcodeField, h]; simp

/-- A word is its opcode, its byte operand and its low 48 bits. -/
theorem word_of_fieldsB (w : CommandWord) :
    (opcodeField w ++ operandField w ++ w.extractLsb' 0 48 : CommandWord) = w := by
  have h1 := BitVec.extractLsb'_append_extractLsb'_eq_extractLsb' (x := w) (start₂ := 56) (start₁ := 48) (len₁ := 8)
    (len₂ := 8) rfl
  have h2 := BitVec.extractLsb'_append_extractLsb'_eq_extractLsb' (x := w) (start₂ := 48) (start₁ := 0) (len₁ := 48)
    (len₂ := 16) rfl
  simp only [Nat.reduceAdd] at h1 h2
  rw [opcodeField, operandField, h1, h2]; simp

/-- A word is its opcode, its three operands and its low 8 bits. -/
theorem word_of_fieldsC (w : CommandWord) :
    (opcodeField w ++ operandField w ++ sclPinField w ++ speedField w ++ w.extractLsb' 0 8 : CommandWord) = w := by
  have h1 := BitVec.extractLsb'_append_extractLsb'_eq_extractLsb' (x := w) (start₂ := 56) (start₁ := 48) (len₁ := 8)
    (len₂ := 8) rfl
  have h2 := BitVec.extractLsb'_append_extractLsb'_eq_extractLsb' (x := w) (start₂ := 48) (start₁ := 40) (len₁ := 8)
    (len₂ := 16) rfl
  have h3 := BitVec.extractLsb'_append_extractLsb'_eq_extractLsb' (x := w) (start₂ := 40) (start₁ := 8) (len₁ := 32)
    (len₂ := 24) rfl
  have h4 := BitVec.extractLsb'_append_extractLsb'_eq_extractLsb' (x := w) (start₂ := 8) (start₁ := 0) (len₁ := 8)
    (len₂ := 56) rfl
  simp only [Nat.reduceAdd] at h1 h2 h3 h4
  rw [opcodeField, operandField, sclPinField, speedField, h1, h2, h3, h4]; simp

end Sys2Proof
end

