-- ==== Sys2Proof/Laws/PerInstr.lean ====
section
/-! SUPPORT. Statements made of every command, one lemma per constructor: the encoded word has the command's opcode in
bits 63:56 (30_encoding.md R51, R52). -/

namespace Sys2Proof.Laws.OpcodeField

/-- The opcode field of the encoded command is the command's opcode. -/
def Statement (i : Instr) : Prop := opcodeField (encode i) = i.opcode

theorem configure (sdaPin sclPin : PinId) (speed : Speed) : Statement (.configure sdaPin sclPin speed) :=
  opcodeField_encodeC _ _ _ _
theorem start : Statement .start := opcodeField_encodeN _
theorem stop : Statement .stop := opcodeField_encodeN _
theorem writeByte (b : Byte) : Statement (.writeByte b) := opcodeField_encodeB _ _
theorem readByte : Statement .readByte := opcodeField_encodeN _
theorem sendAck : Statement .sendAck := opcodeField_encodeN _
theorem sendNack : Statement .sendNack := opcodeField_encodeN _
theorem checkAck : Statement .checkAck := opcodeField_encodeN _
theorem getSdaPin : Statement .getSdaPin := opcodeField_encodeN _
theorem getSclPin : Statement .getSclPin := opcodeField_encodeN _

end Sys2Proof.Laws.OpcodeField
end

