-- ==== Sys2Proof/Tests/Slice0.lean ====
section
/-! SUPPORT. Tests and witnesses. A test's expected result is a vector of 95_test_vectors.md, named in its docstring, or
a hand calculation from a rule. A witness shows a concrete state that meets the hypotheses of an obligation. -/

namespace Sys2Proof.Tests.Slice0

open Sys2Proof Sys2Proof.Machine

/-! ## Helpers -/

/-- Whether an outcome is a next state with a property. -/
def after (o : Host.Outcome State Fault Refusal) (p : State → Bool) : Bool :=
  match o with
  | .next t => p t
  | .fault _ => false
  | .refused _ => false

/-- The next state of an outcome, or the reset state. -/
def nextOf (o : Host.Outcome State Fault Refusal) : State :=
  match o with
  | .next t => t
  | .fault _ => State.reset
  | .refused _ => State.reset

/-- An outcome that is a next state is the next state it holds. -/
theorem next_of_after {o : Host.Outcome State Fault Refusal} (h : after o (fun _ => true) = true) :
    o = .next (nextOf o) := by
  cases o with
  | next t => rfl
  | fault r => simp [after] at h
  | refused r => simp [after] at h

/-- Where a command that waits is over, if it is within `n` steps. -/
def restOf : Nat → State → Option State
  | 0, s => if s.busy then none else some s
  | n + 1, s =>
    if s.busy then
      if s.env.host.head? = some .systemReset then none
      else
        match step s with
        | .next t => restOf n t
        | .fault _ => none
        | .refused _ => none
    else some s

theorem runsToRest_of {n : Nat} {s t : State} (h : restOf n s = some t) : RunsToRest s t := by
  induction n generalizing s with
  | zero =>
    cases hb : s.busy <;> simp [restOf, hb] at h
    subst h; exact .rest hb
  | succ n ih =>
    cases hb : s.busy with
    | false => simp [restOf, hb] at h; subst h; exact .rest hb
    | true =>
      by_cases hr : s.env.host.head? = some .systemReset
      · simp [restOf, hb, hr] at h
      · cases hs : step s with
        | next u => simp [restOf, hb, hr, hs] at h; exact .wait hb hr hs (ih h)
        | fault r => simp [restOf, hb, hr, hs] at h
        | refused r => simp [restOf, hb, hr, hs] at h

/-- Where a command is over, within `n` steps after the one that takes it, or the reset state. -/
def endOf (n : Nat) (i : Instr) (s : State) : State := (restOf n (nextOf (exec i s))).getD State.reset

theorem completes_of {n : Nat} {i : Instr} {s : State} (h1 : after (exec i s) (fun _ => true) = true)
    (h2 : (restOf n (nextOf (exec i s))).isSome = true) : Completes i s (endOf n i s) := by
  refine ⟨_, next_of_after h1, runsToRest_of (n := n) ?_⟩
  rw [endOf]
  obtain ⟨t, ht⟩ := Option.isSome_iff_exists.mp h2
  rw [ht]; rfl

/-- Whether a part of a sequence has ended. -/
def ended (r : Run) : Bool :=
  match r with
  | .done _ => true
  | .waiting _ => false

theorem done_of_ended {r : Run} (h : ended r = true) : r = .done r.state := by
  cases r with
  | done t => rfl
  | waiting t => simp [ended] at h

theorem waiting_of_ended {r : Run} (h : ended r = false) : r = .waiting r.state := by
  cases r with
  | done t => simp [ended] at h
  | waiting t => rfl

/-- A quiet environment: frequency 80, a counter that passes 300 between reads, pins 1 and 2 on their own GPIOs and
pin 3 on the GPIO of pin 2. -/
def env : Env := { Env.atReset with pinMap := [(2, 12), (1, 11), (3, 12)], cpuFreq := 80, pace := 300 }

/-- From reset, with that environment. -/
def fresh : State := { State.reset with env := env }

/-- After CONFIGURE 2, 1, 100000, with the lines requested as given (the end state of program P1, but for `LS`). -/
def at' (l : Lines) : State :=
  { fresh with
    cfg := ⟨2, 1, 100000⟩, gpioSda := 12, gpioScl := 11, delay := 270, ls := l, drv := l, configured := true
    resp := 100000 }

/-- The same with no delay. -/
def fast (l : Lines) : State := { at' l with delay := 0 }

/-- A state in whose first delay wait the counter needs a second poll. -/
def unhurried (l : Lines) : State := { at' l with env := { env with ticks := [0, 200] } }

/-- SDA is GPIO 12 and SCL is GPIO 11. What the environment holds low changes before some of the next `n` events: each
pair is the number of an event, counted from 0, and the GPIOs held low from before it on. -/
def moving (n : Nat) (changes : List (Nat × List Nat)) (s : State) : State :=
  { s with env := { s.env with
      moves := (List.range n).map fun i => (changes.filter fun c => c.1 == i).map fun c => c.2 } }

/-- SCL is held low for good (program P5). -/
def stuck (s : State) : State := { s with env := { s.env with heldLow := [11] } }

/-- The counter has stopped. -/
def stopped (s : State) : State := { s with env := { s.env with pace := 0 } }

/-- CHECK_ACK waiting in its stretch poll, SCL held low for good. -/
def hung : State := nextOf (exec .checkAck (stuck (fast ⟨false, true⟩)))

/-- STOP waiting in the delay wait of its first call, the counter stopped. -/
def slow : State := nextOf (exec .stop (stopped (at' ⟨true, false⟩)))

/-! ## WellFormed -/

/-- U6: a CONFIGURE with one pin for both lines is ill-formed; with two it is well-formed. -/
theorem test_wellformed_configure :
    (Instr.configure 2 2 100000).wellFormed = false ∧ (Instr.configure 2 1 100000).wellFormed = true := by decide

/-! ## Encoding (V-ENC1 to V-ENC16, V-INV1 to V-INV7) -/

theorem test_decode_configure : decode 0x01040500061A8000 = .ok (.configure 4 5 400000) := by decide
theorem test_decode_start : decode 0x0200000000000000 = .ok .start := by decide
theorem test_decode_stop : decode 0x0300000000000000 = .ok .stop := by decide
theorem test_decode_writeByte : decode 0x04A0000000000000 = .ok (.writeByte 0xA0) := by decide
theorem test_decode_readByte : decode 0x0500000000000000 = .ok .readByte := by decide
theorem test_decode_sendAck : decode 0x0600000000000000 = .ok .sendAck := by decide
theorem test_decode_sendNack : decode 0x0700000000000000 = .ok .sendNack := by decide
theorem test_decode_checkAck : decode 0x0800000000000000 = .ok .checkAck := by decide
theorem test_decode_getSdaPin : decode 0x0900000000000000 = .ok .getSdaPin := by decide
theorem test_decode_getSclPin : decode 0x0A00000000000000 = .ok .getSclPin := by decide

/-- V-INV1, V-INV3, V-INV4, V-INV5, V-INV7. -/
theorem test_decode_invalid :
    decode 0x0000000000000000 = .error .unknownOpcode ∧ decode 0xFF00000000000000 = .error .unknownOpcode
    ∧ decode 0x0200000000000001 = .error .reservedBitSet ∧ decode 0x04A0000000000100 = .error .reservedBitSet
    ∧ decode 0x0500010000000000 = .error .reservedBitSet := by decide

/-- V-ENC3, V-ENC8 the other way. -/
theorem test_encode :
    encode (.configure 2 1 500) = 0x010201000001F400 ∧ encode (.writeByte 0xA0) = 0x04A0000000000000 := by decide

/-- 30_encoding.md R55, with a hexadecimal operand and a comment. -/
theorem test_text :
    parseLine "WRITE_BYTE 0xA0 ; address".toList = some (.writeByte 0xA0)
    ∧ parseLine "CONFIGURE 2, 1, 100000".toList = some (.configure 2 1 100000)
    ∧ parseLine "CONFIGURE 2, 1, 4294967296".toList = none := by decide

/-! ## calibrate (V-CAL1 to V-CAL7, V-CAL18, V-CAL19) -/

theorem test_calibrate :
    calibrate 1000 80 = 39870 ∧ calibrate 300000 80 = 3 ∧ calibrate 307692 80 = 0 ∧ calibrate 307693 80 = 0
    ∧ calibrate 40000001 80 = 0 ∧ calibrate 1000 0 = 0 ∧ calibrate 1000 8589934 = 4294966870
    ∧ calibrate 1000 8589935 = 4294967370 := by decide

/-! ## The delay wait and set_lines -/

/-- V-W3: the counter wraps between the polls; T0 is 0xFFFFFF00 and the reads show 240, which waits, and 272. -/
theorem test_wait_wraps :
    let s := { at' ⟨true, true⟩ with env := { env with cycles := 0xFFFFFF00, ticks := [0, 0xF0, 0x20] } }
    let u := (waitCycles s).state
    eventsBetween s u = [.cyc 0xFFFFFF00, .cyc 0xFFFFFFF0] ∧ ended (waitCycles s) = false
      ∧ eventsBetween u (pollDelay u).state = [.cyc 0x00000010] ∧ ended (pollDelay u) = true := by decide

/-- V-SL2: a third `CycleRead` ends the delay wait; two low answers, three polls. -/
theorem test_setLines_stretch :
    let m := moving 8 [(4, [11]), (7, [])] (at' ⟨true, false⟩)
    let s := { m with env := { m.env with ticks := [1000, 100, 170] } }
    let next := fun t => (resumeCall t).state
    eventsBetween s (next (next (next (setLines 1 1 s).state)))
      = [.recorded ⟨true, true⟩, .cyc 1000, .cyc 1100, .cyc 1270, .drv ⟨true, true⟩, .rscl false, .rscl false,
          .rscl true] := by decide

/-- V-SL5: operands are masked to bit 0. -/
theorem test_setLines_masks :
    eventsBetween (fast ⟨true, true⟩) (setLines 3 2 (fast ⟨true, true⟩)).state
      = [.recorded ⟨true, false⟩, .drv ⟨true, false⟩] := by decide

/-! ## The commands -/

set_option maxRecDepth 100000 in
/-- V-CFG1: the registers at the end, from reset. -/
theorem test_configure_registers :
    after (exec (.configure 2 1 100000) fresh) (fun t =>
      t.cfg == ⟨2, 1, 100000⟩ && t.gpioSda == 12 && t.gpioScl == 11 && t.delay == 270 && t.ls == ⟨true, true⟩
        && t.drv == ⟨true, true⟩ && t.configured && !t.busy && t.resp == 100000) = true := by decide

/-- V-CFG6: U6 twice, U5, U4. -/
theorem test_configure_refused :
    exec (.configure 2 2 100000) fresh = .refused .pinsNotDistinct
    ∧ exec (.configure 2 3 100000) fresh = .refused .pinsNotDistinct
    ∧ exec (.configure 9 1 100000) fresh = .refused (.pinNotMapped 9)
    ∧ exec (.configure 2 1 100000) (at' ⟨false, true⟩) = .refused .configureNotIdle := by
  refine ⟨?_, ?_, ?_, ?_⟩ <;> rfl

/-- V-SS from (1,0), after an acknowledge, and the recalibration to 670 at 160. -/
theorem test_start :
    let s := { at' ⟨true, false⟩ with env := { env with freqs := [160], pace := 700 } }
    after (exec .start s) (fun t =>
      callsBetween s t == [⟨true, false⟩, ⟨true, true⟩, ⟨false, true⟩] && t.delay == 670 && t.ls == ⟨false, true⟩
        && t.resp == 0 && deviceView s t == [.start]) = true := by decide

/-- V-SS: STOP from idle shows a START and a STOP. -/
theorem test_stop :
    let s := fast ⟨true, true⟩
    after (exec .stop s) (fun t =>
      callsBetween s t == [⟨false, true⟩, ⟨false, true⟩, ⟨true, true⟩] && deviceView s t == [.start, .stop]) = true := by
  decide

/-- V-WR2. -/
theorem test_writeByte :
    let s := fast ⟨true, false⟩
    after (exec (.writeByte 0x5A) s) (fun t =>
      callsBetween s t == [⟨false, false⟩, ⟨false, true⟩, ⟨true, false⟩, ⟨true, true⟩, ⟨false, false⟩, ⟨false, true⟩,
        ⟨true, false⟩, ⟨true, true⟩, ⟨true, false⟩, ⟨true, true⟩, ⟨false, false⟩, ⟨false, true⟩, ⟨true, false⟩,
        ⟨true, true⟩, ⟨false, false⟩, ⟨false, true⟩] && t.ls == ⟨false, true⟩ && t.resp == 0) = true := by decide

/-- A slave that holds SCL low through the first rise of WRITE_BYTE and lets go at the second poll: still one high phase
for each bit, so bits 7 to 1 of 0x5A (44_byte_transfer.md R121 (a)). -/
theorem test_writeByte_stretched :
    let s := moving 6 [(2, [11]), (5, [])] (fast ⟨true, false⟩)
    after (step (nextOf (exec (.writeByte 0x5A) s))) (fun t =>
      !t.busy && deviceView s t == [.bit false, .bit true, .bit false, .bit true, .bit true, .bit false, .bit true])
      = true := by decide

/-- V-RD1: SDA is low from the third sample to the sixth. -/
theorem test_readByte :
    let s := moving 40 [(14, [12]), (38, [])] (fast ⟨true, false⟩)
    after (exec .readByte s) (fun t => t.resp == 0xC3 && t.ls == ⟨true, false⟩) = true := by decide

/-- V-RD7: the block holds SDA low. -/
theorem test_readByte_held :
    after (exec .readByte (fast ⟨false, true⟩)) (fun t => t.resp == 0 && t.ls == ⟨false, false⟩) = true := by decide

/-- V-ACK6. -/
theorem test_sendAck :
    let s := fast ⟨false, true⟩
    after (exec .sendAck s) (fun t =>
      callsBetween s t == [⟨false, false⟩, ⟨false, false⟩, ⟨false, true⟩, ⟨false, false⟩, ⟨true, false⟩]
        && t.ls == ⟨true, false⟩) = true := by decide

/-- V-ACK7. -/
theorem test_sendNack :
    let s := fast ⟨false, false⟩
    after (exec .sendNack s) (fun t =>
      callsBetween s t == [⟨false, false⟩, ⟨true, false⟩, ⟨true, true⟩, ⟨true, false⟩, ⟨true, false⟩]
        && t.ls == ⟨true, false⟩) = true := by decide

/-- V-ACK3: raw 0 is true; a slave that pulls SDA low while SCL is low shows as the data bit 0 (20_memory.md R49). -/
theorem test_checkAck_ack :
    let s := moving 3 [(2, [12])] (fast ⟨false, true⟩)
    after (exec .checkAck s) (fun t => t.resp == 1 && t.ls == ⟨true, false⟩ && deviceView s t == [.bit false])
      = true := by decide

/-- V-ACK4: raw 1 is false. -/
theorem test_checkAck_nack :
    let s := fast ⟨false, true⟩
    after (exec .checkAck s) (fun t => t.resp == 0 && deviceView s t == [.bit true]) = true := by decide

/-- V-CFG5. -/
theorem test_getPins :
    after (exec .getSdaPin (at' ⟨true, true⟩)) (fun t => t.resp == 2 && t.hist == []) = true
    ∧ after (exec .getSclPin (at' ⟨true, true⟩)) (fun t => t.resp == 1 && t.hist == []) = true := by decide

/-- P5: the hang of CHECK_ACK. -/
theorem test_hang :
    hung.busy = true ∧ hung.upc = ⟨some .checkAck, 1, .stretchPoll⟩ ∧ hung.ls = ⟨true, true⟩
    ∧ hung.drv = ⟨true, true⟩ ∧ hung.resp = 100000 ∧ samplesBetween (fast ⟨false, true⟩) hung = [] := by decide

/-- P5: the next command is refused, and the hang goes on. -/
theorem test_hang_goes_on :
    exec .stop hung = .refused .commandWhileBusy
    ∧ after (step hung) (fun t => t.busy && t.upc == ⟨some .checkAck, 1, .stretchPoll⟩) = true := ⟨rfl, by decide⟩

/-- Going on: the stretch ends, and SDA then reads 0. -/
theorem test_stretch_ends :
    after (step (moving 1 [(0, [12])] hung)) (fun t => !t.busy && t.resp == 1 && t.ls == ⟨true, false⟩) = true := by
  decide

/-- The word a host presents next runs as the first command after reset (V-ENC6 refused there by U2). -/
theorem test_fetch_start :
    step (State.reset.withFetchWord 64 0x0200000000000000) = .refused .notConfigured := rfl

set_option maxRecDepth 100000 in
/-- CONFIGURE as the first command after reset. -/
theorem test_fetch_configure :
    after (step (State.reset.withFetchWord 64 0x010201000186A000)) (fun t => t.configured && !t.busy) = true := by decide

/-! ## Witnesses

Each is named after the obligation whose hypotheses it meets. -/

theorem witness_EncodeInvertsDecode : decode 0x010201000186A000 = .ok (.configure 2 1 100000) := by decide

theorem witness_OperandsAreTheWordsFields :
    decode 0x0100FFFFFFFFFF00 = .ok (.configure 0 255 4294967295) ∧ decode 0x04FF000000000000 = .ok (.writeByte 0xFF) := by
  decide

theorem witness_StepRunsDecodedCommand :
    ∃ s : State, s.busy = false ∧ s.env.host = [.command 0x0300000000000000]
      ∧ decode 0x0300000000000000 = .ok .stop := ⟨present 0x0300000000000000 (at' ⟨false, true⟩), rfl, rfl, by decide⟩

theorem witness_StepRefusesInvalidWord :
    ∃ s : State, s.busy = false ∧ s.env.host = [.command 0x0B00000000000000]
      ∧ ∀ row ∈ opcodeMap, matchesRow 0x0B00000000000000 row = false :=
  ⟨present 0x0B00000000000000 fresh, rfl, rfl, fun row h => by
    have k := List.all_eq_true.mp
      (show opcodeMap.all (fun r => !matchesRow 0x0B00000000000000 r) = true by decide) row h
    simpa using k⟩

theorem witness_SystemResetFromAnyState :
    ({ hung with env := { hung.env with host := [.systemReset] } } : State).env.host = [.systemReset] := rfl

/-- V-CAL5 and V-CAL4, the two sides of the clamp. -/
theorem witness_CalibrateFormula : 80 * 500000 / 307693 < 130 ∧ 130 ≤ 80 * 500000 / 307692 := by decide

theorem witness_CalibrateMonotone : (1 : Nat) ≤ 307692 ∧ (307692 : Nat) ≤ 307693 := by decide

theorem witness_CalibrateClampBoundary : 307692 * 130 ≤ 80 * 500000 ∧ 80 * 500000 < 307693 * 130 := by decide

theorem witness_DelayFitsUpToFrequencyBound : (1000 : Nat) ≤ 1000 ∧ (8589934 : Nat) ≤ 8589934 := by decide

/-- The first poll ends the wait, or not. -/
theorem witness_waitCycles :
    (∃ s t : State, waitCycles s = .done t) ∧ (∃ s t : State, waitCycles s = .waiting t) :=
  ⟨⟨at' ⟨true, true⟩, _, done_of_ended (by decide)⟩, ⟨stopped (at' ⟨true, true⟩), _, waiting_of_ended (by decide)⟩⟩

theorem witness_PinReadIsWiredAnd : ∃ s : State, s.env.moves.tail = [] := ⟨fast ⟨true, true⟩, rfl⟩

theorem witness_SelectedPinsAreTheOnesDriven : ∃ s : State, s.gpioSda ≠ s.gpioScl :=
  ⟨fast ⟨true, true⟩, show (12 : Nat) ≠ 11 by decide⟩

/-- The four corners: with and without a delay, SCL requested low and high. -/
theorem witness_SetLinesFiveSteps :
    (∃ t, setLines 0 0 (fast ⟨true, true⟩) = .done t) ∧ (∃ t, setLines 1 1 (fast ⟨true, false⟩) = .done t)
    ∧ (∃ t, setLines 0 0 (at' ⟨true, true⟩) = .done t) ∧ (∃ t, setLines 1 1 (at' ⟨true, false⟩) = .done t) :=
  ⟨⟨_, done_of_ended (by decide)⟩, ⟨_, done_of_ended (by decide)⟩, ⟨_, done_of_ended (by decide)⟩,
    ⟨_, done_of_ended (by decide)⟩⟩

theorem witness_WaitingCallHoldsOldPairUntilApplied :
    (∃ t, setLines 0 1 (stopped (at' ⟨true, true⟩)) = .waiting t ∧ t.upc.phase = .waitPoll)
    ∧ (∃ t, setLines 1 1 (stuck (fast ⟨true, false⟩)) = .waiting t ∧ t.upc.phase = .stretchPoll) :=
  ⟨⟨_, waiting_of_ended (by decide), by decide⟩, ⟨_, waiting_of_ended (by decide), by decide⟩⟩

theorem witness_SetLinesIdempotent :
    ∃ s t u : State, s.env.moves = [] ∧ setLines 0 1 s = .done t ∧ setLines 0 1 t = .done u :=
  ⟨fast ⟨false, true⟩, _, _, rfl, done_of_ended (by decide), done_of_ended (by decide)⟩

/-- CHECK_ACK in its stretch poll, where SCL is going to be let go before the next event. -/
def released : State := moving 1 [(0, [])] hung

theorem released_waits : WaitsIn .checkAck released :=
  ⟨rfl, rfl, by decide, .inr ⟨rfl, rfl, rfl, rfl⟩⟩

theorem hung_waits : WaitsIn .checkAck hung ∧ InStretchWait hung := by
  have h : InStretchWait hung := ⟨rfl, rfl, rfl, rfl⟩
  exact ⟨⟨rfl, rfl, by decide, .inr h⟩, h⟩

theorem slow_waits : WaitsIn .stop slow ∧ InDelayWait slow := by
  have h : InDelayWait slow := ⟨by decide, by decide, by decide⟩
  exact ⟨⟨by decide, by decide, by decide, .inl h⟩, h⟩

/-- The slave lets go before the next read, and after two more reads. -/
theorem witness_StretchMakesOnePollPerLowAnswer :
    (WaitsIn .checkAck released ∧ InStretchWait released ∧ NoReset released ∧ released.env.HoldsFor released.gpioScl 0
      ∧ released.gpioScl ∉ released.env.heldAfter (0 + 1))
    ∧ ∃ s : State, WaitsIn .checkAck s ∧ InStretchWait s ∧ NoReset s ∧ s.env.HoldsFor s.gpioScl 2
      ∧ s.gpioScl ∉ s.env.heldAfter (2 + 1) :=
  ⟨⟨released_waits, ⟨rfl, rfl, rfl, rfl⟩, by unfold NoReset; decide, by unfold Env.HoldsFor; decide, by decide⟩,
    ⟨moving 3 [(0, [11, 12]), (2, [])] hung, ⟨rfl, rfl, by decide, .inr ⟨rfl, rfl, rfl, rfl⟩⟩, ⟨rfl, rfl, rfl, rfl⟩,
      by unfold NoReset; decide, by unfold Env.HoldsFor; decide, by decide⟩⟩

/-- The elapsed count of the next read is below the delay, and is not. -/
theorem witness_DelayWaitEndsAtFirstElapsedRead :
    (∃ s t : State, WaitsIn .stop s ∧ InDelayWait s ∧ NoReset s ∧ step s = .next t ∧ s.env.ticks.headD s.env.pace = 0)
    ∧ (∃ s t : State, WaitsIn .stop s ∧ InDelayWait s ∧ NoReset s ∧ step s = .next t
      ∧ s.env.ticks.headD s.env.pace = 270) :=
  ⟨⟨slow, _, slow_waits.1, slow_waits.2, by unfold NoReset; decide, next_of_after (by decide), by decide⟩,
    ⟨{ slow with env := { slow.env with ticks := [270] } }, _,
      ⟨by decide, by decide, by decide, .inl ⟨by decide, by decide, by decide⟩⟩, ⟨by decide, by decide, by decide⟩,
      by unfold NoReset; decide, next_of_after (by decide), rfl⟩⟩

theorem witness_StretchHangNeverCompletes :
    ∃ s : State, WaitsIn .checkAck s ∧ InStretchWait s ∧ s.env.HoldsForGood s.gpioScl ∧ NoReset s :=
  ⟨hung, hung_waits.1, hung_waits.2, ⟨by decide, by decide⟩, by unfold NoReset; decide⟩

theorem witness_StoppedCounterNeverCompletes :
    ∃ s : State, WaitsIn .stop s ∧ InDelayWait s ∧ (∀ x ∈ s.env.ticks, x = 0) ∧ s.env.pace = 0 ∧ NoReset s :=
  ⟨slow, slow_waits.1, slow_waits.2, by decide, rfl, by unfold NoReset; decide⟩

theorem witness_ServedWaitCompletes :
    ∃ s : State, WaitsIn .checkAck s ∧ NoReset s ∧ s.env.ReleasesAtLast s.gpioScl ∧ 1 ≤ s.env.pace
      ∧ s.env.pace + s.delay.toNat ≤ 2 ^ 32 :=
  ⟨released, released_waits, by unfold NoReset; decide, by unfold Env.ReleasesAtLast; decide, by decide, by decide⟩

/-- A state of `fast`, at the delay it was calibrated to. -/
def calibrated (s : State) : State := { s with delay := 270 }

/-- The invariant of a state in which CHECK_ACK waits in its second call, SCL held low for good or let go. -/
theorem checkAck_inv (m : List (List (List Nat))) :
    Inv (calibrated { hung with env := { hung.env with moves := m } }) where
  rest h := Bool.noConfusion h
  waits _ := ⟨.checkAck, ⟨rfl, rfl, show 1 < 3 by decide, .inr ⟨rfl, rfl, rfl, rfl⟩⟩, .inl rfl⟩
  inCall _ cmd h := by cases h; rfl
  lastCall _ cmd h k := by cases h; exact absurd k (show ¬ 1 + 1 = 3 by decide)
  steady _ cmd h := by cases h; exact ⟨fun _ _ => rfl, trivial⟩
  writeIndex _ h := by cases h
  readIndex _ h := by cases h
  readSamples _ h := by cases h
  rawSample _ _ h := absurd h (show ¬ 0 = 1 by decide)
  speed _ := show 1000 ≤ (100000 : Speed).toNat by decide
  sdaMapped _ := rfl
  sclMapped _ := rfl
  distinct _ := show 12 ≠ 11 by decide
  calibrated _ := show (270 : Cycles).toNat = calibrate 100000 80 by decide
  latched h := Bool.noConfusion h.1
  released h := Bool.noConfusion h
  bitcnt := show 0 < 8 by decide
  pulsecnt := show 0 < 28 by decide
  openDrain := List.Pairwise.nil

theorem waiting_inv : Inv (calibrated released) := checkAck_inv _

/-- READ_BYTE in the stretch poll of its second bit, with one sample of 1 taken; SCL is let go before the next event, and
SDA is then held low. -/
def reading : State := calibrated (nextOf (exec .readByte (moving 12 [(8, [11]), (11, [12])] (fast ⟨true, false⟩))))

theorem reading_waits : WaitsIn .readByte reading :=
  ⟨by decide, by decide, by decide, .inr ⟨by decide, by decide, by decide, by decide⟩⟩

theorem reading_inv : Inv reading where
  rest := by decide
  waits _ := ⟨.readByte, reading_waits, by decide⟩
  inCall _ cmd h := by
    have hc : reading.upc.cmd = some .readByte := by decide
    rw [hc] at h; cases h; decide
  lastCall _ cmd h k := by
    have hc : reading.upc.cmd = some .readByte := by decide
    rw [hc] at h; cases h; exact absurd k (by decide)
  steady _ cmd h := by
    have hc : reading.upc.cmd = some .readByte := by decide
    rw [hc] at h; cases h
    have e : reading.drv :: (pendingPairs reading ++ remainingPairs .readByte reading)
        = [⟨true, true⟩, ⟨true, false⟩, ⟨true, true⟩, ⟨true, false⟩, ⟨true, true⟩, ⟨true, false⟩, ⟨true, true⟩,
          ⟨true, false⟩, ⟨true, true⟩, ⟨true, false⟩, ⟨true, true⟩, ⟨true, false⟩, ⟨true, true⟩, ⟨true, false⟩] := by
      decide
    rw [e]; simp [SteadyRises]
  writeIndex _ h := absurd h (by decide)
  readIndex _ _ := by decide
  readSamples _ _ := ⟨[], [true], by decide, by decide, by decide⟩
  rawSample _ h := absurd h (by decide)
  speed _ := by decide
  sdaMapped _ := by decide
  sclMapped _ := by decide
  distinct _ := by decide
  calibrated _ := by decide
  latched h := absurd h.1 (by decide)
  released h := absurd h (by decide)
  bitcnt := by decide
  pulsecnt := by decide
  openDrain := by decide

theorem idle_inv (l : Lines) : Inv (at' l) where
  rest _ := rfl
  waits h := by cases h
  inCall h := by cases h
  lastCall h := by cases h
  steady h := by cases h
  writeIndex h := by cases h
  readIndex h := by cases h
  readSamples h := by cases h
  rawSample h := by cases h
  speed _ := show 1000 ≤ (100000 : Speed).toNat by decide
  sdaMapped _ := rfl
  sclMapped _ := rfl
  distinct _ := show 12 ≠ 11 by decide
  calibrated _ := show (270 : Cycles).toNat = calibrate 100000 80 by decide
  latched _ := rfl
  released _ h := by cases h
  bitcnt := show 0 < 8 by decide
  pulsecnt := show 0 < 28 by decide
  openDrain := List.Pairwise.nil

/-- A step that completes the command, and one that leaves it waiting again. -/
theorem witness_ResumedCommandMakesRemainingCalls :
    (∃ s t : State, Inv s ∧ WaitsIn .readByte s ∧ NoReset s ∧ step s = .next t ∧ t.busy = false)
    ∧ (∃ s t : State, Inv s ∧ WaitsIn .checkAck s ∧ NoReset s ∧ step s = .next t ∧ t.busy = true) :=
  ⟨⟨reading, _, reading_inv, reading_waits, by unfold NoReset; decide, next_of_after (by decide), by decide⟩,
    ⟨calibrated hung, _, checkAck_inv [], ⟨rfl, rfl, by decide, .inr ⟨rfl, rfl, rfl, rfl⟩⟩, by unfold NoReset; decide,
      next_of_after (by decide), by decide⟩⟩

/-- For READ_BYTE, seven of whose samples are taken after the wait, and for CHECK_ACK. -/
theorem witness_WaitedSamplesReachTheResponse :
    (∃ s t : State, Inv s ∧ NoReset s ∧ step s = .next t ∧ t.busy = false ∧ WaitsIn .readByte s ∧ t.resp = 0x80)
    ∧ (∃ s t : State, Inv s ∧ NoReset s ∧ step s = .next t ∧ t.busy = false ∧ WaitsIn .checkAck s) :=
  ⟨⟨reading, _, reading_inv, by unfold NoReset; decide, next_of_after (by decide), by decide, reading_waits, by decide⟩,
    ⟨calibrated released, _, waiting_inv, by unfold NoReset; decide, next_of_after (by decide), by decide,
      ⟨rfl, rfl, by decide, .inr ⟨rfl, rfl, rfl, rfl⟩⟩⟩⟩

/-- A read of SCL and a read of SDA in one step. -/
theorem witness_ReadsReturnTheLineLevel :
    ∃ s t : State, NoReset s ∧ step s = .next t ∧ (eventsBetween s t)[0]? = some (.rscl true)
      ∧ (eventsBetween s t)[1]? = some (.rsda true) :=
  ⟨released, _, by unfold NoReset; decide, next_of_after (by decide), by decide, by decide⟩

/-- Nothing else pulls any GPIO low. -/
theorem at_quiet (l : Lines) (g : Nat) : (at' l).env.Quiet g :=
  ⟨List.not_mem_nil, fun _ h => (List.not_mem_nil h).elim⟩

theorem unhurried_quiet (l : Lines) (g : Nat) : (unhurried l).env.Quiet g := at_quiet l g

theorem fast_quiet (l : Lines) (g : Nat) : (fast l).env.Quiet g := at_quiet l g

/-- From reset, and from idle; the speed below the lower clamp and above it. -/
theorem witness_ConfigureArmsTheBus :
    (∃ s : State, s.busy = false ∧ (s.configured = true → s.ls = ⟨true, true⟩) ∧ pinMap 2 s = some 12
      ∧ pinMap 1 s = some 11 ∧ calibrate (max (999 : Speed).toNat 1000) s.env.nextFreq.cpuFreq < 2 ^ 32
      ∧ s.configured = false)
    ∧ (∃ s : State, s.busy = false ∧ (s.configured = true → s.ls = ⟨true, true⟩) ∧ pinMap 2 s = some 12
      ∧ pinMap 1 s = some 11 ∧ calibrate (max (100000 : Speed).toNat 1000) s.env.nextFreq.cpuFreq < 2 ^ 32
      ∧ s.configured = true
      ∧ s.env.Serves 11 (calibrate (max (100000 : Speed).toNat 1000) s.env.nextFreq.cpuFreq)) :=
  ⟨⟨fresh, rfl, by decide, by decide, by decide, by decide, rfl⟩,
    ⟨at' ⟨true, true⟩, rfl, fun _ => rfl, by decide, by decide, by decide, rfl,
      by unfold Env.Serves Env.Quiet Env.CounterServes Shows; decide⟩⟩

theorem at_ready (l : Lines) : Ready (at' l) := ⟨rfl, rfl⟩

theorem fast_ready (l : Lines) : Ready (fast l) := ⟨rfl, rfl⟩

/-- With a delay of 270 and with none: the environment serves it, so the commands complete. -/
theorem at_serves (l : Lines) : (at' l).env.Serves (at' l).gpioScl (at' l).delay.toNat :=
  ⟨at_quiet l _, .inr ⟨fun _ h => (List.not_mem_nil h).elim, show 270 ≤ 300 % 2 ^ 32 by decide⟩⟩

theorem fast_serves (l : Lines) : (fast l).env.Serves (fast l).gpioScl (fast l).delay.toNat := ⟨at_quiet l _, .inl rfl⟩

theorem witness_StartRecalibratesAndStarts :
    ∃ s : State, Ready s ∧ calibrate s.cfg.speedHz.toNat s.env.nextFreq.cpuFreq < 2 ^ 32
      ∧ s.env.Serves s.gpioScl (calibrate s.cfg.speedHz.toNat s.env.nextFreq.cpuFreq) :=
  ⟨at' ⟨true, true⟩, at_ready _, by decide, by unfold Env.Serves Env.Quiet Env.CounterServes Shows; decide⟩

/-- For STOP, WRITE_BYTE, READ_BYTE, SEND_ACK, SEND_NACK, CHECK_ACK and the accessors, at each entry pair. -/
theorem witness_ready_and_served (l : Lines) :
    Ready (at' l) ∧ (at' l).env.Serves (at' l).gpioScl (at' l).delay.toNat :=
  ⟨at_ready l, at_serves l⟩

theorem witness_GetPinsBeforeConfigure : ∃ s : State, s.busy = false ∧ s.configured = false := ⟨fresh, rfl, rfl⟩

/-- A command that completes at once, and one that completes after a wait. -/
theorem witness_ResponseOfEveryCommand :
    (∃ s t : State, exec .sendAck s = .next t ∧ t.busy = false)
    ∧ (∃ s t : State, s.busy = true ∧ s.upc.cmd = some .checkAck ∧ NoReset s ∧ step s = .next t ∧ t.busy = false) :=
  ⟨⟨fast ⟨true, false⟩, _, next_of_after (by decide), by decide⟩,
    ⟨released, _, rfl, rfl, by unfold NoReset; decide, next_of_after (by decide), by decide⟩⟩

/-- An odd byte and an even one; the first WRITE_BYTE waits. -/
theorem witness_WiredReadAfterWrite :
    (∃ s t u : State, s.env.Quiet s.gpioSda ∧ Completes (.writeByte 0xA5) s t ∧ Completes .readByte t u
      ∧ after (exec (.writeByte 0xA5) s) (fun v => v.busy) = true)
    ∧ (∃ s t u : State, s.env.Quiet s.gpioSda ∧ Completes (.writeByte 0x5A) s t ∧ Completes .readByte t u) :=
  ⟨⟨unhurried ⟨false, true⟩, _, _, unhurried_quiet _ _,
      completes_of (n := 1) (by decide) (by decide), completes_of (n := 0) (by decide) (by decide), by decide⟩,
    ⟨fast ⟨false, true⟩, _, _, fast_quiet _ _, completes_of (n := 0) (by decide) (by decide),
      completes_of (n := 0) (by decide) (by decide)⟩⟩

/-- V-RT: the levels 1,0,1,0,0,1,0,1 of 0xA5, each set while SCL is low. -/
theorem witness_WrittenLevelsReadBack :
    ∃ s t : State, Completes .readByte s t
      ∧ samplesBetween s t = ((writePairs 0xA5).filter (fun l => l.scl)).map (fun l => l.sda) :=
  ⟨moving 48 [(8, [12]), (14, []), (20, [12]), (32, []), (38, [12]), (44, [])] (fast ⟨true, false⟩), _,
    completes_of (n := 0) (by decide) (by decide), by decide⟩

theorem witness_ReadByteHoldingSdaLowAnswersZero :
    ∃ s t : State, s.ls.sda = false ∧ Completes .readByte s t ∧ after (exec .readByte s) (fun v => v.busy) = true :=
  ⟨unhurried ⟨false, true⟩, _, rfl, completes_of (n := 1) (by decide) (by decide), by decide⟩

/-- Program P2, at a speed that calibrates to no delay: the state before its first command, and after each. The slave
pulls SDA low in the first acknowledge's high phase only: from before its clock rises until after it has fallen. -/
def p2start : State := { moving 59 [(52, [12]), (58, [])] (fast ⟨true, true⟩) with cfg := ⟨2, 1, 400000⟩ }
def p2address : State := nextOf (exec .start p2start)
def p2ack : State := nextOf (exec (.writeByte 0xA0) p2address)
def p2data : State := nextOf (exec .checkAck p2ack)
def p2nack : State := nextOf (exec (.writeByte 0x5A) p2data)
def p2stop : State := nextOf (exec .checkAck p2nack)
def p2end : State := nextOf (exec .stop p2stop)

theorem p2_completes :
    Completes .start p2start p2address ∧ Completes (.writeByte 0xA0) p2address p2ack ∧ Completes .checkAck p2ack p2data
    ∧ Completes (.writeByte 0x5A) p2data p2nack ∧ Completes .checkAck p2nack p2stop ∧ Completes .stop p2stop p2end := by
  refine ⟨⟨_, next_of_after ?_, .rest ?_⟩, ⟨_, next_of_after ?_, .rest ?_⟩, ⟨_, next_of_after ?_, .rest ?_⟩,
    ⟨_, next_of_after ?_, .rest ?_⟩, ⟨_, next_of_after ?_, .rest ?_⟩, ⟨_, next_of_after ?_, .rest ?_⟩⟩ <;> decide

/-- P2, none of whose commands waits; and a START that waits, the first command of a transaction. -/
theorem witness_TransactionEndsIdle :
    (∃ s₀ s₁ s₂ s₃ s₄ s₅ s₆ : State, Completes .start s₀ s₁ ∧ Completes (.writeByte 0xA0) s₁ s₂
      ∧ Completes .checkAck s₂ s₃ ∧ Completes (.writeByte 0x5A) s₃ s₄ ∧ Completes .checkAck s₄ s₅
      ∧ Completes .stop s₅ s₆)
    ∧ ∃ s t : State, Completes .start s t ∧ after (exec .start s) (fun v => v.busy) = true :=
  ⟨⟨_, _, _, _, _, _, _, p2_completes⟩,
    ⟨unhurried ⟨true, true⟩, _, completes_of (n := 1) (by decide) (by decide), by decide⟩⟩

set_option maxRecDepth 100000 in
/-- P2's bus view: START; 1,0,1,0,0,0,0,0; acknowledge 0; 0,1,0,1,1,0,1,0; acknowledge 1; STOP. -/
theorem test_p2_busView :
    deviceView p2start p2end = .start :: ([true, false, true, false, false, false, false, false, false, false, true,
      false, true, true, false, true, false, true].map .bit ++ [.stop]) := by decide

set_option maxRecDepth 100000 in
/-- Free, and with the first CONFIGURE waiting in its `init`. -/
theorem witness_OnlyConfigureBeforeConfigured :
    (∃ s : State, s.configured = false ∧ s.busy = false) ∧ (∃ s : State, s.configured = false ∧ s.busy = true)
    ∧ ∀ sda scl speed, Instr.start ≠ .configure sda scl speed :=
  ⟨⟨fresh, rfl, rfl⟩, ⟨nextOf (exec (.configure 2 1 100000) (stuck fresh)), by decide, by decide⟩,
    fun _ _ _ h => by cases h⟩

theorem witness_NoCommandWhileBusy : ∃ s t : State, s.busy = true ∧ NoReset s ∧ step s = .next t :=
  ⟨hung, _, rfl, by unfold NoReset; decide, next_of_after (by decide)⟩

/-- Each of the four refusals. -/
theorem witness_ConfigureRefusals :
    ((at' ⟨false, true⟩).configured = true ∧ (at' ⟨false, true⟩).ls ≠ ⟨true, true⟩)
    ∧ (fresh.configured = true → fresh.ls = ⟨true, true⟩)
    ∧ pinMap 9 fresh = none ∧ (pinMap 2 fresh = some 12 ∧ pinMap 9 fresh = none)
    ∧ (pinMap 2 fresh = some 12 ∧ pinMap 3 fresh = some 12) := by decide

/-- The first frequency beyond the bound, V-CAL19, at the lowest speed. -/
theorem witness_OversizeDelayRefused :
    (∃ s : State, Ready s ∧ 2 ^ 32 ≤ calibrate s.cfg.speedHz.toNat s.env.nextFreq.cpuFreq)
    ∧ (∃ s : State, s.busy = false ∧ (s.configured = true → s.ls = ⟨true, true⟩) ∧ pinMap 2 s = some 12
      ∧ pinMap 1 s = some 11 ∧ 2 ^ 32 ≤ calibrate (max (0 : Speed).toNat 1000) s.env.nextFreq.cpuFreq) :=
  ⟨⟨{ at' ⟨true, true⟩ with cfg := ⟨2, 1, 1000⟩, env := { env with freqs := [8589935] } }, ⟨rfl, rfl⟩, by decide⟩,
    ⟨{ fresh with env := { env with freqs := [8589935] } }, rfl, by decide, by decide, by decide, by decide⟩⟩

/-- A command runs, and a command that waits goes on. -/
theorem witness_StepKeepsInvariant :
    (∃ s t : State, Inv s ∧ s.busy = false ∧ step s = .next t) ∧ (∃ s t : State, Inv s ∧ s.busy = true ∧ step s = .next t) :=
  ⟨⟨at' ⟨true, true⟩, _, idle_inv _, rfl, next_of_after (by decide)⟩,
    ⟨calibrated released, _, waiting_inv, rfl, next_of_after (by decide)⟩⟩

/-- The host presents STOP, neither a CONFIGURE nor a START; and a command waits while a CONFIGURE is presented. -/
theorem witness_OnlyConfigureWritesConfiguration :
    (∃ s t : State, NoReset s ∧ step s = .next t ∧ s.configured = true
      ∧ (s.busy = false →
          ∀ w rest sda scl speed, s.env.host = .command w :: rest → decode w ≠ .ok (.configure sda scl speed)))
    ∧ (∃ s t : State, NoReset s ∧ step s = .next t
      ∧ (s.busy = false →
          ∀ w rest sda scl speed, s.env.host = .command w :: rest → decode w ≠ .ok (.configure sda scl speed))
      ∧ s.env.host = [.command 0x010201000186A000]) := by
  refine ⟨⟨present 0x0300000000000000 (fast ⟨false, true⟩), _, by unfold NoReset; decide, next_of_after (by decide), rfl,
    ?_⟩, ⟨present 0x010201000186A000 released, _, by unfold NoReset; decide, next_of_after (by decide), ?_, rfl⟩⟩
  · intro _ w rest sda scl speed h
    cases h
    exact fun h => by cases (show Except.ok Instr.stop = Except.ok (Instr.configure sda scl speed) from h)
  · intro h; cases h

theorem witness_OnlyConfigureAndStartWriteDelay :
    ∃ s t : State, NoReset s ∧ step s = .next t ∧
      (s.busy = false → ∀ w rest, s.env.host = .command w :: rest →
        decode w ≠ .ok .start ∧ ∀ sda scl speed, decode w ≠ .ok (.configure sda scl speed)) := by
  refine ⟨present 0x0300000000000000 (fast ⟨false, true⟩), _, by unfold NoReset; decide, next_of_after (by decide), ?_⟩
  intro _ w rest h
  cases h
  exact ⟨by decide, fun sda scl speed h => by
    cases (show Except.ok Instr.stop = Except.ok (Instr.configure sda scl speed) from h)⟩

theorem witness_StepsOnlyAddEvents : ∃ s t : State, step s = .next t := ⟨hung, _, next_of_after (by decide)⟩

/-- Two states that differ in every register that reset leaves unspecified; CONFIGURE is refused in one way, completes in
another, and in a third waits in its first delay wait. -/
def other (s : State) : State :=
  { s with
    cfg := ⟨7, 8, 9⟩, gpioSda := 5, gpioScl := 6, delay := 77, ls := ⟨true, false⟩, resp := 3, shreg := 4
    bitcnt := 5, pulsecnt := 6, t0 := 7, raw := true }

set_option maxRecDepth 100000 in
theorem witness_FirstConfigureIgnoresUnspecified :
    (∀ s, s = fresh ∨ s = stopped fresh → s.busy = false ∧ s.configured = false ∧ s.drv = ⟨true, true⟩
      ∧ other s = { s with
          cfg := (other s).cfg, gpioSda := (other s).gpioSda, gpioScl := (other s).gpioScl, delay := (other s).delay
          ls := (other s).ls, resp := (other s).resp, shreg := (other s).shreg, bitcnt := (other s).bitcnt
          pulsecnt := (other s).pulsecnt, t0 := (other s).t0, raw := (other s).raw })
    ∧ exec (.configure 9 1 100000) fresh = .refused (.pinNotMapped 9)
    ∧ (∃ t, exec (.configure 2 1 100000) fresh = .next t ∧ t.busy = false)
    ∧ (∃ t, exec (.configure 2 1 100000) (stopped fresh) = .next t ∧ t.upc.phase = .waitPoll) := by
  refine ⟨?_, rfl, ⟨_, next_of_after (by decide), by decide⟩, ⟨_, next_of_after (by decide), by decide⟩⟩
  rintro s (rfl | rfl) <;> exact ⟨rfl, rfl, rfl, rfl⟩

set_option maxRecDepth 100000 in
/-- A step that takes a command, and one that goes on with a command that waits. -/
theorem witness_SdaSteadyAsSclRises :
    (∃ s t : State, Inv s ∧ s.busy = false ∧ step s = .next t) ∧ (∃ s t : State, Inv s ∧ s.busy = true
      ∧ step s = .next t ∧ drivenBetween s t ≠ []) :=
  ⟨⟨at' ⟨false, true⟩, _, idle_inv _, rfl, next_of_after (by decide)⟩,
    ⟨reading, _, reading_inv, by decide, next_of_after (by decide), by decide⟩⟩

theorem fast_distinct (l : Lines) : (fast l).gpioSda ≠ (fast l).gpioScl := by simp [fast, at']

theorem unhurried_distinct (l : Lines) : (unhurried l).gpioSda ≠ (unhurried l).gpioScl := fast_distinct l

/-- Each of the two cases of the statement; in the first the command waits. -/
theorem witness_StartOnTheBus :
    (∃ s t : State, s.drv = s.ls ∧ s.gpioSda ≠ s.gpioScl ∧ s.env.Quiet s.gpioSda ∧ s.env.Quiet s.gpioScl
      ∧ Completes .start s t ∧ s.ls = ⟨false, true⟩ ∧ after (exec .start s) (fun v => v.busy) = true)
    ∧ (∃ s t : State, s.drv = s.ls ∧ s.gpioSda ≠ s.gpioScl ∧ s.env.Quiet s.gpioSda ∧ s.env.Quiet s.gpioScl
      ∧ Completes .start s t ∧ s.ls ≠ ⟨false, true⟩) :=
  ⟨⟨unhurried ⟨false, true⟩, _, rfl, unhurried_distinct _, unhurried_quiet _ _, unhurried_quiet _ _,
      completes_of (n := 1) (by decide) (by decide), rfl, by decide⟩,
    ⟨fast ⟨true, false⟩, _, rfl, fast_distinct _, fast_quiet _ _, fast_quiet _ _,
      completes_of (n := 0) (by decide) (by decide), by decide⟩⟩

theorem witness_StopOnTheBus :
    (∃ s t : State, s.drv = s.ls ∧ s.gpioSda ≠ s.gpioScl ∧ s.env.Quiet s.gpioSda ∧ s.env.Quiet s.gpioScl
      ∧ Completes .stop s t ∧ s.ls = ⟨true, true⟩ ∧ after (exec .stop s) (fun v => v.busy) = true)
    ∧ (∃ s t : State, s.drv = s.ls ∧ s.gpioSda ≠ s.gpioScl ∧ s.env.Quiet s.gpioSda ∧ s.env.Quiet s.gpioScl
      ∧ Completes .stop s t ∧ s.ls ≠ ⟨true, true⟩) :=
  ⟨⟨unhurried ⟨true, true⟩, _, rfl, unhurried_distinct _, unhurried_quiet _ _, unhurried_quiet _ _,
      completes_of (n := 1) (by decide) (by decide), rfl, by decide⟩,
    ⟨fast ⟨true, false⟩, _, rfl, fast_distinct _, fast_quiet _ _, fast_quiet _ _,
      completes_of (n := 0) (by decide) (by decide), by decide⟩⟩

set_option maxRecDepth 100000 in
/-- Both pulse orders; in the first the command waits. -/
theorem witness_InitOnTheBus :
    (∃ s t : State, s.drv = ⟨true, true⟩ ∧ pinMap 2 s = some 12 ∧ pinMap 1 s = some 11
      ∧ s.env.Quiet 12 ∧ s.env.Quiet 11 ∧ Completes (.configure 2 1 100000) s t
      ∧ after (exec (.configure 2 1 100000) s) (fun v => v.busy) = true)
    ∧ (∃ s t : State, s.env.pulseOrder = .lowThenHigh ∧ s.drv = ⟨true, true⟩ ∧ pinMap 2 s = some 12
      ∧ pinMap 1 s = some 11 ∧ s.env.Quiet 12 ∧ s.env.Quiet 11 ∧ Completes (.configure 2 1 400000) s t) :=
  ⟨⟨unhurried ⟨true, true⟩, _, rfl, by decide, by decide, unhurried_quiet ⟨true, true⟩ _,
      unhurried_quiet ⟨true, true⟩ _, completes_of (n := 1) (by decide) (by decide), by decide⟩,
    ⟨{ fresh with env := { env with pulseOrder := .lowThenHigh } }, _, rfl, rfl, by decide, by decide,
      at_quiet ⟨true, true⟩ _, at_quiet ⟨true, true⟩ _, completes_of (n := 0) (by decide) (by decide)⟩⟩

theorem witness_WriteByteOnTheBus :
    ∃ s t : State, s.drv = s.ls ∧ s.gpioSda ≠ s.gpioScl ∧ s.env.Quiet s.gpioSda ∧ s.env.Quiet s.gpioScl
      ∧ Completes (.writeByte 0x5A) s t ∧ after (exec (.writeByte 0x5A) s) (fun v => v.busy) = true :=
  ⟨unhurried ⟨true, false⟩, _, rfl, unhurried_distinct _, unhurried_quiet _ _, unhurried_quiet _ _,
    completes_of (n := 1) (by decide) (by decide), by decide⟩

end Sys2Proof.Tests.Slice0
end

/-! PROOFS. 30_encoding.md: the operands of a command word, and the response of a completed command. -/

namespace Sys2Proof

/-! ## The fields a command word is decoded into -/

/-- What a format's test of its must-be-zero bits lets through. -/
theorem ite_eq_ok {p : Prop} [Decidable p] {i j : Instr} {why : DecodeError} :
    (if p then Except.ok i else .error why) = .ok j ↔ p ∧ i = j := by
  by_cases h : p <;> simp [h]

theorem formatN_ok {i j : Instr} {w : CommandWord} : formatN i w = .ok j ↔ w.extractLsb' 0 56 = 0 ∧ i = j := ite_eq_ok

theorem formatB_ok {i : Byte → Instr} {j : Instr} {w : CommandWord} :
    formatB i w = .ok j ↔ w.extractLsb' 0 48 = 0 ∧ i (operandField w) = j := ite_eq_ok

theorem formatC_ok {i : PinId → PinId → Speed → Instr} {j : Instr} {w : CommandWord} :
    formatC i w = .ok j ↔ w.extractLsb' 0 8 = 0 ∧ i (operandField w) (sclPinField w) (speedField w) = j := ite_eq_ok

/-- The operands of `i` are the fields of `w` (30_encoding.md R51, R53). -/
def Instr.OperandsFrom (w : CommandWord) : Instr → Prop
  | .configure sdaPin sclPin speed => sdaPin = operandField w ∧ sclPin = sclPinField w ∧ speed = speedField w
  | .writeByte b => b = operandField w
  | .start => True
  | .stop => True
  | .readByte => True
  | .sendAck => True
  | .sendNack => True
  | .checkAck => True
  | .getSdaPin => True
  | .getSclPin => True

/-- A word that decodes gives a command with the word's own fields: CONFIGURE comes from format C only, WRITE_BYTE from
format B only. -/
theorem operandsFrom_of_decode {w : CommandWord} {i : Instr} (h : decode w = .ok i) : i.OperandsFrom w := by
  unfold decode at h
  split at h
  case h_1 => obtain ⟨-, rfl⟩ := formatC_ok.mp h; exact ⟨rfl, rfl, rfl⟩
  case h_4 => obtain ⟨-, rfl⟩ := formatB_ok.mp h; exact rfl
  case h_11 => cases h
  all_goals obtain ⟨-, rfl⟩ := formatN_ok.mp h; trivial

/-- The unsigned value of a field of a word. -/
theorem extract_toNat {v : Nat} (w : BitVec v) (start len : Nat) :
    (w.extractLsb' start len).toNat = w.toNat / 2 ^ start % 2 ^ len := by
  rw [BitVec.extractLsb'_toNat, Nat.shiftRight_eq_div_pow]

/-- Settles O4: by inversion of the decoder, the operands are fields of the word, and a field's value is a quotient and
a remainder of the word's. -/
theorem operandsAreTheWordsFields : Obligations.OperandsAreTheWordsFields := by
  intro w
  constructor
  · intro sda scl speed h
    obtain ⟨rfl, rfl, rfl⟩ := operandsFrom_of_decode h
    exact ⟨extract_toNat w 48 8, extract_toNat w 40 8, extract_toNat w 8 32⟩
  · intro b h
    obtain rfl := operandsFrom_of_decode h
    exact extract_toNat w 48 8

end Sys2Proof

namespace Sys2Proof.Machine

/-! ## Going on with a call from any position

`resumeCall_spec` is about a call in one of its two waits. What follows holds in every phase and needs no invariant. -/

/-- What a first part leaves, ended or waiting, and the next part keeps, the two together leave. -/
theorem Run.bind_state {P : State → Prop} {r : Run} {f : State → Run} (h : P r.state)
    (keep : ∀ u, P u → P (f u).state) : P (r.bind f).state := by
  cases r with
  | done u => exact keep u h
  | waiting u => exact h

theorem pollDelay_frame (s : State) : CallFrame s (pollDelay s).state := by
  rcases pollDelay_spec s with ⟨e, -⟩ | ⟨e, -⟩ <;> rw [e] <;> exact cycleRead_frame s

theorem pollStretch_frame (s : State) : CallFrame s (pollStretch s).state := by
  rcases pollStretch_spec s with ⟨e, -⟩ | ⟨e, -⟩ <;> rw [e] <;> exact pinReadScl_frame s

theorem waitCycles_frame (s : State) : CallFrame s (waitCycles s).state :=
  ((armDelay_frame s).trans (enter_frame _ _)).trans (pollDelay_frame _)

theorem driveStep_frame (s : State) : CallFrame s (driveStep s).state := by
  obtain ⟨u, hf, -, -, -, -, ⟨e, -⟩ | ⟨e, -⟩⟩ := driveStep_spec s <;> rw [e] <;> exact hf

/-- Going on with a call changes no more than a call may, in whatever phase it stands. -/
theorem resumeCall_frame (s : State) : CallFrame s (resumeCall s).state := by
  have drive : ∀ u, CallFrame s u → CallFrame s (driveStep u).state := fun u h => h.trans (driveStep_frame u)
  unfold resumeCall
  split
  case h_1 => exact Run.bind_state (pollDelay_frame s) drive
  case h_2 => exact pollStretch_frame s
  case h_3 => exact Run.bind_state (waitCycles_frame s) drive
  case h_4 => exact driveStep_frame s
  all_goals exact .refl s

theorem runMicros_moved (ms : List Micro) (s : State) : SequenceMoved s (runMicros ms s).state := by
  obtain ⟨u, hu, ⟨e, -⟩ | ⟨e, -⟩⟩ := runMicros_spec ms s <;> rw [e] <;> exact hu

/-- A step on a waiting command settles a run that changes no more than a sequence may. -/
theorem resume_settles (s : State) : ∃ r : Run, resume s = settle r ∧ SequenceMoved s r.state :=
  ⟨_, rfl, Run.bind_state (resumeCall_frame s).sequence fun u h =>
    (h.trans (callDone_moved u)).trans (runMicros_moved _ _)⟩

/-! ## The response -/

/-- The registers a response is read from are those completion leaves. -/
theorem complete_resp {cmd : Command} {s : State} (h : s.upc.cmd = some cmd) :
    (complete s).resp = responseOf (some cmd) (complete s) := by
  rw [show (complete s).resp = responseOf s.upc.cmd s from rfl, h]
  cases cmd <;> rfl

/-- A run of the command `cmd` from `s` that is over has answered what `cmd` answers: were it waiting, `BUSY` would be
1 still. -/
theorem settle_resp {cmd : Command} {s t : State} {r : Run} (hb : s.busy = true) (hc : s.upc.cmd = some cmd)
    (hm : SequenceMoved s r.state) (h : settle r = .next t) (hf : t.busy = false) :
    t.resp = responseOf (some cmd) t := by
  obtain ⟨-, -, -, -, -, busy, command, -⟩ := hm.fields
  rcases settle_next h with ⟨u, rfl, rfl⟩ | rfl
  · exact complete_resp (command.trans hc)
  · exact absurd (hf.symm.trans (busy.trans hb)) (by decide)

/-- A command that completes as it is accepted latches its response. -/
theorem exec_resp {i : Instr} {s t : State} (h : exec i s = .next t) (hf : t.busy = false) :
    t.resp = responseOf (some (commandOf i)) t := by
  obtain ⟨-, u, entered, hrun⟩ := exec_next h
  obtain ⟨⟨hb, hc, -⟩, -⟩ := entered.accepted
  exact settle_resp hb hc (runMicros_moved _ _) hrun hf

/-- A waiting command that completes latches its response. -/
theorem step_resp {cmd : Command} {s t : State} (hb : s.busy = true) (hc : s.upc.cmd = some cmd) (hr : NoReset s)
    (h : step s = .next t) (hf : t.busy = false) : t.resp = responseOf (some cmd) t := by
  obtain ⟨r, hrun, hm⟩ := resume_settles s
  rw [step_busy hb hr, hrun] at h
  exact settle_resp hb hc hm h hf

/-- Settles O40: completion latches `responseOf`, whose rows are those of 30_encoding.md R58, and neither a sequence nor
going on with a call changes which command executes. -/
theorem responseOfEveryCommand : Obligations.ResponseOfEveryCommand := by
  constructor
  · intro i s t h hf
    have answer := exec_resp h hf
    cases i <;> exact answer
  · intro cmd s t hb hc hr h hf
    have answer := step_resp hb hc hr h hf
    cases cmd <;> exact answer

end Sys2Proof.Machine

/-! PROOFS. 40_timing_and_line_driver.md: the calibration of the delay. -/

namespace Sys2Proof.Machine

/-- The signed subtraction and the clamp of `calibrate` (40_timing_and_line_driver.md R70) are together the subtraction
of the naturals, which is cut off at 0. -/
theorem calibrate_eq_sub (speed freq : Nat) : calibrate speed freq = freq * 500000 / speed - 130 := by
  unfold calibrate Config.halfPeriodScale Config.fixedOverheadCycles
  dsimp only
  split
  case isTrue clamped => omega
  case isFalse unclamped => omega

/-- Settles O11: on the two sides of the clamp, a subtraction that is cut off at 0 and one that is not. -/
theorem calibrateFormula : Obligations.CalibrateFormula := fun speed freq => by
  rw [calibrate_eq_sub]
  exact ⟨fun below => Nat.sub_eq_zero_of_le below.le, fun above => Nat.sub_add_cancel above⟩

end Sys2Proof.Machine

/-! PROOFS. 41_bus_init_and_configure.md: the pin accessors. -/

namespace Sys2Proof.Machine

/-- A free block that has not been configured refuses (70_reset_and_hazards.md R152). -/
theorem whenReady_unconfigured {k : State → Host.Outcome State Fault Refusal} {s : State} (free : s.busy = false)
    (unconfigured : s.configured = false) : whenReady k s = .refused .notConfigured := by
  simp [whenReady, free, unconfigured]

/-- A command with nothing to do on the lines completes as it is accepted. -/
theorem runCommand_of_bodyOf_nil {cmd : Command} {s : State} (h : bodyOf cmd s.env.pulseOrder = []) :
    runCommand cmd s = .next (complete s) := by
  rw [runCommand, h, runMicros, settle]

/-- Acceptance touches no register that a response is read from. -/
theorem responseOf_accept (cmd c : Command) (ph : Phase) (s : State) :
    responseOf (some c) (accept cmd ph s) = responseOf (some c) s := by
  cases c <;> rfl

/-- Acceptance and completion of a command in a ready block, with nothing between them: `BUSY` and `CONFIGURED` come back
to what they were, `RESP` and the sequencing position are written. -/
theorem complete_accept {s : State} (ready : Ready s) (cmd : Command) (ph : Phase) :
    complete (accept cmd ph s) = { s with resp := responseOf (some cmd) s, upc := ⟨none, 0, .idle⟩ } := by
  obtain ⟨free, configured⟩ := ready
  have stays : configuredAfter (some cmd) s.configured = s.configured := by simp [configuredAfter, configured]
  calc complete (accept cmd ph s)
      = { s with
          resp := responseOf (some cmd) (accept cmd ph s)
          configured := configuredAfter (some cmd) s.configured
          upc := ⟨none, 0, .idle⟩
          busy := false } := rfl
    _ = { s with resp := responseOf (some cmd) s, upc := ⟨none, 0, .idle⟩ } := by rw [responseOf_accept, stays, ← free]

/-- A command that acceptance alone enters and that has no sequence answers at once: it writes `RESP` and leaves `UPC` at
rest. -/
theorem exec_of_bodyOf_nil {i : Instr} {ph : Phase} {s : State} (ready : Ready s)
    (entered : Enters i s (accept (commandOf i) ph s)) (empty : bodyOf (commandOf i) s.env.pulseOrder = []) :
    exec i s = .next { s with resp := responseOf (some (commandOf i)) s, upc := ⟨none, 0, .idle⟩ } := by
  have run : runCommand (commandOf i) (accept (commandOf i) ph s) = .next (complete (accept (commandOf i) ph s)) :=
    runCommand_of_bodyOf_nil empty
  rw [exec_enters ready.1 entered, run, complete_accept ready]

/-- Settles O38: GET_SDA_PIN has an empty sequence, so it is acceptance and completion and nothing between. -/
theorem getSdaPinAnswersIdentifier : Obligations.GetSdaPinAnswersIdentifier := fun _ =>
  ⟨fun ready => exec_of_bodyOf_nil ready (.getSdaPin ready.2) rfl,
    fun free unconfigured => by rw [exec, execGetSdaPin, whenReady_unconfigured free unconfigured]⟩

/-- Settles O39: GET_SCL_PIN has an empty sequence, so it is acceptance and completion and nothing between. -/
theorem getSclPinAnswersIdentifier : Obligations.GetSclPinAnswersIdentifier := fun _ =>
  ⟨fun ready => exec_of_bodyOf_nil ready (.getSclPin ready.2) rfl,
    fun free unconfigured => by rw [exec, execGetSclPin, whenReady_unconfigured free unconfigured]⟩

end Sys2Proof.Machine

/-! PROOFS. 42_start_stop.md: where a command that may wait leaves `LS`. -/

namespace Sys2Proof.Machine

/-! ## The last pair of a plan -/

/-- Where `LS` stands once the sequence `ms` has run from `s`: at the last pair it plans, or where it was. -/
def endLines (ms : List Micro) (s : State) : Lines := (plannedCalls ms s.ls s.shreg s.bitcnt).getLast?.getD s.ls

/-- The last entry of a list, read from the entry at position `k` and what follows it. -/
theorem getLast?_drop_getD {α : Type} {xs : List α} {k : Nat} {x : α} (h : xs[k]? = some x) (d : α) :
    (xs.drop (k + 1)).getLast?.getD x = xs.getLast?.getD d := by
  obtain ⟨hk, rfl⟩ := List.getElem?_eq_some_iff.mp h
  have last : xs.getLast? = (xs.drop k).getLast? := by rw [List.getLast?_drop, if_neg (by omega)]
  rw [last, List.drop_eq_getElem_cons hk, List.getLast?_cons, Option.getD_some]

theorem runMicros_done_ls {ms : List Micro} {s t : State} (hp : planned ms = true) (h : runMicros ms s = .done t) :
    t.ls = endLines ms s := by
  obtain ⟨-, -, ls, -⟩ := (runMicros_calls ms s hp).1 t h
  exact ls

/-- A sequence that waits in its call `k` has the rest of its plan before it, which ends where the whole plan does. -/
theorem runMicros_waiting_endLines {ms : List Micro} {s t : State} (hp : planned ms = true)
    (h : runMicros ms s = .waiting t) :
    ∃ k, t.upc.calls = s.upc.calls + k ∧ planned (dropCalls (k + 1) ms) = true
      ∧ endLines (dropCalls (k + 1) ms) t = endLines ms s := by
  obtain ⟨k, calls, rest, here, plan⟩ := runMicros_waiting_rest ms s t hp h
  exact ⟨k, calls, rest, by rw [endLines, plan]; exact getLast?_drop_getD here s.ls⟩

/-- No command takes a data bit after a sample of READ_BYTE. -/
theorem planned_bodyOf (cmd : Command) (order : PulseOrder) : planned (bodyOf cmd order) = true := by
  cases cmd <;> cases order <;> rfl

/-! ## What is left of a command -/

@[simp] theorem dropCalls_zero (ms : List Micro) : dropCalls 0 ms = ms := by rw [dropCalls]

theorem dropCalls_nil (n : Nat) : dropCalls n [] = [] := by cases n <;> rfl

theorem dropCalls_dropCalls (m n : Nat) (ms : List Micro) : dropCalls m (dropCalls n ms) = dropCalls (n + m) ms := by
  induction ms generalizing n with
  | nil => simp only [dropCalls_nil]
  | cons x xs ih =>
    cases n with
    | zero => rw [dropCalls_zero, Nat.zero_add]
    | succ n =>
      rw [Nat.succ_add]
      cases x with
      | call a b => exact ih n
      | _ => exact (ih (n + 1)).trans (by rw [Nat.succ_add]; rfl)

/-- What is left of the present command's sequence behind the calls it has completed. -/
def callsLeft (s : State) : List Micro :=
  match s.upc.cmd with
  | some cmd => dropCalls s.upc.calls (bodyOf cmd s.env.pulseOrder)
  | none => []

/-- `restOfCommand` leaves out the call in progress too. -/
theorem restOfCommand_eq_callsLeft (s : State) : restOfCommand s = callsLeft (callDone s) := rfl

/-- The call in progress is one of those left. -/
theorem restOfCommand_eq_dropCalls (s : State) : restOfCommand s = dropCalls 1 (callsLeft s) := by
  unfold restOfCommand callsLeft
  cases s.upc.cmd with
  | none => rfl
  | some cmd => exact (dropCalls_dropCalls _ _ _).symm

/-- What is left `k` calls later. -/
theorem SequenceMoved.callsLeft_eq {s t : State} {k : Nat} (h : SequenceMoved s t)
    (calls : t.upc.calls = s.upc.calls + k) : callsLeft t = dropCalls k (callsLeft s) := by
  obtain ⟨-, -, -, -, -, -, command, -, -, order, -⟩ := h.fields
  rw [callsLeft, callsLeft, command, order, calls]
  cases s.upc.cmd with
  | none => exact (dropCalls_nil k).symm
  | some cmd => exact (dropCalls_dropCalls _ _ _).symm

/-! ## Through any number of waits -/

/-- The command waits in `s`, and what it has still to do leaves `LS` at `l`. -/
structure WaitsTowards (l : Lines) (s : State) : Prop where
  wait : InDelayWait s ∨ InStretchWait s
  planned : planned (restOfCommand s) = true
  ends : endLines (restOfCommand s) s = l

/-- The command is over in `s` with `LS = l`, or waits there on its way to it. -/
def EndsOrWaits (l : Lines) (s : State) : Prop := if s.busy then WaitsTowards l s else s.ls = l

/-- Running what is left of a command completes it with the pair its plan ends in, or leaves it waiting on its way
there. -/
theorem settle_callsLeft {s t : State} (busy : s.busy = true) (hp : planned (callsLeft s) = true)
    (h : settle (runMicros (callsLeft s) s) = .next t) : EndsOrWaits (endLines (callsLeft s) s) t := by
  obtain ⟨u, moved, ⟨run, -⟩ | ⟨run, -, -, wait⟩⟩ := runMicros_spec (callsLeft s) s
  · rw [run] at h
    cases h
    show u.ls = endLines (callsLeft s) s
    exact runMicros_done_ls hp run
  · rw [run] at h
    cases h
    obtain ⟨-, -, -, -, -, stays, -⟩ := moved.fields
    obtain ⟨k, calls, rest, ends⟩ := runMicros_waiting_endLines hp run
    have left : restOfCommand t = dropCalls (k + 1) (callsLeft s) := by
      rw [restOfCommand_eq_dropCalls, moved.callsLeft_eq calls, dropCalls_dropCalls]
    rw [EndsOrWaits, if_pos (stays.trans busy)]
    exact ⟨wait, left ▸ rest, left ▸ ends⟩

/-- A call in progress, done or not, does not change what is to be done after it. -/
theorem CallFrame.restOfCommand_eq {s t : State} (h : CallFrame s t) : restOfCommand t = restOfCommand s := by
  obtain ⟨-, -, -, -, -, -, -, calls, -⟩ := h.fields
  rw [restOfCommand_eq_dropCalls, restOfCommand_eq_dropCalls, h.sequence.callsLeft_eq (k := 0) calls, dropCalls_zero]

/-- A call in progress leaves the registers that the calls after it are planned from. -/
theorem CallFrame.endLines_eq {s t : State} (h : CallFrame s t) (ls : t.ls = s.ls) (ms : List Micro) :
    endLines ms t = endLines ms s := by
  obtain ⟨-, -, -, -, -, -, -, -, -, shreg, bitcnt, -⟩ := h.fields
  rw [endLines, endLines, ls, shreg, bitcnt]

/-- Going on with a command that waits keeps the pair it is to end at. -/
theorem WaitsTowards.resume_next {l : Lines} {s t : State} (busy : s.busy = true) (h : WaitsTowards l s)
    (next : resume s = .next t) : EndsOrWaits l t := by
  obtain ⟨wait, hp, rfl⟩ := h
  obtain ⟨v, frame, ls, -, h⟩ := resumeCall_spec s wait
  obtain ⟨-, -, -, -, -, stays, -⟩ := frame.fields
  rw [← frame.restOfCommand_eq] at hp
  rw [← frame.endLines_eq ls, ← frame.restOfCommand_eq]
  rcases h with ⟨run, -⟩ | ⟨run, waits⟩
  · rw [resume, run, ← frame.restOfCommand_eq] at next
    rw [restOfCommand_eq_callsLeft] at hp next ⊢
    exact settle_callsLeft (s := callDone v) (stays.trans busy) hp next
  · rw [resume, run] at next
    cases next
    rw [EndsOrWaits, if_pos (stays.trans busy)]
    exact ⟨waits.imp_left And.left, hp, rfl⟩

/-- A completed command leaves `LS` at the last pair its sequence plans at entry, with or without waits on the way. -/
theorem Completes.ls_eq {i : Instr} {s t : State} (h : Completes i s t) :
    ∃ u, Enters i s u ∧ t.ls = endLines (bodyOf (commandOf i) s.env.pulseOrder) u := by
  obtain ⟨-, -, u, v, entered, run, onward⟩ := h.entry
  obtain ⟨⟨busy, command, calls, -, -, -, -, -, -, -, order, -⟩, -⟩ := entered.accepted
  have left : bodyOf (commandOf i) u.env.pulseOrder = callsLeft u := by
    simp only [callsLeft, command, calls, dropCalls_zero]
  rw [runCommand, left] at run
  rw [← order, left]
  have begun : EndsOrWaits (endLines (callsLeft u) u) v := settle_callsLeft busy (left ▸ planned_bodyOf _ _) run
  exact ⟨u, entered, onward.keeps (Q := fun w => w.ls = _) begun
    fun _ _ waiting _ towards next => towards.resume_next waiting next⟩

/-! ## STOP -/

/-- The last call of STOP takes nothing from the state. -/
theorem endLines_stopBody (s : State) : endLines stopBody s = ⟨true, true⟩ := rfl

/-- STOP ends in (1,1) from every state (42_start_stop.md R102). -/
theorem Completes.stop_ls {s t : State} (h : Completes .stop s t) : t.ls = ⟨true, true⟩ := by
  obtain ⟨u, -, ends⟩ := h.ls_eq
  exact ends.trans (endLines_stopBody u)

/-- Settles O44: the last command alone decides it (42_start_stop.md R103), whatever the five before it leave. -/
theorem transactionEndsIdle : Obligations.TransactionEndsIdle := by
  unfold Obligations.TransactionEndsIdle
  intros
  exact Completes.stop_ls ‹Completes .stop _ _›

end Sys2Proof.Machine

/-! PROOFS. 43_ack.md: what CHECK_ACK samples and answers. -/

namespace Sys2Proof.Machine

/-! ## Events and samples, from state to state -/

theorem eventsBetween_append {s u t : State} (h : s.hist <+: u.hist) (k : u.hist <+: t.hist) :
    eventsBetween s t = eventsBetween s u ++ eventsBetween u t := by
  obtain ⟨es, he⟩ := h
  obtain ⟨fs, hf⟩ := k
  rw [eventsBetween_of_hist he.symm, eventsBetween_of_hist hf.symm]
  exact eventsBetween_of_hist (by rw [← hf, ← he, List.append_assoc])

theorem samplesBetween_append {s u t : State} (h : s.hist <+: u.hist) (k : u.hist <+: t.hist) :
    samplesBetween s t = samplesBetween s u ++ samplesBetween u t := by
  rw [samplesBetween, eventsBetween_append h k, List.filterMap_append]
  rfl

/-- What the environment holds low is counted on from where the records stand. -/
theorem Moved.heldAfter_eq {s t : State} (h : Moved s t) (n : Nat) :
    t.env.heldAfter n = s.env.heldAfter ((eventsBetween s t).length + n) := by
  rw [heldAfter_add, eventsBetween, List.length_drop, ← h.heldLow, ← h.moves]
  rfl

/-- Every SDA sample from `s` to `t` is the level the environment then lets be, as where the block has SDA released
(20_memory.md R33, R38, R39). -/
def SamplesReleased (s t : State) : Prop :=
  ∀ j v, (eventsBetween s t)[j]? = some (.rsda v) → v = levelOf s.gpioSda (s.env.heldAfter (j + 1))

theorem samplesReleased_of_unsampled {s t : State} (h : samplesBetween s t = []) : SamplesReleased s t := by
  intro j v hv
  have unread : (Event.rsda v).sampled = none := List.filterMap_eq_nil_iff.mp h _ (List.mem_of_getElem? hv)
  cases unread

theorem SamplesReleased.trans {s u t : State} (h : SamplesReleased s u) (k : SamplesReleased u t) (moved : Moved s u)
    (onward : u.hist <+: t.hist) (pin : u.gpioSda = s.gpioSda) : SamplesReleased s t := by
  intro j v hv
  rw [eventsBetween_append moved.hist onward] at hv
  rcases Nat.lt_or_ge j (eventsBetween s u).length with early | late
  · exact h j v (by rwa [List.getElem?_append_left early] at hv)
  · rw [List.getElem?_append_right late] at hv
    have position : (eventsBetween s u).length + (j - (eventsBetween s u).length + 1) = j + 1 := by omega
    have level := k _ v hv
    rwa [pin, moved.heldAfter_eq, position] at level

/-! ## What `receive_ack_bit()` may change -/

/-- From `s` to `t` a sequence of calls and samples into `RAW` has run, as in CHECK_ACK: the samples it has taken are
`vs`, each with SDA released, and `RAW` holds the last of them. -/
structure CheckMoved (vs : List Bit) (s t : State) : Prop where
  state : t = { s with
    ls := t.ls, drv := t.drv, t0 := t.t0, upc := ⟨s.upc.cmd, t.upc.calls, t.upc.phase⟩
    raw := t.raw, env := t.env, hist := t.hist, bus := t.bus }
  env : EnvMoved s t
  moved : Moved s t
  samples : samplesBetween s t = vs
  released : SamplesReleased s t
  raw : t.raw = vs.getLast?.getD s.raw

theorem CheckMoved.trans {vs ws : List Bit} {s u t : State} (h : CheckMoved vs s u) (k : CheckMoved ws u t) :
    CheckMoved (vs ++ ws) s t where
  state := by rw [k.state, h.state]
  env := h.env.trans k.env
  moved := h.moved.trans k.moved
  samples := by rw [samplesBetween_append h.moved.hist k.moved.hist, h.samples, k.samples]
  released := h.released.trans k.released h.moved k.moved.hist (by rw [h.state])
  raw := by rw [k.raw, h.raw, getLast_append_getD]

/-- A call, done or waiting, samples nothing. -/
theorem CallFrame.checkMoved {s t : State} (h : CallFrame s t) (unsampled : samplesOf t.hist = samplesOf s.hist) :
    CheckMoved [] s t := by
  have unread : samplesBetween s t = [] := samplesBetween_eq h.moved.hist (by rw [unsampled, List.append_nil])
  exact ⟨by rw [h.state], h.env, h.moved, unread, samplesReleased_of_unsampled unread, by rw [h.state]; rfl⟩

theorem callDone_checkMoved (s : State) : CheckMoved [] s (callDone s) := by
  have unread : samplesBetween s (callDone s) = [] := samplesBetween_eq (List.prefix_refl _) (List.append_nil _).symm
  exact ⟨rfl, rfl, (callDone_moved s).moved, unread, samplesReleased_of_unsampled unread, rfl⟩

/-- The sample itself: one read of SDA, which the block has released. -/
theorem sampleRaw_checkMoved {s : State} (released : s.drv.sda = true) :
    CheckMoved [levelOf s.gpioSda (s.env.heldAfter 1)] s (sampleRaw s) := by
  have value : (pinReadSda s).1 = levelOf s.gpioSda (s.env.heldAfter 1) := by
    rw [pinReadSda_value, released, Bool.true_and, settle_heldLow]
  have events : eventsBetween s (sampleRaw s) = [.rsda (levelOf s.gpioSda (s.env.heldAfter 1))] :=
    eventsBetween_of_hist (by rw [← value]; rfl)
  refine ⟨rfl, rfl, (sampleRaw_moved s).moved, by rw [samplesBetween, events]; rfl, ?_, value⟩
  intro j v hv
  rw [events] at hv
  cases j with
  | zero => cases hv; rfl
  | succ j => cases hv

/-- Everything a sequence can do that begins with a call: the call ends with its pair applied and the rest runs, or the
sequence waits in it. -/
theorem runMicros_call_checkMoved (a b : LineArg) (ms : List Micro) (s : State) :
    (∃ u, CheckMoved [] s u ∧ u.drv = ⟨plannedBit a s.ls s.shreg s.bitcnt, plannedBit b s.ls s.shreg s.bitcnt⟩
        ∧ u.upc.calls = s.upc.calls + 1 ∧ runMicros (.call a b :: ms) s = runMicros ms u) ∨
    (∃ t, CheckMoved [] s t ∧ t.upc.calls = s.upc.calls ∧ runMicros (.call a b :: ms) s = .waiting t) := by
  rcases setLines_spec (a.value s) (b.value s) s with ⟨u, run, effect⟩ | ⟨t, run, waits⟩
  · obtain ⟨-, -, unsampled⟩ := effect.records
    have calls : u.upc.calls = s.upc.calls := by rw [effect.frame.state]
    exact .inl ⟨callDone u, (effect.frame.checkMoved unsampled).trans (callDone_checkMoved u),
      effect.drv.trans (normalize_planned a b s), congrArg (· + 1) calls,
      by simp [runMicros, runMicro, run, Run.bind]⟩
  · obtain ⟨-, -, unsampled⟩ := waits.records
    exact .inr ⟨t, waits.frame.checkMoved unsampled, by rw [waits.frame.state],
      by simp [runMicros, runMicro, run, Run.bind]⟩

/-- Everything `receive_ack_bit()` can do (43_ack.md R112): it ends with one sample taken, or waits in one of its three
calls, with the sample taken if that is the last of them. -/
theorem runMicros_receiveAckBitBody {s : State} (start : s.upc.calls = 0) :
    ∃ t vs, CheckMoved vs s t
      ∧ ((runMicros receiveAckBitBody s = .done t ∧ ∃ v, vs = [v])
        ∨ (runMicros receiveAckBitBody s = .waiting t ∧ vs.length = samplesTaken .checkAck t.upc.calls)) := by
  rw [receiveAckBitBody]
  rcases runMicros_call_checkMoved .high .low [.call .high .high, .sampleRaw, .call .high .low] s with
    ⟨u1, moved1, -, calls1, run1⟩ | ⟨t, moved, calls, run⟩
  case inr => exact ⟨t, [], moved, .inr ⟨run, by rw [calls, start]; rfl⟩⟩
  rcases runMicros_call_checkMoved .high .high [.sampleRaw, .call .high .low] u1 with
    ⟨u2, moved2, drv2, calls2, run2⟩ | ⟨t, moved, calls, run⟩
  case inr => exact ⟨t, [], moved1.trans moved, .inr ⟨run1.trans run, by rw [calls, calls1, start]; rfl⟩⟩
  have sampled := (moved1.trans moved2).trans (sampleRaw_checkMoved (s := u2) (by rw [drv2]; rfl))
  have run3 : runMicros [.sampleRaw, .call .high .low] u2 = runMicros [.call .high .low] (sampleRaw u2) := rfl
  rcases runMicros_call_checkMoved .high .low [] (sampleRaw u2) with
    ⟨t, moved, -, -, run⟩ | ⟨t, moved, calls, run⟩
  · exact ⟨t, _, sampled.trans moved, .inl ⟨((run1.trans run2).trans run3).trans run, _, rfl⟩⟩
  · have second : t.upc.calls = 2 := by simp [calls, calls2, calls1, start]
    exact ⟨t, _, sampled.trans moved, .inr ⟨((run1.trans run2).trans run3).trans run, by rw [second]; rfl⟩⟩

/-! ## The handshake of a command that acceptance alone enters -/

/-- The pairs driven up to `t` are those up to `s` and those between. -/
theorem drives_eq_append {s t : State} (h : s.hist <+: t.hist) :
    drives t.hist = drives s.hist ++ drivenBetween s t := by
  obtain ⟨es, he⟩ := h
  rw [drivenBetween, eventsBetween_of_hist he.symm, ← he, drives_append]
  rfl

/-- A command that has run to its end has made and driven the calls its sequence plans. -/
theorem commandEnds_done {cmd : Command} {s u v : State} {calls : List Lines} {post : Prop} (start : u.hist = s.hist)
    (plan : plannedCalls (bodyOf cmd u.env.pulseOrder) u.ls u.shreg u.bitcnt = calls)
    (run : runMicros (bodyOf cmd u.env.pulseOrder) u = .done v) (ends : post) :
    CommandEnds cmd s (complete v) calls calls post := by
  obtain ⟨requested, driven, -, -⟩ := (runMicros_calls _ u (planned_bodyOf _ _)).1 v run
  have moved : SequenceMoved u (Run.done v).state := run ▸ runMicros_moved _ u
  have grown : s.hist <+: (complete v).hist := start ▸ moved.moved.hist
  rw [plan, start] at requested driven
  exact .inl ⟨⟨rfl, rfl⟩, callsBetween_eq grown requested, drivenBetween_eq grown driven, ends⟩

/-- A command that waits has made the first of the calls its sequence plans, and driven their pairs but for one
pending. -/
theorem commandEnds_waiting {i : Instr} {s u t : State} {calls : List Lines} {post : Prop} (entered : Enters i s u)
    (start : u.hist = s.hist)
    (plan : plannedCalls (bodyOf (commandOf i) u.env.pulseOrder) u.ls u.shreg u.bitcnt = calls)
    (run : runMicros (bodyOf (commandOf i) u.env.pulseOrder) u = .waiting t)
    (sampled : (samplesBetween s t).length = samplesTaken (commandOf i) t.upc.calls) :
    CommandEnds (commandOf i) s t calls calls post := by
  obtain ⟨⟨busy, command, uncalled, configured, -, resp, -⟩, -⟩ := entered.accepted
  obtain ⟨w, moved, ⟨run', -⟩ | ⟨run', -, within, wait⟩⟩ := runMicros_spec (bodyOf (commandOf i) u.env.pulseOrder) u
  · cases run.symm.trans run'
  cases run.symm.trans run'
  obtain ⟨-, -, -, -, keepsConfigured, keepsBusy, keepsCommand, keepsResp, -, order, -⟩ := moved.fields
  obtain ⟨p, made, requested, driven, count⟩ := (runMicros_calls _ u (planned_bodyOf _ _)).2 t run
  have grown : s.hist <+: t.hist := start ▸ moved.moved.hist
  rw [plan] at made
  rw [uncalled, Nat.zero_add] at within count
  rw [start] at requested
  rw [start, drives_eq_append grown, List.append_assoc, List.append_cancel_left_eq] at driven
  have called := callsBetween_eq grown requested
  exact .inr ⟨⟨keepsBusy.trans busy, keepsCommand.trans command, by rwa [order], wait⟩, keepsResp.trans resp,
    keepsConfigured.trans configured, called ▸ made, by rw [called, count], driven ▸ made, sampled⟩

/-! ## CHECK_ACK -/

/-- Acceptance records nothing, so what is between its state and a later one is between the state before it and that. -/
theorem CheckMoved.frame_accept {vs : List Bit} {s t : State} (h : CheckMoved vs (accept .checkAck .record s) t) :
    CheckFrame s t := ⟨by rw [h.state]; rfl, h.env, h.moved.hist, h.moved.bus⟩

/-- Completion of CHECK_ACK writes `RESP`, `UPC` and `BUSY`, which its frame leaves open. -/
theorem CheckMoved.frame_complete {vs : List Bit} {s t : State} (h : CheckMoved vs (accept .checkAck .record s) t) :
    CheckFrame s (complete t) := by
  refine ⟨?_, h.env, h.moved.hist, h.moved.bus⟩
  rw [h.state]
  simp [complete, configuredAfter]

/-- Settles O37: `receive_ack_bit()` ends with one sample in `RAW`, which completion inverts, or waits in one of its
calls; an environment that serves the waits leaves the first only. -/
theorem checkAckInvertsTheSample : Obligations.CheckAckInvertsTheSample := by
  intro s ready
  have entered : Enters .checkAck s (accept .checkAck .record s) := .checkAck ready.2
  have exec_eq : exec .checkAck s = settle (runMicros receiveAckBitBody (accept .checkAck .record s)) :=
    exec_enters ready.1 entered
  obtain ⟨t, vs, moved, ⟨run, v, rfl⟩ | ⟨run, sampled⟩⟩ :=
    runMicros_receiveAckBitBody (s := accept .checkAck .record s) rfl
  · obtain ⟨-, -, ls, drv⟩ := (runMicros_calls receiveAckBitBody _ rfl).1 t run
    have resp : (complete t).resp = ackValue (complete t).raw :=
      complete_resp (cmd := .checkAck) (by rw [moved.state]; rfl)
    have raw : (complete t).raw = v := moved.raw
    refine ⟨complete t, by rw [exec_eq, run]; rfl, moved.frame_complete,
      commandEnds_done (u := accept .checkAck .record s) rfl rfl run ⟨ls, drv, ?_, ?_, ?_⟩, moved.released,
      fun _ => ⟨rfl, rfl⟩⟩
    · rw [raw]
      exact moved.samples
    · intro ack
      rw [resp, ack]; rfl
    · intro nack
      rw [resp, nack]; rfl
  · have taken : samplesBetween s t = vs := moved.samples
    refine ⟨t, by rw [exec_eq, run]; rfl, moved.frame_accept,
      commandEnds_waiting entered rfl rfl run (by rw [taken]; exact sampled), moved.released, fun serves => ?_⟩
    obtain ⟨w, done, -⟩ := runMicros_done receiveAckBitBody (accept .checkAck .record s) serves
    cases run.symm.trans done

end Sys2Proof.Machine

/-! PROOFS. 70_reset_and_hazards.md: what is refused before the first CONFIGURE has completed. -/

namespace Sys2Proof.Machine

/-- A block that executes a command refuses another (60_exceptions.md R141). -/
theorem whenReady_busy {k : State → Host.Outcome State Fault Refusal} {s : State} (busy : s.busy = true) :
    whenReady k s = .refused .commandWhileBusy := if_pos busy

/-- Every command but CONFIGURE is guarded by `whenReady` and by nothing before it. -/
theorem exec_eq_whenReady {i : Instr} (other : ∀ sda scl speed, i ≠ .configure sda scl speed) (s : State) :
    ∃ k, exec i s = whenReady k s := by
  cases i with
  | configure sda scl speed => exact absurd rfl (other sda scl speed)
  | start | stop | writeByte | readByte | sendAck | sendNack | checkAck | getSdaPin | getSclPin =>
    simp only [exec, execStart, execStop, execWriteByte, execReadByte, execSendAck, execSendNack, execCheckAck,
      execGetSdaPin, execGetSclPin]
    exact ⟨_, rfl⟩

/-- Settles O45: the guard of the nine other commands asks for `BUSY = 0` first and for `CONFIGURED = 1` second. -/
theorem onlyConfigureBeforeConfigured : Obligations.OnlyConfigureBeforeConfigured := by
  intro i s unconfigured other
  obtain ⟨k, guarded⟩ := exec_eq_whenReady other s
  rw [guarded]
  exact ⟨fun free => whenReady_unconfigured free unconfigured, whenReady_busy⟩

end Sys2Proof.Machine

/-! PROOFS. 30_encoding.md: the decoder, the encoder and the opcode map. -/

namespace Sys2Proof

/-! ## Encoding and decoding -/

/-- Settles O2: each field of an encoded word is the operand put there, and its must-be-zero bits are 0. -/
theorem decodeInvertsEncode : Obligations.DecodeInvertsEncode := by
  intro i
  cases i with
  | configure sdaPin sclPin speed =>
    have arm : decode (encode (.configure sdaPin sclPin speed)) = formatC .configure (encode (.configure sdaPin sclPin speed)) := by
      rw [decode, Laws.OpcodeField.configure]; rfl
    rw [arm, formatC_ok]
    exact ⟨zeroField_encodeC _ _ _ _, by rw [encode, operandField_encodeC, sclPinField_encodeC, speedField_encodeC]⟩
  | writeByte b =>
    have arm : decode (encode (.writeByte b)) = formatB .writeByte (encode (.writeByte b)) := by
      rw [decode, Laws.OpcodeField.writeByte]; rfl
    rw [arm, formatB_ok]
    exact ⟨zeroField_encodeB _ _, by rw [encode, operandField_encodeB]⟩
  | start | stop | readByte | sendAck | sendNack | checkAck | getSdaPin | getSclPin => rfl

/-- A decoded word's opcode field holds the command's opcode, and its must-be-zero bits are 0. -/
theorem opcodeField_of_toNat {w : CommandWord} {n : Nat} (h : (opcodeField w).toNat = n) :
    opcodeField w = BitVec.ofNat 8 n := by
  rw [← h, BitVec.ofNat_toNat, BitVec.setWidth_eq]

/-- Settles O3: a word is made of its fields, and a word that decodes has the command's fields and zeros. -/
theorem encodeInvertsDecode : Obligations.EncodeInvertsDecode := by
  intro w i h
  unfold decode at h
  split at h
  case h_1 opcode =>
    obtain ⟨zeros, rfl⟩ := formatC_ok.mp h
    have parts := word_of_fieldsC w
    rw [zeros, opcodeField_of_toNat opcode] at parts
    exact parts
  case h_4 opcode =>
    obtain ⟨zeros, rfl⟩ := formatB_ok.mp h
    have parts := word_of_fieldsB w
    rw [zeros, opcodeField_of_toNat opcode] at parts
    exact parts
  case h_11 => cases h
  all_goals
    rename_i opcode
    obtain ⟨zeros, rfl⟩ := formatN_ok.mp h
    have parts := word_of_fieldsN w
    rw [zeros, opcodeField_of_toNat opcode] at parts
    exact parts

/-- Settles O1. -/
theorem specWordsDecode : Obligations.SpecWordsDecode := by
  unfold Obligations.SpecWordsDecode
  decide

/-! ## The opcode map -/

/-- Where a mask is all ones, a word that matches has the match's bits. -/
theorem extract_of_masked {w mask bits : CommandWord} (h : w &&& mask = bits) (start len : Nat)
    (ones : mask.extractLsb' start len = BitVec.allOnes len) :
    w.extractLsb' start len = bits.extractLsb' start len := by
  rw [← h, BitVec.extractLsb'_and, ones, BitVec.and_allOnes]

/-- The row of a command in the opcode map. -/
def Instr.mapRow : Instr → CommandWord × CommandWord
  | .configure _ _ _ => (0x0100000000000000, 0xFF000000000000FF)
  | .start => (0x0200000000000000, 0xFFFFFFFFFFFFFFFF)
  | .stop => (0x0300000000000000, 0xFFFFFFFFFFFFFFFF)
  | .writeByte _ => (0x0400000000000000, 0xFF00FFFFFFFFFFFF)
  | .readByte => (0x0500000000000000, 0xFFFFFFFFFFFFFFFF)
  | .sendAck => (0x0600000000000000, 0xFFFFFFFFFFFFFFFF)
  | .sendNack => (0x0700000000000000, 0xFFFFFFFFFFFFFFFF)
  | .checkAck => (0x0800000000000000, 0xFFFFFFFFFFFFFFFF)
  | .getSdaPin => (0x0900000000000000, 0xFFFFFFFFFFFFFFFF)
  | .getSclPin => (0x0A00000000000000, 0xFFFFFFFFFFFFFFFF)

theorem mapRow_mem (i : Instr) : i.mapRow ∈ opcodeMap := by
  cases i <;> simp [Instr.mapRow, opcodeMap]

/-- A mask of ones on the opcode and on the must-be-zero bits leaves out one operand. -/
theorem masked_one {n k z : Nat} (o : BitVec n) (x : BitVec k) :
    (o ++ x ++ 0#z) &&& (BitVec.allOnes n ++ 0#k ++ BitVec.allOnes z) = o ++ 0#k ++ 0#z := by
  simp only [BitVec.and_append, BitVec.and_allOnes, BitVec.and_zero]

/-- The same for three operands. -/
theorem masked_three {n j k l z : Nat} (o : BitVec n) (x : BitVec j) (y : BitVec k) (v : BitVec l) :
    (o ++ x ++ y ++ v ++ 0#z) &&& (BitVec.allOnes n ++ 0#j ++ 0#k ++ 0#l ++ BitVec.allOnes z)
      = o ++ 0#j ++ 0#k ++ 0#l ++ 0#z := by
  simp only [BitVec.and_append, BitVec.and_allOnes, BitVec.and_zero]

/-- An encoded command matches its row: the mask leaves out the operands only. -/
theorem matchesRow_encode (i : Instr) : matchesRow (encode i) i.mapRow = true := by
  rw [matchesRow, beq_iff_eq]
  cases i with
  | configure sdaPin sclPin speed => exact masked_three (n := 8) (z := 8) 1 sdaPin sclPin speed
  | writeByte b => exact masked_one (n := 8) (z := 48) 4 b
  | start | stop | readByte | sendAck | sendNack | checkAck | getSdaPin | getSclPin => rfl

/-- A word that matches a row decodes: its opcode is the row's, and the row's must-be-zero bits are 0. -/
theorem decode_of_matchesRow {w : CommandWord} {row : CommandWord × CommandWord} (mem : row ∈ opcodeMap)
    (h : matchesRow w row = true) : ∃ i, decode w = .ok i := by
  rw [matchesRow, beq_iff_eq] at h
  unfold decode
  simp only [opcodeMap, List.mem_cons, List.not_mem_nil, or_false] at mem
  obtain rfl | rfl | rfl | rfl | rfl | rfl | rfl | rfl | rfl | rfl := mem
  case inl =>
    rw [show opcodeField w = 1 from extract_of_masked h 56 8 rfl]
    exact ⟨_, formatC_ok.mpr ⟨extract_of_masked h 0 8 rfl, rfl⟩⟩
  case inr.inr.inr.inl =>
    rw [show opcodeField w = 4 from extract_of_masked h 56 8 rfl]
    exact ⟨_, formatB_ok.mpr ⟨extract_of_masked h 0 48 rfl, rfl⟩⟩
  all_goals
    rw [show opcodeField w = _ from extract_of_masked h 56 8 rfl]
    exact ⟨_, formatN_ok.mpr ⟨extract_of_masked h 0 56 rfl, rfl⟩⟩

/-- Every row of the opcode map asks for one opcode, and no opcode has two rows. -/
theorem opcodeField_of_matchesRow {w : CommandWord} {row : CommandWord × CommandWord} (mem : row ∈ opcodeMap)
    (h : matchesRow w row = true) : opcodeField row.1 = opcodeField w := by
  have ones : (opcodeMap.all fun row => opcodeField row.2 == 0xFF) = true := by decide
  rw [matchesRow, beq_iff_eq] at h
  exact (extract_of_masked h 56 8 (beq_iff_eq.mp (List.all_eq_true.mp ones row mem))).symm

/-- Settles O5: a word that decodes is an encoding, which matches its command's row; the opcodes of the rows differ. -/
theorem decodeAcceptsTheOpcodeMap : Obligations.DecodeAcceptsTheOpcodeMap := by
  intro w
  refine ⟨⟨fun ⟨i, h⟩ => ⟨i.mapRow, mapRow_mem i, ?_⟩, fun ⟨_, mem, h⟩ => decode_of_matchesRow mem h⟩, ?_⟩
  · rw [← encodeInvertsDecode w i h]
    exact matchesRow_encode i
  · have opcodes : (opcodeMap.map fun row => opcodeField row.1).Nodup := by decide
    calc (opcodeMap.filter (matchesRow w)).length
        = opcodeMap.countP (matchesRow w) := List.countP_eq_length_filter.symm
      _ ≤ opcodeMap.countP ((· == opcodeField w) ∘ fun row => opcodeField row.1) :=
          List.countP_mono_left fun row mem h => beq_iff_eq.mpr (opcodeField_of_matchesRow mem h)
      _ = (opcodeMap.map fun row => opcodeField row.1).count (opcodeField w) := List.countP_map.symm
      _ ≤ 1 := List.nodup_iff_count_le_one.mp opcodes _

end Sys2Proof

/-! PROOFS. 30_encoding.md: the textual form of a command (R55). -/

namespace Sys2Proof.Machine

/-! ## Numbers -/

/-- The characters a number is written in. -/
def IsDigit (c : Char) : Prop := ∃ d, d < 10 ∧ c = digitChar d

theorem digitValue_digitChar {d : Nat} (h : d < 10) : digitValue (digitChar d) = some d := by
  interval_cases d <;> rfl

/-- A digit is none of the characters that have a meaning of their own in a line. -/
theorem IsDigit.ne {c : Char} (h : IsDigit c) : c ≠ ' ' ∧ c ≠ ',' ∧ c ≠ ';' ∧ c ≠ 'x' := by
  obtain ⟨d, hd, rfl⟩ := h
  interval_cases d <;> decide

/-- Reading the digits written for `n` before others is going on from `n`. -/
theorem readDigits_decimalDigits (fuel n : Nat) (acc : List Char) (h : n < 10 ^ fuel) (hf : fuel ≠ 0) :
    readDigits 10 (decimalDigits fuel n acc) 0 = readDigits 10 acc n := by
  induction fuel generalizing n acc with
  | zero => exact absurd rfl hf
  | succ fuel ih =>
    rw [decimalDigits]
    split
    case isTrue one => simp [readDigits, digitValue_digitChar one, one]
    case isFalse more =>
      have last : n % 10 < 10 := Nat.mod_lt _ (by decide)
      rw [Nat.pow_succ] at h
      have shorter : n / 10 < 10 ^ fuel := by omega
      have some_left : fuel ≠ 0 := by rintro rfl; simp at h; omega
      rw [ih _ _ shorter some_left, readDigits, digitValue_digitChar last]
      simp only [last, if_true]
      congr 1
      omega

theorem isDigit_decimalDigits (fuel n : Nat) (acc : List Char) (h : ∀ c ∈ acc, IsDigit c) :
    ∀ c ∈ decimalDigits fuel n acc, IsDigit c := by
  induction fuel generalizing n acc with
  | zero => exact h
  | succ fuel ih =>
    rw [decimalDigits]
    split
    case isTrue one => exact List.forall_mem_cons.mpr ⟨⟨n, one, rfl⟩, h⟩
    case isFalse more => exact ih _ _ (List.forall_mem_cons.mpr ⟨⟨_, Nat.mod_lt _ (by decide), rfl⟩, h⟩)

theorem isDigit_decimalText (n : Nat) : ∀ c ∈ decimalText n, IsDigit c :=
  isDigit_decimalDigits 10 n [] (fun _ h => absurd h List.not_mem_nil)

theorem decimalDigits_ne_nil (fuel n : Nat) (acc : List Char) (h : fuel ≠ 0 ∨ acc ≠ []) :
    decimalDigits fuel n acc ≠ [] := by
  induction fuel generalizing n acc with
  | zero => simpa [decimalDigits] using h
  | succ fuel ih =>
    rw [decimalDigits]
    split
    · exact List.cons_ne_nil _ _
    · exact ih _ _ (.inr (List.cons_ne_nil _ _))

theorem decimalText_ne_nil (n : Nat) : decimalText n ≠ [] := decimalDigits_ne_nil 10 n [] (.inl (by decide))

/-- A number in decimal has no mark of a hexadecimal one, and reads back. -/
theorem readNumber_decimalText {n : Nat} (h : n < 10 ^ 10) : readNumber (decimalText n) = some n := by
  have read : readDigits 10 (decimalText n) 0 = some n := readDigits_decimalDigits 10 n [] h (by decide)
  have digits := isDigit_decimalText n
  cases text : decimalText n with
  | nil => exact absurd text (decimalText_ne_nil n)
  | cons c rest =>
    rw [text] at read digits
    have no_prefix : ¬ (c = '0' ∧ rest.head? = some 'x' ∧ 1 < rest.length) := by
      rintro ⟨-, head, -⟩
      exact (digits 'x' (List.mem_cons_of_mem _ (List.mem_of_head? head))).ne.2.2.2 rfl
    rw [readNumber, if_neg no_prefix, read]

theorem readOperand_decimalText {w : Nat} (b : BitVec w) (h : w ≤ 32) : readOperand w (decimalText b.toNat) = some b := by
  have fits : b.toNat < 2 ^ 32 := b.isLt.trans_le (Nat.pow_le_pow_right (by decide) h)
  rw [readOperand, readNumber_decimalText (fits.trans (by decide))]
  simp [b.isLt]

/-! ## The parts of a line -/

/-- A text with no blank at either end is not trimmed. -/
theorem trimBlanks_eq {cs : List Char} (first : cs.head? ≠ some ' ') (last : cs.getLast? ≠ some ' ') :
    trimBlanks cs = cs := by
  have front : ∀ {xs : List Char}, xs.head? ≠ some ' ' → xs.dropWhile (· == ' ') = xs := by
    intro xs h
    cases xs with
    | nil => rfl
    | cons x xs => exact List.dropWhile_cons_of_neg (by simpa using h)
  rw [trimBlanks, front first, front (by rwa [List.head?_reverse]), List.reverse_reverse]

/-- A blank before a text is trimmed. -/
theorem trimBlanks_blank (cs : List Char) : trimBlanks (' ' :: cs) = trimBlanks cs := rfl

theorem trimBlanks_decimalText (n : Nat) : trimBlanks (decimalText n) = decimalText n :=
  trimBlanks_eq (fun h => (isDigit_decimalText n _ (List.mem_of_head? h)).ne.1 rfl)
    (fun h => (isDigit_decimalText n _ (List.mem_of_getLast? h)).ne.1 rfl)

/-- A text without the separator is one part. -/
theorem splitAtChar_single {sep : Char} {cs : List Char} (h : sep ∉ cs) : splitAtChar sep cs = [cs] := by
  induction cs with
  | nil => rfl
  | cons c cs ih =>
    rw [List.mem_cons, not_or] at h
    rw [splitAtChar, if_neg (Ne.symm h.1), ih h.2]

/-- The first separator ends the first part. -/
theorem splitAtChar_append {sep : Char} {cs : List Char} (h : sep ∉ cs) (rest : List Char) :
    splitAtChar sep (cs ++ sep :: rest) = cs :: splitAtChar sep rest := by
  induction cs with
  | nil => rw [List.nil_append, splitAtChar, if_pos rfl]
  | cons c cs ih =>
    rw [List.mem_cons, not_or] at h
    rw [List.cons_append, splitAtChar, if_neg (Ne.symm h.1), ih h.2]

/-- A mnemonic holds no blank and no comment sign, and no two commands have one mnemonic. -/
theorem mnemonicText_letters (c : Command) : ∀ x ∈ mnemonicText c, x ≠ ' ' ∧ x ≠ ';' := by
  have letters : ((mnemonicText c).all fun x => x != ' ' && x != ';') = true := by cases c <;> rfl
  simpa using letters

theorem find_mnemonicText (c : Command) : allCommands.find? (fun d => mnemonicText d == mnemonicText c) = some c := by
  cases c <;> rfl

/-- A line of a mnemonic and its operands, set off by a blank, is read part by part. -/
theorem parseLine_mnemonic {c : Command} {ops : List Char} (uncommented : ∀ x ∈ ops, x ≠ ';')
    (blank : ∀ x ∈ ops.head?, x = ' ') (last : ops.getLast? ≠ some ' ') :
    parseLine (mnemonicText c ++ ops) = instrOfTexts c (readOperandTexts ops) := by
  have letters := mnemonicText_letters c
  have body : trimBlanks ((mnemonicText c ++ ops).takeWhile (· != ';')) = mnemonicText c ++ ops := by
    have whole : (mnemonicText c ++ ops).takeWhile (· != ';') = mnemonicText c ++ ops := by
      rw [List.takeWhile_eq_self_iff]
      intro x hx
      rcases List.mem_append.mp hx with hx | hx
      · simpa using (letters x hx).2
      · simpa using uncommented x hx
    rw [whole]
    apply trimBlanks_eq
    · cases c <;> exact fun h => absurd (Option.some.inj h) (by decide)
    · rw [List.getLast?_append]
      cases h : ops.getLast? with
      | none => exact fun hx => (letters _ (List.mem_of_getLast? hx)).1 rfl
      | some x => rwa [h] at last
  have stop : ops.takeWhile (· != ' ') = [] ∧ ops.dropWhile (· != ' ') = ops := by
    cases ops with
    | nil => exact ⟨rfl, rfl⟩
    | cons x xs => obtain rfl : x = ' ' := blank x rfl; exact ⟨rfl, rfl⟩
  have word : ∀ x ∈ mnemonicText c, (x != ' ') = true := fun x hx => by simpa using (letters x hx).1
  rw [parseLine]
  simp only [body, List.takeWhile_append_of_pos word, List.dropWhile_append_of_pos word, stop, List.append_nil,
    find_mnemonicText]

/-- Neither a blank nor a separator stands in a number. -/
theorem decimalText_letters (n : Nat) : ' ' ∉ decimalText n ∧ ',' ∉ decimalText n ∧ ';' ∉ decimalText n :=
  ⟨fun h => (isDigit_decimalText n _ h).ne.1 rfl, fun h => (isDigit_decimalText n _ h).ne.2.1 rfl,
    fun h => (isDigit_decimalText n _ h).ne.2.2.1 rfl⟩

/-- A text that ends in a number ends in no blank. -/
theorem getLast?_append_decimalText (cs : List Char) (n : Nat) : (cs ++ decimalText n).getLast? ≠ some ' ' := by
  rw [List.getLast?_append_of_ne_nil _ (decimalText_ne_nil n)]
  exact fun h => (decimalText_letters n).1 (List.mem_of_getLast? h)

/-- The last operand of a line is what stands behind the last blank. -/
theorem splitAtChar_last (n : Nat) :
    (splitAtChar ',' (' ' :: decimalText n)).map trimBlanks = [decimalText n] := by
  rw [splitAtChar_single (by simp [(decimalText_letters n).2.1])]
  simp [trimBlanks_blank, trimBlanks_decimalText]

/-- An operand before another is what stands between a blank and a comma. -/
theorem splitAtChar_next (n : Nat) (rest : List Char) :
    (splitAtChar ',' (' ' :: decimalText n ++ ',' :: rest)).map trimBlanks
      = decimalText n :: (splitAtChar ',' rest).map trimBlanks := by
  rw [splitAtChar_append (by simp [(decimalText_letters n).2.1])]
  simp [trimBlanks_blank, trimBlanks_decimalText]

/-- What trims to nothing is blank. -/
theorem blank_of_trimBlanks_eq_nil {cs : List Char} (h : trimBlanks cs = []) : ∀ c ∈ cs, c = ' ' := by
  rw [trimBlanks, List.reverse_eq_nil_iff, List.dropWhile_eq_nil_iff] at h
  intro c hc
  rw [← List.takeWhile_append_dropWhile (p := (· == ' ')) (l := cs), List.mem_append] at hc
  rcases hc with front | back
  · simpa using List.mem_takeWhile_imp front
  · simpa using h c (List.mem_reverse.mpr back)

/-- Operands that end in a number are not blank, and are read one by one. -/
theorem readOperandTexts_eq (cs : List Char) (n : Nat) :
    readOperandTexts (cs ++ decimalText n) = (splitAtChar ',' (cs ++ decimalText n)).map trimBlanks := by
  have kept : trimBlanks (cs ++ decimalText n) ≠ [] := by
    obtain ⟨c, hc⟩ := List.exists_mem_of_ne_nil _ (decimalText_ne_nil n)
    intro h
    exact (isDigit_decimalText n c hc).ne.1 (blank_of_trimBlanks_eq_nil h c (List.mem_append_right _ hc))
  rw [readOperandTexts, if_neg kept]

/-- The line of a command with one operand. -/
theorem parseLine_one (c : Command) (a : Nat) :
    parseLine (mnemonicText c ++ ' ' :: decimalText a) = instrOfTexts c [decimalText a] := by
  have line := parseLine_mnemonic (c := c) (ops := [' '] ++ decimalText a)
    (by simp; intro x; exact fun h => (isDigit_decimalText a _ h).ne.2.2.1) (by simp)
    (getLast?_append_decimalText [' '] a)
  rw [readOperandTexts_eq] at line
  exact line.trans (congrArg _ (splitAtChar_last a))

/-- The line of a command with three operands. -/
theorem parseLine_three (c : Command) (x y z : Nat) :
    parseLine (mnemonicText c ++ ' ' :: decimalText x ++ ',' :: ' ' :: decimalText y ++ ',' :: ' ' :: decimalText z)
      = instrOfTexts c [decimalText x, decimalText y, decimalText z] := by
  have line := parseLine_mnemonic (c := c)
    (ops := (' ' :: decimalText x ++ ',' :: ' ' :: decimalText y ++ [',', ' ']) ++ decimalText z) ?_ (by simp)
    (getLast?_append_decimalText _ z)
  · rw [readOperandTexts_eq] at line
    rw [← splitAtChar_last z, ← splitAtChar_next y, ← splitAtChar_next x]
    simpa using line
  · intro c hc
    have uncommented : ∀ n, ';' ∉ decimalText n := fun n => (decimalText_letters n).2.2
    rintro rfl
    simp [uncommented] at hc

/-- Settles O6: what is written between the blanks and the commas of a line is a number, and reads back as one. -/
theorem textReadsBack : Obligations.TextReadsBack := by
  intro i
  cases i with
  | writeByte b =>
    rw [renderLine, parseLine_one, instrOfTexts, readOperand_decimalText b (by decide)]
    rfl
  | configure sda scl speed =>
    rw [renderLine, parseLine_three, instrOfTexts]
    simp only [readOperand_decimalText sda (by decide), readOperand_decimalText scl (by decide),
      readOperand_decimalText speed (by decide)]
  | start | stop | readByte | sendAck | sendNack | checkAck | getSdaPin | getSclPin => rfl

end Sys2Proof.Machine

/-! PROOFS. 20_memory.md and 40_timing_and_line_driver.md: the primitives and the bounds of the calibration. -/

namespace Sys2Proof.Machine

/-! ## Calibration -/

/-- Settles O12: the quotient falls as the divisor grows. -/
theorem calibrateMonotone : Obligations.CalibrateMonotone := by
  intro freq speed speed' positive faster
  rw [calibrate_eq_sub, calibrate_eq_sub]
  exact Nat.sub_le_sub_right (Nat.div_le_div_left faster positive) 130

/-- Settles O13: the quotient reaches 130 exactly where the product reaches 130 times the speed. -/
theorem calibrateClampBoundary : Obligations.CalibrateClampBoundary := by
  intro freq speed positive
  rw [calibrate_eq_sub]
  constructor
  · intro within
    have quotient : 130 ≤ freq * 500000 / speed := (Nat.le_div_iff_mul_le positive).mpr (by omega)
    exact Nat.sub_add_cancel quotient
  · intro beyond
    have quotient : freq * 500000 / speed < 130 := (Nat.div_lt_iff_lt_mul positive).mpr (by omega)
    exact Nat.sub_eq_zero_of_le quotient.le

/-- Settles O14: at the lowest armed speed the quotient is 500 times the frequency. -/
theorem delayFitsUpToFrequencyBound : Obligations.DelayFitsUpToFrequencyBound := by
  constructor
  · intro speed freq armed bound
    have slowest : freq * 500000 / speed ≤ freq * 500000 / 1000 := Nat.div_le_div_left armed (by decide)
    have fits : freq * 500000 / speed - 130 < 4294967296 := by omega
    rw [calibrate_eq_sub]
    exact decide_eq_true fits
  · decide

/-! ## The primitives -/

/-- Settles O16: the write, the record of the event and the record of the low pins, put together. -/
theorem linesWriteIsOneAction : Obligations.LinesWriteIsOneAction := fun _ _ => rfl

/-- Settles O18: the answer is the count cut to the counter's width, and the count only grows. -/
theorem cycleReadWraps : Obligations.CycleReadWraps := fun _ =>
  ⟨BitVec.toNat_ofNat _ _, Nat.le_add_right _ _, rfl⟩

/-- The environment leaves the pins alone before an event for which no change is listed. -/
theorem settle_of_moves_nil {e : Env} (h : e.moves = []) : e.settle = e := by
  obtain ⟨heldLow, moves⟩ := e
  subst h
  rfl

/-- Settles O15: `LINE` is read between two changes of the environment, and the read changes nothing it depends on. -/
theorem pinReadIsWiredAnd : Obligations.PinReadIsWiredAnd := by
  intro s
  refine ⟨by simp, rfl, by simp, rfl, fun unchanged => ?_⟩
  have still : s.env.settle.settle = s.env.settle := settle_of_moves_nil (by rw [(settle_fields _).2.1, unchanged])
  constructor
  · rw [pinReadScl_value (pinReadScl s).2, pinReadScl_value s]
    simp [still]
  · rw [pinReadSda_value (pinReadSda s).2, pinReadSda_value s]
    simp [still]

/-- Which GPIOs are low (20_memory.md R32, R38). -/
theorem mem_lowPins {s : State} {held : List Nat} {g : Nat} :
    g ∈ s.lowPins held ↔ g ∈ held ∨ (g = s.gpioSda ∧ s.drv.sda = false) ∨ (g = s.gpioScl ∧ s.drv.scl = false) := by
  rw [State.lowPins]
  cases s.drv.sda <;> cases s.drv.scl <;> simp <;> tauto

/-- With two distinct pins the levels of the selected GPIOs are the wired AND of `DRV` and what else holds them. -/
theorem levelsOf_lowPins {s : State} (distinct : s.gpioSda ≠ s.gpioScl) (held : List Nat) :
    levelsOf s.gpioSda s.gpioScl (s.lowPins held) = wiredAnd s.drv (levelsOf s.gpioSda s.gpioScl held) := by
  have level : ∀ (g : Nat) (b : Bit), (g ∈ s.lowPins held ↔ g ∈ held ∨ b = false) →
      levelOf g (s.lowPins held) = (b && levelOf g held) := by
    intro g b h
    rw [Bool.eq_iff_iff, Bool.and_eq_true, levelOf_eq_true, levelOf_eq_true, h]
    cases b <;> simp
  rw [levelsOf, level s.gpioSda s.drv.sda (by simp [mem_lowPins, distinct]),
    level s.gpioScl s.drv.scl (by simp [mem_lowPins, distinct.symm])]
  rfl

/-- Settles O17: a GPIO that is not selected is low only where something else holds it. -/
theorem selectedPinsAreTheOnesDriven : Obligations.SelectedPinsAreTheOnesDriven := fun _ s =>
  ⟨fun _ => mem_lowPins, fun distinct => (levelsOf_lowPins distinct s.env.heldLow).symm⟩

end Sys2Proof.Machine

/-! PROOFS. 30_encoding.md, 60_exceptions.md and 70_reset_and_hazards.md: what one step takes from the host, and what it
refuses. -/

namespace Sys2Proof.Machine

/-- A free block takes the command word at the head of the host's list. -/
theorem step_command {s : State} {w : CommandWord} {rest : List HostInput} (free : s.busy = false)
    (host : s.env.host = .command w :: rest) : step s = stepWord w { s with env := { s.env with host := rest } } := by
  simp [step, fetch, host, free]

/-- Settles O7: the word is taken, decoded and run. -/
theorem stepRunsDecodedCommand : Obligations.StepRunsDecodedCommand := by
  intro s w i rest free host decoded
  rw [step_command free host, stepWord, decoded]

/-- Settles O8: by the opcode map, a word that matches no row does not decode. -/
theorem stepRefusesInvalidWord : Obligations.StepRefusesInvalidWord := by
  intro s w rest free host unmatched
  rw [step_command free host, stepWord]
  cases decoded : decode w with
  | ok i =>
    obtain ⟨row, mem, matched⟩ := (decodeAcceptsTheOpcodeMap w).1.mp ⟨i, decoded⟩
    exact absurd (matched.symm.trans (unmatched row mem)) (by decide)
  | error why => exact ⟨why, rfl⟩

/-- A system reset at the head of the host's list is taken whatever the block does. -/
theorem step_reset {s : State} {rest : List HostInput} (host : s.env.host = .systemReset :: rest) :
    step s = .next (systemReset { s with env := { s.env with host := rest } }) := by
  simp [step, fetch, host]

/-- Settles O9: the four values stand in the reset state. -/
theorem resetStateAsSpecified : Obligations.ResetStateAsSpecified := ⟨rfl, rfl, rfl, rfl⟩

/-- Settles O10: a reset is taken before anything the block does, and writes the block's own state only. -/
theorem systemResetFromAnyState : Obligations.SystemResetFromAnyState := fun _ _ host =>
  ⟨_, step_reset host, rfl, rfl, rfl, rfl, rfl, rfl⟩

/-- A block that executes a command refuses every other (60_exceptions.md R141). -/
theorem exec_busy {s : State} (busy : s.busy = true) (i : Instr) : exec i s = .refused .commandWhileBusy := by
  by_cases h : ∃ sda scl speed, i = .configure sda scl speed
  · obtain ⟨sda, scl, speed, rfl⟩ := h
    rw [exec, execConfigure, if_pos busy]
  · obtain ⟨k, guarded⟩ := exec_eq_whenReady (fun sda scl speed e => h ⟨sda, scl, speed, e⟩) s
    rw [guarded, whenReady_busy busy]

/-- Settles O46: a step on a waiting command goes on with it, and neither its call nor its sequence takes an input. -/
theorem noCommandWhileBusy : Obligations.NoCommandWhileBusy := by
  intro i s t busy
  refine ⟨exec_busy busy i, fun noReset next => ?_⟩
  obtain ⟨r, run, moved⟩ := resume_settles s
  obtain ⟨-, -, -, -, -, -, -, -, -, -, -, host⟩ := moved.fields
  rw [step_busy busy noReset, run] at next
  rcases settle_next next with ⟨u, rfl, rfl⟩ | rfl
  · exact host
  · exact host

/-! ## What CONFIGURE and START refuse -/

/-- From reset or from idle a CONFIGURE is not refused as one in mid-transaction (41_bus_init_and_configure.md R91). -/
theorem not_midTransaction {s : State} (idle : s.configured = true → s.ls = ⟨true, true⟩) :
    (s.configured && !idleRequested s) = false := by
  cases configured : s.configured
  · rfl
  · simp [idleRequested, idle configured]

/-- Settles O47: the three tests of CONFIGURE before it latches anything. -/
theorem configureRefusals : Obligations.ConfigureRefusals := by
  intro s sda scl speed free
  constructor
  · intro configured mid
    have refused : (s.configured && !idleRequested s) = true := by simp [configured, idleRequested, mid]
    simp [exec, execConfigure, free, refused]
  · intro idle
    refine ⟨fun unmapped => ?_, fun g mapped unmapped => ?_, fun g mapped same => ?_⟩
    · simp [exec, execConfigure, free, not_midTransaction idle, unmapped]
    · simp [exec, execConfigure, free, not_midTransaction idle, mapped, unmapped]
    · simp [exec, execConfigure, free, not_midTransaction idle, mapped, same, configureMapped]

/-- A delay that does not fit is no calibration. -/
theorem recalibrate_none {s : State} (h : 2 ^ 32 ≤ calibrate s.cfg.speedHz.toNat s.env.nextFreq.cpuFreq) :
    recalibrate s = none := by
  rw [recalibrate_eq, if_neg (Nat.not_lt.mpr h)]

/-- The clamped speed as a number (41_bus_init_and_configure.md R88). -/
theorem clampSpeed_toNat (speed : Speed) : (clampSpeed speed).toNat = max speed.toNat 1000 := by
  unfold clampSpeed Config.minSpeedHz
  split
  case isTrue slow => rw [Nat.max_eq_right slow.le]; rfl
  case isFalse fast => rw [Nat.max_eq_left (Nat.not_lt.mp fast)]

/-- The frequency a CONFIGURE calibrates by is the one at its read, whatever the pins do before it. -/
theorem latchConfig_calibration (sda scl : PinId) (speed : Speed) (gSda gScl : Nat) (s : State) :
    (latchConfig sda scl speed gSda gScl s).cfg.speedHz = clampSpeed speed
      ∧ (latchConfig sda scl speed gSda gScl s).env.nextFreq.cpuFreq = s.env.nextFreq.cpuFreq := ⟨rfl, rfl⟩

/-- Settles O48: both commands calibrate by the frequency they read, CONFIGURE by the speed it has just armed. -/
theorem oversizeDelayRefused : Obligations.OversizeDelayRefused := by
  constructor
  · intro s ready oversize
    have none_fits : recalibrate (accept .start .cal s) = none := recalibrate_none oversize
    simp [exec, execStart, whenReady_ready ready, none_fits]
  · intro s sda scl speed gSda gScl free idle mappedSda mappedScl distinct oversize
    have none_fits : recalibrate (latchConfig sda scl speed gSda gScl (accept .configure .setup s)) = none := by
      obtain ⟨armed, frequency⟩ := latchConfig_calibration sda scl speed gSda gScl (accept .configure .setup s)
      refine recalibrate_none ?_
      rw [armed, frequency, clampSpeed_toNat]
      exact oversize
    simp [exec, execConfigure, free, not_midTransaction idle, mappedSda, mappedScl, configureMapped, distinct, none_fits]

/-- Settles O60: the calls of each sequence, counted. -/
theorem callCountsOfTheTimingTable : Obligations.CallCountsOfTheTimingTable := by
  intro order
  cases order <;> decide

end Sys2Proof.Machine

/-! PROOFS. 40_timing_and_line_driver.md: one call of `set_lines`, and the two waits poll by poll. -/

namespace Sys2Proof.Machine

/-! ## A call that ends at its first polls, and one that waits -/

theorem setLines_effect {a b : Nat} {s t : State} (h : setLines a b s = .done t) :
    CallEffect ⟨a.testBit 0, b.testBit 0⟩ s t := by
  rcases setLines_spec a b s with ⟨u, run, effect⟩ | ⟨u, run, -⟩ <;> cases run.symm.trans h
  exact effect

theorem setLines_waits {a b : Nat} {s t : State} (h : setLines a b s = .waiting t) :
    CallWaits ⟨a.testBit 0, b.testBit 0⟩ s t := by
  rcases setLines_spec a b s with ⟨u, run, -⟩ | ⟨u, run, waits⟩ <;> cases run.symm.trans h
  exact waits

/-- Settles O20: the events of a completed call in their order, with the delay wait's two reads where there is a delay
and the one read of SCL where SCL was requested high. -/
theorem setLinesFiveSteps : Obligations.SetLinesFiveSteps := by
  intro a b s t run
  have effect := setLines_effect run
  obtain ⟨ts, waited, hist⟩ := effect.hist
  have frame := effect.frame.state
  rw [effect.ls, effect.drv] at frame
  refine ⟨frame, effect.frame.env, ts, if b.testBit 0 then [true] else [], ?_, ?_, ?_, ?_, ?_⟩
  · rw [hist]
    cases b.testBit 0 <;> simp
  · rintro undelayed
    rcases waited with ⟨-, none_read, kept⟩ | ⟨delayed, -⟩
    · exact ⟨none_read, kept⟩
    · omega
  · rintro delayed
    rcases waited with ⟨undelayed, -⟩ | ⟨-, last, reads, elapsed⟩
    · omega
    · exact ⟨last, reads, of_decide_eq_true elapsed⟩
  · exact fun low => by rw [low]; rfl
  · exact fun high => by rw [high]; rfl

/-- Settles O21: a call records its pair before it waits, and applies it before it polls SCL. -/
theorem waitingCallHoldsOldPairUntilApplied : Obligations.WaitingCallHoldsOldPairUntilApplied := by
  intro a b s t run
  have waits := setLines_waits run
  refine ⟨waits.ls, ?_⟩
  rw [waits.ls]
  rcases waits.wait with ⟨delay, kept, hist⟩ | ⟨stretch, ts, -, hist⟩
  · exact .inl ⟨delay.1, kept, hist⟩
  · obtain ⟨phase, -, applied, low⟩ := stretch
    refine .inr ⟨phase, applied.trans waits.ls, ?_, ts, by rw [hist]; simp⟩
    rw [State.line, wiredAnd, low, Bool.and_false]

/-- With no change of the pins to come, a call leaves the environment's pins alone. -/
theorem CallFrame.extLines_eq {s t : State} (h : CallFrame s t) (unchanged : s.env.moves = []) :
    t.extLines = s.extLines ∧ t.env.moves = [] := by
  obtain ⟨-, sda, scl, -⟩ := h.fields
  have held : t.env.heldLow = s.env.heldLow := by rw [h.moved.heldLow, Env.heldAfter, unchanged]; simp
  exact ⟨by rw [State.extLines, State.extLines, sda, scl, held], by rw [h.moved.moves, unchanged, List.drop_nil]⟩

/-- Settles O22: both calls leave `LS` and `DRV` at the one pair they are given, and neither moves the pins. -/
theorem setLinesIdempotent : Obligations.SetLinesIdempotent := by
  intro a b s t u unchanged first second
  have once := setLines_effect first
  have twice := setLines_effect second
  have drv : u.drv = t.drv := twice.drv.trans once.drv.symm
  obtain ⟨-, still⟩ := once.frame.extLines_eq unchanged
  obtain ⟨pins, -⟩ := twice.frame.extLines_eq still
  exact ⟨twice.ls.trans once.ls.symm, drv, by rw [State.line, State.line, drv, pins]⟩

/-! ## One more poll -/

/-- A step in the delay wait: one more read of the counter, and the call goes on if it shows `DELAY`. -/
theorem resumeCall_delay {s : State} (phase : s.upc.phase = .waitPoll) :
    resumeCall s = if delayElapsed s.delay s.t0 (cycleRead s).1 then driveStep (cycleRead s).2
      else .waiting (cycleRead s).2 := by
  rcases pollDelay_spec s with ⟨run, elapsed⟩ | ⟨run, elapsed⟩ <;> simp only [resumeCall, phase, run, elapsed] <;> rfl

/-- A step in the stretch poll: one more read of SCL, and the call is over if it answers 1. -/
theorem resumeCall_stretch {s : State} (phase : s.upc.phase = .stretchPoll) :
    resumeCall s = if (pinReadScl s).1 then .done (pinReadScl s).2 else .waiting (pinReadScl s).2 := by
  rcases pollStretch_spec s with ⟨run, high⟩ | ⟨run, high⟩ <;> simp only [resumeCall, phase, run, high] <;> rfl

/-- A poll that leaves a call waiting is all the step does. -/
theorem resume_of_waiting {s t : State} (h : resumeCall s = .waiting t) : resume s = .next t := by
  rw [resume, h]; rfl

/-- What a step that settles a run leaves of the state in which the run ended. -/
theorem settle_kept {r : Run} {t : State} (h : settle r = .next t) :
    t = { r.state with resp := t.resp, configured := t.configured, upc := t.upc, busy := t.busy } := by
  rcases settle_next h with ⟨u, rfl, rfl⟩ | rfl <;> rfl

/-- The events of the call in progress are the first of the step that goes on with it. -/
theorem resume_hist {s t : State} (h : resume s = .next t) : (resumeCall s).state.hist <+: t.hist := by
  have kept : t.hist = ((resumeCall s).bind fun u => runMicros (restOfCommand s) (callDone u)).state.hist := by
    rw [settle_kept h]
  rw [kept]
  exact Run.bind_state (P := fun u => (resumeCall s).state.hist <+: u.hist) (List.prefix_refl _)
    fun u begun => begun.trans (runMicros_moved (restOfCommand s) (callDone u)).moved.hist

/-- The test of the delay wait, as numbers. -/
theorem delayElapsed_eq_true {delay t0 t : Cycles} : delayElapsed delay t0 t = true ↔ delay.toNat ≤ (t - t0).toNat := by
  rw [delayElapsed, decide_eq_true_iff]

theorem delayElapsed_eq_false {delay t0 t : Cycles} :
    delayElapsed delay t0 t = false ↔ (t - t0).toNat < delay.toNat := by
  rw [delayElapsed, decide_eq_false_iff_not, Nat.not_le]

/-- The delay wait arms with one read and polls with another, which shows whether `DELAY` cycles have elapsed. -/
theorem waitCycles_hist (s : State) : ∃ x : Cycles,
    (waitCycles s).state.hist = s.hist ++ [.cyc (waitCycles s).state.t0, .cyc x]
      ∧ ((∃ t, waitCycles s = .done t) ↔ s.delay.toNat ≤ (x - (waitCycles s).state.t0).toNat) := by
  have delay : ((armDelay s).enter .waitPoll).delay = s.delay := rfl
  have last : (cycleRead ((armDelay s).enter .waitPoll)).2.t0 = ((armDelay s).enter .waitPoll).t0 := rfl
  have hist : (cycleRead ((armDelay s).enter .waitPoll)).2.hist
      = s.hist ++ [.cyc ((armDelay s).enter .waitPoll).t0, .cyc (cycleRead ((armDelay s).enter .waitPoll)).1] := by
    simp
  refine ⟨(cycleRead ((armDelay s).enter .waitPoll)).1, ?_⟩
  rcases pollDelay_spec ((armDelay s).enter .waitPoll) with ⟨run, elapsed⟩ | ⟨run, elapsed⟩
  · rw [delay, delayElapsed_eq_true] at elapsed
    rw [waitCycles, run, Run.state, last]
    exact ⟨hist, fun _ => elapsed, fun _ => ⟨_, rfl⟩⟩
  · rw [delay, delayElapsed_eq_false] at elapsed
    rw [waitCycles, run, Run.state, last]
    exact ⟨hist, fun ⟨_, h⟩ => (by cases h), fun reached => absurd reached (Nat.not_le.mpr elapsed)⟩

/-- Settles O19: each poll is one read, and the first that shows `DELAY` lets the call go on to apply its pair. -/
theorem delayWaitEndsAtFirstElapsedRead : Obligations.DelayWaitEndsAtFirstElapsedRead := by
  refine ⟨fun s t run => ?_, fun s t run => ?_, fun cmd s t waits delay noReset next => ?_⟩
  · obtain ⟨x, hist, done⟩ := waitCycles_hist s
    rw [run] at hist done
    exact ⟨x, hist, done.mp ⟨t, rfl⟩⟩
  · obtain ⟨x, hist, done⟩ := waitCycles_hist s
    rw [run] at hist done
    exact ⟨x, hist, Nat.not_le.mp fun elapsed => by obtain ⟨_, h⟩ := done.mpr elapsed; cases h⟩
  · obtain ⟨phase, positive, -⟩ := delay
    obtain ⟨busy, -⟩ := waits
    rw [step_busy busy noReset] at next
    have call := resumeCall_delay phase
    have begun := resume_hist next
    have value : (cycleRead s).1 = counterValue (s.env.cycles + s.env.ticks.headD s.env.pace) := rfl
    cases elapsed : delayElapsed s.delay s.t0 (cycleRead s).1 with
    | false =>
      rw [elapsed] at call
      cases (resume_of_waiting call).symm.trans next
      refine ⟨(cycleRead s).1, [], eventsBetween_of_hist (by simp), value, fun _ => ?_, fun reached => ?_⟩
      · exact ⟨rfl, ⟨by simpa using phase, by simpa using positive, by simpa using elapsed⟩, by simp, by simp, by simp,
          by simp⟩
      · exact absurd reached (Nat.not_le.mpr (delayElapsed_eq_false.mp elapsed))
    | true =>
      obtain ⟨v, -, -, -, -, -, driven⟩ := driveStep_spec (cycleRead s).2
      have applied : s.hist ++ [.cyc (cycleRead s).1, .drv s.ls] <+: (resumeCall s).state.hist := by
        rw [call, elapsed, if_pos rfl]
        rcases driven with ⟨run, hist, -⟩ | ⟨run, hist, -⟩ <;> rw [run] <;> simp [Run.state, hist]
      obtain ⟨more, hist⟩ := applied.trans begun
      refine ⟨(cycleRead s).1, .drv s.ls :: more, eventsBetween_of_hist (by rw [← hist]; simp), value, fun below => ?_,
        fun _ => ⟨more, rfl⟩⟩
      exact absurd (delayElapsed_eq_true.mp elapsed) (Nat.not_le.mpr below)

end Sys2Proof.Machine

/-! PROOFS. 60_exceptions.md: the two waits, poll after poll: how long they last and how they end. -/

namespace Sys2Proof.Machine

/-! ## Several steps -/

/-- One step at the head of a run. -/
theorem run_cons {n : Nat} {s t : State} (h : step s = .next t) : Sys2Proof.core.run (n + 1) s = Sys2Proof.core.run n t := by
  simp only [Host.Core.run, core, h]

/-- A run that goes through begins with a step that does. -/
theorem run_next {n : Nat} {s u : State} (h : Sys2Proof.core.run (n + 1) s = .next u) :
    ∃ t, step s = .next t ∧ Sys2Proof.core.run n t = .next u := by
  simp only [Host.Core.run, core] at h
  cases first : step s with
  | next t => rw [first] at h; exact ⟨t, rfl, h⟩
  | fault r => cases r
  | refused r => rw [first] at h; cases h

/-- One more step at the end of a run. -/
theorem run_succ {n : Nat} {s t u : State} (h : Sys2Proof.core.run n s = .next t) (k : step t = .next u) :
    Sys2Proof.core.run (n + 1) s = .next u := by
  induction n generalizing s with
  | zero =>
    cases h
    rw [run_cons k]
    rfl
  | succ n ih =>
    obtain ⟨v, first, rest⟩ := run_next h
    rw [run_cons first]
    exact ih rest

/-! ## The stretch poll, while SCL is held low -/

/-- The state after `n` polls of SCL that read 0. -/
def afterPolls (n : Nat) (s : State) : State :=
  { s with
    env := { s.env with heldLow := s.env.heldAfter n, moves := s.env.moves.drop n }
    hist := s.hist ++ List.replicate n (.rscl false)
    bus := s.bus ++ (s.env.moves.take n).flatten.map s.lowPins }

theorem afterPolls_zero (s : State) : afterPolls 0 s = s := by simp [afterPolls]

/-- The changes before the event after `n` more. -/
theorem flatten_take_succ {α : Type} (n : Nat) (l : List (List α)) :
    (l.take (n + 1)).flatten = (l.take n).flatten ++ (l.drop n).headD [] := by
  induction n generalizing l with
  | zero => cases l <;> simp
  | succ n ih => cases l with
    | nil => simp
    | cons x xs => simp [ih xs]

/-- The environment after the changes before `n` events, at the next. -/
theorem settle_heldAfter (e : Env) (n : Nat) :
    Env.settle { e with heldLow := e.heldAfter n, moves := e.moves.drop n }
      = { e with heldLow := e.heldAfter (n + 1), moves := e.moves.drop (n + 1) } := by
  have held : ((e.moves.drop n).headD []).getLast?.getD (e.heldAfter n) = e.heldAfter (n + 1) := by
    rw [Env.heldAfter, Env.heldAfter, flatten_take_succ, getLast_append_getD]
  have moves : (e.moves.drop n).tail = e.moves.drop (n + 1) := List.tail_drop
  rw [Env.settle, Env.nextMoves]
  simp only [held, moves]

/-- One more poll that reads 0. -/
theorem pinReadScl_afterPolls {n : Nat} {s : State} (low : s.gpioScl ∈ s.env.heldAfter (n + 1)) :
    (pinReadScl (afterPolls n s)).1 = false ∧ (pinReadScl (afterPolls n s)).2 = afterPolls (n + 1) s := by
  have env : (afterPolls n s).env.settle = (afterPolls (n + 1) s).env := settle_heldAfter s.env n
  have value : (pinReadScl (afterPolls n s)).1 = false := by
    rw [pinReadScl_value, env]
    simpa [afterPolls] using fun _ => low
  refine ⟨value, ?_⟩
  have line : (interleave (afterPolls n s)).line.scl = false := value
  rw [pinReadScl, line]
  simp only [interleave, State.log, env]
  simp [afterPolls, Env.nextMoves, flatten_take_succ, List.replicate_succ', State.lowPins]

/-- While SCL is held low a command waits in its stretch poll, wherever in the wait it stands. -/
theorem afterPolls_waits {cmd : Command} {n : Nat} {s : State} (waits : WaitsIn cmd s) (stretch : InStretchWait s)
    (low : s.gpioScl ∈ s.env.heldAfter n) : WaitsIn cmd (afterPolls n s) ∧ InStretchWait (afterPolls n s) := by
  obtain ⟨busy, command, calls, -⟩ := waits
  obtain ⟨phase, high, applied, -⟩ := stretch
  have still : InStretchWait (afterPolls n s) := ⟨phase, high, applied, (levelOf_eq_false _ _).mpr low⟩
  exact ⟨⟨busy, command, calls, .inr still⟩, still⟩

/-- While SCL is held low, each step is one poll of 0 (60_exceptions.md R132). -/
theorem run_afterPolls {cmd : Command} {s : State} (waits : WaitsIn cmd s) (stretch : InStretchWait s)
    (noReset : NoReset s) (n : Nat) (low : ∀ j ≤ n, s.gpioScl ∈ s.env.heldAfter j) :
    Sys2Proof.core.run n s = .next (afterPolls n s) := by
  induction n with
  | zero => rw [afterPolls_zero]; rfl
  | succ n ih =>
    obtain ⟨⟨busy, -⟩, phase, -⟩ := afterPolls_waits waits stretch (low n (Nat.le_succ n))
    obtain ⟨value, next⟩ := pinReadScl_afterPolls (low (n + 1) le_rfl)
    refine run_succ (ih fun j hj => low j (Nat.le_succ_of_le hj)) ?_
    rw [step_busy busy noReset, ← next]
    exact resume_of_waiting (by rw [resumeCall_stretch phase, value]; rfl)

/-- A GPIO that is held low before each of the next `n` events is low after each of them. -/
theorem Env.HoldsFor.heldAfter {e : Env} {g n : Nat} (h : e.HoldsFor g n) (j : Nat) (hj : j ≤ n) :
    g ∈ e.heldAfter j := by
  rw [Env.heldAfter]
  cases last : (e.moves.take j).flatten.getLast? with
  | none => exact h.1
  | some v =>
    obtain ⟨vs, hvs, hv⟩ := List.mem_flatten.mp (List.mem_of_getLast? last)
    exact h.2 vs ((List.take_prefix_take_left hj).subset hvs) v hv

/-- Settles O24: a slave that holds SCL for good holds it before the events of any number of polls. -/
theorem stretchHangNeverCompletes : Obligations.StretchHangNeverCompletes := by
  intro cmd s n waits stretch held noReset
  have low : ∀ j, s.gpioScl ∈ s.env.heldAfter j := fun j =>
    Env.HoldsFor.heldAfter (n := j) ⟨held.1, fun vs hvs => held.2 vs (List.mem_of_mem_take hvs)⟩ j le_rfl
  obtain ⟨waitsOn, stretchOn⟩ := afterPolls_waits waits stretch (low n)
  exact ⟨_, run_afterPolls waits stretch noReset n fun j _ => low j, waitsOn, stretchOn, rfl, rfl, rfl, rfl, rfl⟩

/-- Once SCL is let go, the next poll reads 1: the call is over, and the command is over or in a later call. -/
theorem resume_released {s : State} (stretch : InStretchWait s) (released : s.gpioScl ∉ s.env.heldAfter 1) :
    ∃ u rest, resume s = .next u ∧ eventsBetween s u = .rscl true :: rest
      ∧ (u.busy = false ∨ s.upc.calls < u.upc.calls) := by
  obtain ⟨u, next, ends⟩ := resume_spec s (.inr stretch)
  obtain ⟨phase, high, applied, -⟩ := stretch
  have value : (pinReadScl s).1 = true := by
    rw [pinReadScl_value, settle_heldLow, applied, high]
    simpa using released
  have call : resumeCall s = .done (pinReadScl s).2 := by rw [resumeCall_stretch phase, if_pos value]
  have begun := resume_hist next
  have read : (pinReadScl s).2.hist = s.hist ++ [.rscl (pinReadScl s).1] := rfl
  rw [call, Run.state, read, value] at begun
  obtain ⟨rest, hist⟩ := begun
  refine ⟨u, rest, next, eventsBetween_of_hist (by rw [← hist]; simp), ?_⟩
  rcases ends with ⟨v, -, -, -, -, -, -, ⟨w, -, -, -, rfl⟩ | ⟨-, -, later, -⟩⟩ | ⟨waiting, -⟩
  · exact .inl rfl
  · exact .inr later
  · cases call.symm.trans waiting

/-- Settles O23: `n` polls of 0, and then one of 1, with which the call ends and the calls after it follow. -/
theorem stretchMakesOnePollPerLowAnswer : Obligations.StretchMakesOnePollPerLowAnswer := by
  intro cmd s n waits stretch noReset held
  have low := held.heldAfter
  obtain ⟨waitsOn, stretchOn⟩ := afterPolls_waits waits stretch (low n le_rfl)
  refine ⟨_, run_afterPolls waits stretch noReset n low, waitsOn, stretchOn, rfl, ?_, fun released => ?_⟩
  · intro pins hpins
    rw [show (afterPolls n s).bus = s.bus ++ _ from rfl, List.drop_left] at hpins
    obtain ⟨v, hv, rfl⟩ := List.mem_map.mp hpins
    obtain ⟨vs, hvs, hv⟩ := List.mem_flatten.mp hv
    exact (levelOf_eq_false _ _).mpr (mem_lowPins.mpr (.inl (held.2 vs hvs v hv)))
  · have let_go : s.gpioScl ∉ (afterPolls n s).env.heldAfter 1 := by
      rwa [← settle_heldLow, show (afterPolls n s).env.settle = _ from settle_heldAfter s.env n]
    obtain ⟨u, rest, next, events, ends⟩ := resume_released stretchOn let_go
    exact ⟨u, rest, by rw [step_busy waitsOn.1 noReset, next], events, ends⟩

/-! ## The delay wait, while the counter stands still -/

/-- The state after `n` reads of a counter that does not move. -/
def afterReads (n : Nat) (s : State) : State :=
  { s with
    env := { s.env with heldLow := s.env.heldAfter n, moves := s.env.moves.drop n, ticks := s.env.ticks.drop n }
    hist := s.hist ++ List.replicate n (.cyc (counterValue s.env.cycles))
    bus := s.bus ++ (s.env.moves.take n).flatten.map s.lowPins }

theorem afterReads_zero (s : State) : afterReads 0 s = s := by simp [afterReads]

/-- One more read of a counter that stands still. -/
theorem cycleRead_afterReads {n : Nat} {s : State} (still : ∀ x ∈ s.env.ticks, x = 0) (stopped : s.env.pace = 0) :
    (cycleRead (afterReads n s)).1 = counterValue s.env.cycles
      ∧ (cycleRead (afterReads n s)).2 = afterReads (n + 1) s := by
  have tick : (s.env.ticks.drop n).headD s.env.pace = 0 := by
    cases h : s.env.ticks.drop n with
    | nil => exact stopped
    | cons x xs => exact still x (List.mem_of_mem_drop (h ▸ List.mem_cons_self))
  have count : (afterReads n s).env.advance.cycles = s.env.cycles := by
    rw [(advance_fields _).2.2.1]
    exact congrArg (s.env.cycles + ·) tick
  have env : (afterReads n s).env.settle.advance = (afterReads (n + 1) s).env := by
    have pins : (afterReads n s).env.settle = _ := settle_heldAfter { s.env with ticks := s.env.ticks.drop n } n
    rw [pins, Env.advance]
    simp only [tick, List.tail_drop]
    rfl
  refine ⟨by rw [cycleRead_value, count], ?_⟩
  have answer : counterValue (afterReads (n + 1) s).env.cycles = counterValue s.env.cycles := rfl
  rw [cycleRead]
  simp only [interleave, State.log, env, answer]
  simp [afterReads, Env.nextMoves, flatten_take_succ, List.replicate_succ', State.lowPins]

/-- While the counter stands still a command waits in its delay wait, wherever in the wait it stands. -/
theorem afterReads_waits {cmd : Command} {s : State} (waits : WaitsIn cmd s) (delay : InDelayWait s) (n : Nat) :
    WaitsIn cmd (afterReads n s) ∧ InDelayWait (afterReads n s) := by
  obtain ⟨busy, command, calls, -⟩ := waits
  exact ⟨⟨busy, command, calls, .inl delay⟩, delay⟩

/-- While the counter stands still, each step is one read that shows no more than the last (60_exceptions.md R133). -/
theorem run_afterReads {s : State} (busy : s.busy = true) (delay : InDelayWait s) (noReset : NoReset s)
    (still : ∀ x ∈ s.env.ticks, x = 0) (stopped : s.env.pace = 0) (n : Nat) :
    Sys2Proof.core.run n s = .next (afterReads n s) := by
  obtain ⟨phase, -, elapsed⟩ := delay
  induction n with
  | zero => rw [afterReads_zero]; rfl
  | succ n ih =>
    obtain ⟨value, next⟩ := cycleRead_afterReads (n := n) still stopped
    refine run_succ ih ?_
    rw [step_busy (s := afterReads n s) busy noReset, ← next]
    refine resume_of_waiting ?_
    rw [resumeCall_delay (s := afterReads n s) phase, value,
      show delayElapsed (afterReads n s).delay (afterReads n s).t0 (counterValue s.env.cycles) = false from elapsed]
    rfl

/-- Settles O25: a counter that stands still shows at every read what it showed at the first. -/
theorem stoppedCounterNeverCompletes : Obligations.StoppedCounterNeverCompletes := by
  intro cmd s n waits delay still stopped noReset
  obtain ⟨waitsOn, delayOn⟩ := afterReads_waits waits delay n
  exact ⟨_, run_afterReads waits.1 delay noReset still stopped n, waitsOn, delayOn, rfl, rfl, rfl, rfl⟩

end Sys2Proof.Machine

/-! PROOFS. 60_exceptions.md: a wait that the environment serves in the end is over after finitely many polls. -/

namespace Sys2Proof.Machine

/-! ## A step on a waiting command -/

/-- The calls behind the one in progress. -/
theorem WaitsIn.callCount_rest {cmd : Command} {s : State} (h : WaitsIn cmd s) :
    s.upc.calls + 1 + callCount (restOfCommand s) = callCount (bodyOf cmd s.env.pulseOrder) := by
  obtain ⟨-, command, calls, -⟩ := h
  rw [restOfCommand, command]
  show s.upc.calls + 1 + callCount (dropCalls (s.upc.calls + 1) (bodyOf cmd s.env.pulseOrder)) = _
  rw [callCount_dropCalls _ _ calls]
  omega

/-- A wait reached from a command's waiting is a wait of that command. -/
theorem WaitsIn.of_moved {cmd : Command} {s t : State} (h : WaitsIn cmd s) (moved : SequenceMoved s t)
    (calls : t.upc.calls < callCount (bodyOf cmd s.env.pulseOrder)) (wait : InDelayWait t ∨ InStretchWait t) :
    WaitsIn cmd t := by
  obtain ⟨busy, command, -⟩ := h
  obtain ⟨-, -, -, -, -, keepsBusy, keepsCommand, -, -, order, -⟩ := moved.fields
  exact ⟨keepsBusy.trans busy, keepsCommand.trans command, by rwa [order], wait⟩

/-- A step on a waiting command ends it, or leaves it waiting in a later call or, after one poll more, in this one. -/
theorem WaitsIn.resume_next {cmd : Command} {s : State} (h : WaitsIn cmd s) :
    ∃ t, resume s = .next t ∧ RecordsGrow s t
      ∧ (AtRest t
        ∨ (WaitsIn cmd t ∧ SequenceMoved s t ∧ (s.upc.calls < t.upc.calls ∨ resumeCall s = .waiting t))) := by
  have rest := h.callCount_rest
  have ⟨_, _, within, wait⟩ := h
  obtain ⟨t, next, ends⟩ := resume_spec s wait
  refine ⟨t, next, ?_⟩
  rcases ends with ⟨v, -, frame, -, -, -, -, over_or_waits⟩ | ⟨waiting, frame, -, -, waits⟩
  · have begun : SequenceMoved s (callDone v) := frame.sequence.trans (callDone_moved v)
    rcases over_or_waits with ⟨u, -, moved, -, rfl⟩ | ⟨-, moved, later, calls, waits⟩
    · exact ⟨⟨(begun.trans moved).moved.hist, (begun.trans moved).moved.bus⟩, .inl ⟨rfl, rfl⟩⟩
    · exact ⟨⟨(begun.trans moved).moved.hist, (begun.trans moved).moved.bus⟩,
        .inr ⟨h.of_moved (begun.trans moved) (by omega) waits, begun.trans moved, .inl later⟩⟩
  · obtain ⟨-, -, -, -, -, -, -, calls, -⟩ := frame.fields
    exact ⟨⟨frame.moved.hist, frame.moved.bus⟩,
      .inr ⟨h.of_moved frame.sequence (by omega) (waits.imp_left And.left), frame.sequence, .inr waiting⟩⟩

/-! ## How near a wait is to its end -/

/-- The cycles that the last read of a delay wait has shown. -/
def shown (s : State) : Nat := (counterValue s.env.cycles - s.t0).toNat

/-- How far a waiting command is from its end: the calls it has left, whether the present one has still to be applied, the
answers of the environment that are listed, and the cycles its delay wait has left. -/
def waitRank (cmd : Command) (s : State) : ℕ ×ₗ ℕ ×ₗ ℕ ×ₗ ℕ :=
  toLex (callCount (bodyOf cmd s.env.pulseOrder) - s.upc.calls,
    toLex (if s.upc.phase = .waitPoll then 1 else 0,
      toLex (s.env.ticks.length + s.env.moves.length, s.delay.toNat - shown s)))

/-- What the environment must do for a waiting command to be over in the end. -/
structure Served (cmd : Command) (s : State) : Prop where
  waits : WaitsIn cmd s
  noReset : NoReset s
  releases : s.env.ReleasesAtLast s.gpioScl
  advances : 1 ≤ s.env.pace
  unaliased : s.env.pace + s.delay.toNat ≤ 2 ^ 32

/-- An environment that serves a waiting command goes on serving it. -/
theorem Served.of_moved {cmd : Command} {s t : State} (h : Served cmd s) (moved : SequenceMoved s t)
    (waits : WaitsIn cmd t) : Served cmd t := by
  obtain ⟨-, -, scl, delay, -, -, -, -, pace, -, -, host⟩ := moved.fields
  refine ⟨waits, ?_, ?_, by rw [pace]; exact h.advances, by rw [pace, delay]; exact h.unaliased⟩
  · unfold NoReset
    rw [host]
    exact h.noReset
  · rw [scl]
    exact moved.moved.releasesAtLast h.releases

/-- A counter that moves on without wrapping past its start has shown that much more. -/
theorem counter_shows (c n : Nat) (t0 : Cycles) (h : (counterValue c - t0).toNat + n < 2 ^ 32) :
    (counterValue (c + n) - t0).toNat = (counterValue c - t0).toNat + n := by
  have later : counterValue (c + n) - t0 = (counterValue c - t0) + BitVec.ofNat Config.counterWidth n := by
    rw [show counterValue (c + n) = counterValue c + BitVec.ofNat Config.counterWidth n from BitVec.ofNat_add _ _,
      BitVec.sub_eq_add_neg, BitVec.sub_eq_add_neg, add_right_comm]
  have small : n < 2 ^ Config.counterWidth := (Nat.le_add_left n _).trans_lt h
  rw [later, BitVec.toNat_add, BitVec.toNat_ofNat, Nat.mod_eq_of_lt small, Nat.mod_eq_of_lt h]

/-- One more read of the counter below `DELAY` uses up an answer that is listed, or brings the count nearer to it. -/
theorem Served.rank_cycleRead {cmd : Command} {s : State} (h : Served cmd s) (delay : InDelayWait s) :
    waitRank cmd (cycleRead s).2 < waitRank cmd s := by
  have advances := h.advances
  have unaliased := h.unaliased
  have below : shown s < s.delay.toNat := Nat.not_le.mp (of_decide_eq_false delay.2.2)
  have lists : (cycleRead s).2.env.ticks.length + (cycleRead s).2.env.moves.length
      < s.env.ticks.length + s.env.moves.length
      ∨ (s.env.ticks = [] ∧ s.env.moves = []) := by
    rcases ticks : s.env.ticks <;> rcases moves : s.env.moves <;> simp [ticks, moves]
    omega
  have same : (cycleRead s).2.upc = s.upc := rfl
  have order : (cycleRead s).2.env.pulseOrder = s.env.pulseOrder := rfl
  rw [waitRank, waitRank, same, order]
  refine Prod.Lex.toLex_lt_toLex.mpr (.inr ⟨rfl, Prod.Lex.toLex_lt_toLex.mpr (.inr ⟨rfl, Prod.Lex.toLex_lt_toLex.mpr ?_⟩)⟩)
  refine lists.imp_right fun ⟨ticks, moves⟩ => ⟨by simp [ticks, moves], ?_⟩
  have pace : (cycleRead s).2.env.cycles = s.env.cycles + s.env.pace := by simp [ticks]
  have more : shown (cycleRead s).2 = shown s + s.env.pace := by
    rw [shown, pace]
    exact counter_shows _ _ s.t0 (by unfold shown at below; omega)
  show s.delay.toNat - shown (cycleRead s).2 < s.delay.toNat - shown s
  omega

/-- One more read of 0 of SCL uses up a change that is listed, as SCL is let go by the last. -/
theorem Served.rank_pinReadScl {cmd : Command} {s : State} (h : Served cmd s) (stretch : InStretchWait s)
    (low : (pinReadScl s).1 = false) : waitRank cmd (pinReadScl s).2 < waitRank cmd s := by
  have listed : s.env.moves ≠ [] := by
    intro used_up
    have held : s.gpioScl ∈ s.env.settle.heldLow := by
      rw [pinReadScl_value, stretch.2.2.1, stretch.2.1, Bool.true_and, levelOf_eq_false] at low
      exact low
    rw [settle_of_moves_nil used_up] at held
    have released := h.releases
    rw [Env.ReleasesAtLast, used_up] at released
    exact released held
  have lists : (pinReadScl s).2.env.ticks.length + (pinReadScl s).2.env.moves.length
      < s.env.ticks.length + s.env.moves.length := by
    rcases moves : s.env.moves with - | ⟨v, vs⟩
    · exact absurd moves listed
    · simp [moves]
  exact Prod.Lex.toLex_lt_toLex.mpr (.inr ⟨rfl, Prod.Lex.toLex_lt_toLex.mpr (.inr ⟨rfl,
    Prod.Lex.toLex_lt_toLex.mpr (.inl lists)⟩)⟩)

/-- One more poll that does not end its call brings the command nearer to its end. -/
theorem Served.rank_lt {cmd : Command} {s t : State} (h : Served cmd s) (waiting : resumeCall s = .waiting t) :
    waitRank cmd t < waitRank cmd s := by
  have ⟨_, _, _, wait⟩ := h.waits
  rcases wait with delay | stretch
  · rw [resumeCall_delay delay.1] at waiting
    split at waiting
    case isFalse below => cases waiting; exact h.rank_cycleRead delay
    case isTrue elapsed =>
      obtain ⟨u, frame, -, -, -, applied, ⟨run, -⟩ | ⟨run, -⟩⟩ := driveStep_spec (cycleRead s).2 <;>
        cases run.symm.trans waiting
      have same := (cycleRead_frame s).trans frame
      obtain ⟨-, -, -, -, -, -, -, calls, -⟩ := same.fields
      obtain ⟨-, -, -, -, -, -, -, -, -, order, -⟩ := same.sequence.fields
      rw [waitRank, waitRank, order, calls, if_neg applied, if_pos delay.1]
      exact Prod.Lex.toLex_lt_toLex.mpr (.inr ⟨rfl, Prod.Lex.toLex_lt_toLex.mpr (.inl Nat.one_pos)⟩)
  · rw [resumeCall_stretch stretch.1] at waiting
    split at waiting
    case isTrue high => cases waiting
    case isFalse low => cases waiting; exact h.rank_pinReadScl stretch (by simpa using low)

/-- A step on a served command ends it or brings it nearer to its end. -/
theorem Served.step_next {cmd : Command} {s : State} (h : Served cmd s) :
    ∃ t, step s = .next t ∧ RecordsGrow s t ∧ (AtRest t ∨ (Served cmd t ∧ waitRank cmd t < waitRank cmd s)) := by
  obtain ⟨t, next, grown, ends⟩ := h.waits.resume_next
  refine ⟨t, by rw [step_busy h.waits.1 h.noReset, next], grown, ends.imp_right fun ⟨waits, moved, onward⟩ => ?_⟩
  refine ⟨h.of_moved moved waits, ?_⟩
  rcases onward with later | waiting
  · obtain ⟨-, -, -, -, -, -, -, -, -, order, -⟩ := moved.fields
    have within := h.waits.2.2.1
    rw [waitRank, waitRank, order, Prod.Lex.toLex_lt_toLex]
    exact .inl (by omega)
  · exact h.rank_lt waiting

/-- Settles O26: the distance to the end has no infinite descent. -/
theorem servedWaitCompletes : Obligations.ServedWaitCompletes := by
  intro cmd s waits noReset releases advances unaliased
  have served : Served cmd s := ⟨waits, noReset, releases, advances, unaliased⟩
  clear waits noReset releases advances unaliased
  induction rank : waitRank cmd s using WellFoundedLT.induction generalizing s with
  | ind r ih =>
    subst rank
    obtain ⟨t, next, grown, rest | ⟨onward, nearer⟩⟩ := served.step_next
    · exact ⟨1, t, by rw [run_cons next]; rfl, rest, grown⟩
    · obtain ⟨n, u, run, rest, more⟩ := ih _ nearer t onward rfl
      exact ⟨n + 1, u, by rw [run_cons next, run], rest, grown.1.trans more.1, grown.2.trans more.2⟩

end Sys2Proof.Machine

/-! PROOFS. 20_memory.md: the values of `LINE` that a device takes note of (R49). -/

namespace Sys2Proof.Machine

/-! ## A reader of the bus and repeated values -/

/-- Where a reader of the bus stands after further values of `LINE`. -/
def scanTo (sc : BusScan) (vs : List Lines) : BusScan := vs.foldl scanNext sc

/-- With SCL low nothing of a high phase is pending. -/
def BusScan.Settled (sc : BusScan) : Prop := sc.last.scl = false → sc.fromLow = false ∧ sc.condition = false

theorem scanNext_last (sc : BusScan) (v : Lines) : (scanNext sc v).last = v := by
  unfold scanNext
  split <;> rfl

theorem scanNext_settled (sc : BusScan) (v : Lines) : (scanNext sc v).Settled := by
  intro low
  rw [scanNext_last] at low
  unfold scanNext
  rw [low]
  cases sc.last.scl <;> exact ⟨rfl, rfl⟩

/-- A value of `LINE` again completes nothing and moves nothing (20_memory.md R49, log 14). -/
theorem scan_repeated {sc : BusScan} (settled : sc.Settled) :
    scanEvents sc sc.last = [] ∧ scanNext sc sc.last = sc := by
  obtain ⟨⟨sda, scl⟩, fromLow, condition⟩ := sc
  cases scl with
  | true => simp [scanEvents, scanNext]
  | false =>
    obtain ⟨rfl, rfl⟩ := settled rfl
    exact ⟨rfl, rfl⟩

theorem scanTo_last (sc : BusScan) (vs : List Lines) : (scanTo sc vs).last = vs.getLast?.getD sc.last := by
  induction vs generalizing sc with
  | nil => rfl
  | cons v vs ih =>
    rw [scanTo, List.foldl_cons, ← scanTo, ih, scanNext_last, List.getLast?_cons, Option.getD_some]

theorem scanTo_settled {sc : BusScan} (settled : sc.Settled) (vs : List Lines) : (scanTo sc vs).Settled := by
  induction vs generalizing sc with
  | nil => exact settled
  | cons v vs ih => exact ih (scanNext_settled sc v)

theorem scanTo_append (sc : BusScan) (vs ws : List Lines) : scanTo sc (vs ++ ws) = scanTo (scanTo sc vs) ws :=
  List.foldl_append

theorem scanBus_append (sc : BusScan) (vs ws : List Lines) :
    scanBus sc (vs ++ ws) = scanBus sc vs ++ scanBus (scanTo sc vs) ws := by
  induction vs generalizing sc with
  | nil => rfl
  | cons v vs ih => rw [List.cons_append, scanBus, scanBus, ih, List.append_assoc]; rfl

/-- A reader whose last value was `v` takes the same note of both sequences. -/
def SameView (v : Lines) (vs ws : List Lines) : Prop :=
  ∀ sc : BusScan, sc.Settled → sc.last = v → scanBus sc vs = scanBus sc ws ∧ scanTo sc vs = scanTo sc ws

theorem SameView.append {v : Lines} {vs ws vs' ws' : List Lines} (h : SameView v vs ws)
    (k : SameView (ws.getLast?.getD v) vs' ws') : SameView v (vs ++ vs') (ws ++ ws') := by
  intro sc settled last
  obtain ⟨events, stands⟩ := h sc settled last
  obtain ⟨more, ends⟩ := k (scanTo sc ws) (scanTo_settled settled ws) (by rw [scanTo_last, last])
  constructor
  · rw [scanBus_append, scanBus_append, events, stands, more]
  · rw [scanTo_append, scanTo_append, stands, ends]

/-- The value `LINE` has already, any number of times, is nothing to a reader. -/
theorem sameView_repeated {α : Type} (v : Lines) (level : α → Lines) (xs : List α) (h : ∀ x ∈ xs, level x = v) :
    SameView v (xs.map level) [] := by
  intro sc settled last
  induction xs with
  | nil => exact ⟨rfl, rfl⟩
  | cons x xs ih =>
    obtain ⟨here, rest⟩ := List.forall_mem_cons.mp h
    obtain ⟨none, stays⟩ := scan_repeated settled
    obtain ⟨events, stands⟩ := ih rest
    rw [List.map_cons, here, ← last]
    constructor
    · show scanEvents sc sc.last ++ scanBus (scanNext sc sc.last) (xs.map level) = []
      rw [none, stays, events]; rfl
    · rw [scanTo, List.foldl_cons, stays, ← scanTo, stands]

/-! ## What the block shows on two pins of its own -/

/-- From `s` to `t` a device on the two selected pins, with nothing else pulling them low, takes note of what it would of
the pairs `ps`. -/
structure Sees (s t : State) (ps : List Lines) : Prop where
  moved : Moved s t
  pins : t.gpioSda = s.gpioSda ∧ t.gpioScl = s.gpioScl
  drv : t.drv = ps.getLast?.getD s.drv
  view : s.gpioSda ≠ s.gpioScl → s.env.Quiet s.gpioSda → s.env.Quiet s.gpioScl →
    ∃ low, t.bus = s.bus ++ low ∧ SameView s.drv (low.map (levelsOf s.gpioSda s.gpioScl)) ps

theorem Sees.trans {s u t : State} {ps qs : List Lines} (h : Sees s u ps) (k : Sees u t qs) : Sees s t (ps ++ qs) := by
  obtain ⟨sda, scl⟩ := h.pins
  refine ⟨h.moved.trans k.moved, ⟨k.pins.1.trans sda, k.pins.2.trans scl⟩, ?_, fun distinct quietSda quietScl => ?_⟩
  · rw [k.drv, h.drv, getLast_append_getD]
  · obtain ⟨low, bus, same⟩ := h.view distinct quietSda quietScl
    have onward := k.view
    rw [sda, scl, h.drv] at onward
    obtain ⟨low', bus', same'⟩ := onward distinct (h.moved.quiet quietSda) (h.moved.quiet quietScl)
    exact ⟨low ++ low', by rw [bus', bus, List.append_assoc], by rw [List.map_append]; exact same.append same'⟩

/-- A GPIO that nothing pulls low is in none of the changes before the next event, and not low after them. -/
theorem Env.Quiet.next {e : Env} {g : Nat} (h : e.Quiet g) : (∀ v ∈ e.nextMoves, g ∉ v) ∧ g ∉ e.settle.heldLow := by
  refine ⟨fun v hv => ?_, by rw [settle_heldLow]; exact quiet_heldAfter h 1⟩
  rw [Env.nextMoves] at hv
  cases moves : e.moves with
  | nil => rw [moves] at hv; cases hv
  | cons vs rest => rw [moves] at hv; exact h.2 vs (by rw [moves]; exact List.mem_cons_self) v hv

/-- With nothing else on two distinct pins, their levels are the pair the block drives. -/
theorem levelsOf_lowPins_quiet {s : State} {held : List Nat} (distinct : s.gpioSda ≠ s.gpioScl) (sda : s.gpioSda ∉ held)
    (scl : s.gpioScl ∉ held) : levelsOf s.gpioSda s.gpioScl (s.lowPins held) = s.drv := by
  rw [levelsOf_lowPins distinct, wiredAnd, levelsOf, (levelOf_eq_true _ _).mpr sda, (levelOf_eq_true _ _).mpr scl,
    Bool.and_true, Bool.and_true]

/-- An event that drives no pair shows the changes of the environment before it, and so nothing. -/
theorem Sees.event {s t : State} (moved : Moved s t) (pins : t.gpioSda = s.gpioSda ∧ t.gpioScl = s.gpioScl)
    (drv : t.drv = s.drv) (bus : t.bus = s.bus ++ s.env.nextMoves.map s.lowPins) : Sees s t [] := by
  refine ⟨moved, pins, drv, fun distinct quietSda quietScl => ⟨_, bus, ?_⟩⟩
  rw [List.map_map]
  exact sameView_repeated _ _ _ fun v hv =>
    levelsOf_lowPins_quiet distinct (quietSda.next.1 v hv) (quietScl.next.1 v hv)

/-- What is no event shows nothing. -/
theorem Sees.same {s t : State} (moved : Moved s t) (pins : t.gpioSda = s.gpioSda ∧ t.gpioScl = s.gpioScl)
    (drv : t.drv = s.drv) (bus : t.bus = s.bus) : Sees s t [] :=
  ⟨moved, pins, drv, fun _ _ _ => ⟨[], by rw [bus, List.append_nil], fun _ _ _ => ⟨rfl, rfl⟩⟩⟩

/-- The low pins that a `LinesWrite` records: at each change of the environment before it, and as it leaves them. -/
theorem linesWrite_bus (l : Lines) (s : State) : (linesWrite l s).bus
    = s.bus ++ (s.env.nextMoves.map s.lowPins ++ [(linesWrite l s).lowPins s.env.settle.heldLow]) := by
  rw [← List.append_assoc]
  rfl

/-- A `LinesWrite` shows its pair. -/
theorem linesWrite_sees (l : Lines) (s : State) : Sees s (linesWrite l s) [l] := by
  refine ⟨(linesWrite_frame l s).moved, ⟨rfl, rfl⟩, rfl, fun distinct quietSda quietScl => ?_⟩
  refine ⟨_, linesWrite_bus l s, ?_⟩
  rw [List.map_append, List.map_map, ← List.nil_append [l]]
  have shown : levelsOf s.gpioSda s.gpioScl ((linesWrite l s).lowPins s.env.settle.heldLow) = l :=
    levelsOf_lowPins_quiet (s := linesWrite l s) distinct quietSda.next.2 quietScl.next.2
  refine SameView.append (sameView_repeated _ _ _ fun v hv =>
    levelsOf_lowPins_quiet distinct (quietSda.next.1 v hv) (quietScl.next.1 v hv)) ?_
  rw [List.map_singleton, shown]
  exact fun _ _ _ => ⟨rfl, rfl⟩

end Sys2Proof.Machine

/-! PROOFS. 40_timing_and_line_driver.md: a call and a sequence of calls from their start to where they end or wait, however
many polls that takes. -/

namespace Sys2Proof.Machine

/-! ## Polls -/

/-- From `s` to `t` a call has polled or set its phase: no pair is recorded or driven, no SDA sample taken. -/
structure Idled (s t : State) : Prop where
  frame : CallFrame s t
  ls : t.ls = s.ls
  sampled : samplesOf t.hist = samplesOf s.hist
  sees : Sees s t []

theorem Idled.trans {s u t : State} (h : Idled s u) (k : Idled u t) : Idled s t :=
  ⟨h.frame.trans k.frame, k.ls.trans h.ls, k.sampled.trans h.sampled, h.sees.trans k.sees⟩

theorem enter_idled (ph : Phase) (s : State) : Idled s (s.enter ph) :=
  ⟨enter_frame ph s, rfl, rfl, .same (enter_frame ph s).moved ⟨rfl, rfl⟩ rfl rfl⟩

theorem cycleRead_idled (s : State) : Idled s (cycleRead s).2 :=
  ⟨cycleRead_frame s, rfl, by simp [samplesOf], .event (cycleRead_frame s).moved ⟨rfl, rfl⟩ rfl rfl⟩

theorem armDelay_idled (s : State) : Idled s (armDelay s) :=
  ⟨armDelay_frame s, rfl, by simp [samplesOf], .event (armDelay_frame s).moved ⟨rfl, rfl⟩ rfl rfl⟩

theorem pinReadScl_idled (s : State) : Idled s (pinReadScl s).2 :=
  ⟨pinReadScl_frame s, rfl, by simp [samplesOf], .event (pinReadScl_frame s).moved ⟨rfl, rfl⟩ rfl rfl⟩

/-- Step 3 of `set_lines` polls. -/
theorem delayStep_idled (s : State) : Idled s (delayStep s).state := by
  rw [delayStep]
  split
  · have armed : Idled s ((armDelay s).enter .waitPoll) := (armDelay_idled s).trans (enter_idled _ _)
    rw [waitCycles]
    rcases pollDelay_spec ((armDelay s).enter .waitPoll) with ⟨run, -⟩ | ⟨run, -⟩ <;> rw [run] <;>
      exact armed.trans (cycleRead_idled _)
  · exact (enter_idled s.upc.phase s)

/-! ## A call from its start -/

/-- From `s` to `t` a call of the pair `l` has begun: the pair is recorded. -/
structure CallMoved (l : Lines) (s t : State) : Prop where
  frame : CallFrame s t
  ls : t.ls = l
  sampled : samplesOf t.hist = samplesOf s.hist

/-- From `s` to `t` a call of the pair `l` has been made, with any number of polls. -/
structure CallMade (l : Lines) (s t : State) : Prop extends CallMoved l s t where
  drv : t.drv = l
  sees : Sees s t [l]

/-- From `s` to `t` a call of the pair `l` has begun, and waits, with any number of polls so far. -/
structure CallBegun (l : Lines) (s t : State) : Prop extends CallMoved l s t where
  wait : (InDelayWait t ∧ Sees s t []) ∨ (InStretchWait t ∧ Sees s t [l])

theorem recordLines_moved (l : Lines) (s : State) : CallMoved l s (recordLines l s) ∧ Sees s (recordLines l s) [] :=
  ⟨⟨recordLines_frame l s, rfl, by simp [samplesOf]⟩, .event (recordLines_frame l s).moved ⟨rfl, rfl⟩ rfl rfl⟩

theorem CallMoved.idled {l : Lines} {s u t : State} (h : CallMoved l s u) (k : Idled u t) : CallMoved l s t :=
  ⟨h.frame.trans k.frame, k.ls.trans h.ls, k.sampled.trans h.sampled⟩

/-- Steps 4 and 5 of `set_lines`, from where the pair is recorded and not yet applied. -/
theorem driveStep_made {l : Lines} {s u : State} (h : CallMoved l s u) (unseen : Sees s u []) :
    (∃ t, driveStep u = .done t ∧ CallMade l s t) ∨ (∃ t, driveStep u = .waiting t ∧ CallBegun l s t) := by
  have entered := h.idled (enter_idled .drive u)
  have written : CallMoved l s (linesWrite u.ls (u.enter .drive)) :=
    ⟨entered.frame.trans (linesWrite_frame _ _), h.ls, by
      rw [← entered.sampled]; simp [samplesOf]⟩
  have seen : Sees s (linesWrite u.ls (u.enter .drive)) [l] := by
    rw [← h.ls]
    exact (unseen.trans (enter_idled .drive u).sees).trans (linesWrite_sees u.ls _)
  by_cases high : u.ls.scl = true
  · have polls : driveStep u = pollStretch ((linesWrite u.ls (u.enter .drive)).enter .stretchPoll) := by
      rw [driveStep, stretchStep, if_pos (by simpa [requestsSclHigh] using high)]
    have polled := (enter_idled .stretchPoll (linesWrite u.ls (u.enter .drive))).trans (pinReadScl_idled _)
    rcases pollStretch_spec ((linesWrite u.ls (u.enter .drive)).enter .stretchPoll) with ⟨run, -⟩ | ⟨run, low⟩
    · exact .inl ⟨_, by rw [polls, run], written.idled polled, by simp [h.ls], seen.trans polled.sees⟩
    · refine .inr ⟨_, by rw [polls, run], written.idled polled, .inr ⟨⟨by simp, by simpa using high, by simp, ?_⟩,
        seen.trans polled.sees⟩⟩
      simpa [high, State.extLines, levelsOf] using low
  · refine .inl ⟨_, ?_, written, by simp [h.ls], seen⟩
    rw [driveStep, stretchStep, if_neg (by simpa [requestsSclHigh] using high)]

/-- Everything a `set_lines` call can do, seen from its start. -/
theorem setLines_made (a b : Nat) (s : State) :
    (∃ t, setLines a b s = .done t ∧ CallMade (normalize a b) s t) ∨
    (∃ t, setLines a b s = .waiting t ∧ CallBegun (normalize a b) s t) := by
  obtain ⟨recorded, unseen⟩ := recordLines_moved (normalize a b) s
  have waited := delayStep_idled (recordLines (normalize a b) s)
  rcases delayStep_spec (recordLines (normalize a b) s) with ⟨-, run⟩ | ⟨-, u, -, -, -, -, -, -, ⟨run, -⟩ | ⟨run, delay⟩⟩
  · rw [setLines, run]
    exact driveStep_made recorded unseen
  · rw [run] at waited
    rw [setLines, run]
    exact driveStep_made (recorded.idled waited) (unseen.trans waited.sees)
  · rw [run] at waited
    rw [setLines, run]
    exact .inr ⟨u, rfl, recorded.idled waited, .inl ⟨delay, unseen.trans waited.sees⟩⟩

/-- Everything going on with a call can do, seen from the call's start. -/
theorem CallBegun.goesOn {l : Lines} {s t : State} (h : CallBegun l s t) :
    (∃ v, resumeCall t = .done v ∧ CallMade l s v) ∨ (∃ v, resumeCall t = .waiting v ∧ CallBegun l s v) := by
  have begun := h.toCallMoved
  rcases h.wait with ⟨delay, unseen⟩ | ⟨stretch, seen⟩
  · have read := cycleRead_idled t
    rw [resumeCall_delay delay.1]
    split
    · exact driveStep_made (begun.idled read) (unseen.trans read.sees)
    next below =>
      refine .inr ⟨_, rfl, begun.idled read, .inl ⟨⟨delay.1, delay.2.1, by simpa using below⟩, unseen.trans read.sees⟩⟩
  · have read := pinReadScl_idled t
    rw [resumeCall_stretch stretch.1]
    split
    · exact .inl ⟨_, rfl, begun.idled read, stretch.2.2.1.trans h.ls, seen.trans read.sees⟩
    next low =>
      refine .inr ⟨_, rfl, begun.idled read, .inr ⟨⟨stretch.1, stretch.2.1, stretch.2.2.1, ?_⟩, seen.trans read.sees⟩⟩
      have value := low
      rw [pinReadScl_value, stretch.2.2.1, stretch.2.1, Bool.true_and] at value
      exact Bool.eq_false_of_not_eq_true value

/-! ## A sequence from its start -/

/-- A call that completes is no event of its own. -/
theorem callDone_hist (s : State) : (callDone s).hist = s.hist := rfl

/-- The pair a call asks for. -/
def callPair (a b : LineArg) (s : State) : Lines :=
  ⟨plannedBit a s.ls s.shreg s.bitcnt, plannedBit b s.ls s.shreg s.bitcnt⟩

/-- From `s` to `t` the parts `ms` of a command have been performed, its calls with any number of polls. -/
inductive Performs : List Micro → State → State → Prop where
  | nil (s : State) : Performs [] s s
  | call {a b : LineArg} {ms : List Micro} {s u t : State} (made : CallMade (callPair a b s) s u)
      (onward : Performs ms (callDone u) t) : Performs (.call a b :: ms) s t
  | sampleRaw {ms : List Micro} {s t : State} (onward : Performs ms (sampleRaw s) t) :
      Performs (.sampleRaw :: ms) s t
  | sampleBit {ms : List Micro} {s t : State} (onward : Performs ms (sampleBit s) t) :
      Performs (.sampleBit :: ms) s t
  | bitIndex {i : Nat} {ms : List Micro} {s t : State} (onward : Performs ms { s with bitcnt := i } t) :
      Performs (.bitIndex i :: ms) s t
  | pulseIndex {i : Nat} {ms : List Micro} {s t : State} (onward : Performs ms { s with pulsecnt := i } t) :
      Performs (.pulseIndex i :: ms) s t

/-- From `s` to `t` the parts `ms` have been performed up to a call that waits; `rest` is what follows that call. -/
def WaitsAmid (ms rest : List Micro) (s t : State) : Prop :=
  ∃ pre a b w, ms = pre ++ .call a b :: rest ∧ Performs pre s w ∧ CallBegun (callPair a b w) w t

/-- Running a sequence performs it, or performs it up to a call that waits. -/
theorem runMicros_performs (ms : List Micro) (s : State) :
    (∃ t, runMicros ms s = .done t ∧ Performs ms s t)
      ∨ (∃ t rest, runMicros ms s = .waiting t ∧ WaitsAmid ms rest s t) := by
  induction ms generalizing s with
  | nil => exact .inl ⟨s, rfl, .nil s⟩
  | cons m ms ih =>
    have silent : ∀ u, runMicro m s = .done u → (∀ {ns t}, Performs ns u t → Performs (m :: ns) s t) →
        (∃ t, runMicros (m :: ms) s = .done t ∧ Performs (m :: ms) s t)
          ∨ (∃ t rest, runMicros (m :: ms) s = .waiting t ∧ WaitsAmid (m :: ms) rest s t) := by
      intro u run prepend
      rw [show runMicros (m :: ms) s = runMicros ms u by rw [runMicros, run]; rfl]
      rcases ih u with ⟨t, run', done⟩ | ⟨t, rest, run', pre, a, b, w, rfl, done, begun⟩
      · exact .inl ⟨t, run', prepend done⟩
      · exact .inr ⟨t, rest, run', m :: pre, a, b, w, rfl, prepend done, begun⟩
    cases m with
    | call a b =>
      rcases setLines_made (a.value s) (b.value s) s with ⟨u, run, made⟩ | ⟨t, run, begun⟩
      · rw [normalize_planned] at made
        exact silent (callDone u) (by rw [runMicro, run]; rfl) (.call made)
      · rw [normalize_planned] at begun
        refine .inr ⟨t, ms, ?_, [], a, b, s, rfl, .nil s, begun⟩
        rw [runMicros, runMicro, run]
        rfl
    | sampleRaw => exact silent _ rfl .sampleRaw
    | sampleBit => exact silent _ rfl .sampleBit
    | bitIndex i => exact silent _ rfl .bitIndex
    | pulseIndex i => exact silent _ rfl .pulseIndex

theorem Performs.append {ms ns : List Micro} {s u t : State} (h : Performs ms s u) (k : Performs ns u t) :
    Performs (ms ++ ns) s t := by
  induction h with
  | nil s => exact k
  | call made _ ih => exact .call made (ih k)
  | sampleRaw _ ih => exact .sampleRaw (ih k)
  | sampleBit _ ih => exact .sampleBit (ih k)
  | bitIndex _ ih => exact .bitIndex (ih k)
  | pulseIndex _ ih => exact .pulseIndex (ih k)

end Sys2Proof.Machine

/-! PROOFS. 44_byte_transfer.md: what a sequence does to the working registers, and the samples it takes. -/

namespace Sys2Proof.Machine

/-! ## The parts of a sequence before and behind a call -/

/-- The parts of a sequence before its call number `n`. -/
def takeCalls : Nat → List Micro → List Micro
  | _, [] => []
  | 0, .call _ _ :: _ => []
  | n + 1, .call a b :: ms => .call a b :: takeCalls n ms
  | n, .sampleRaw :: ms => .sampleRaw :: takeCalls n ms
  | n, .sampleBit :: ms => .sampleBit :: takeCalls n ms
  | n, .bitIndex i :: ms => .bitIndex i :: takeCalls n ms
  | n, .pulseIndex i :: ms => .pulseIndex i :: takeCalls n ms

/-- A sequence is what comes before one of its calls, that call, and what is left behind it. -/
theorem exists_call {ms : List Micro} {n : Nat} (h : n < callCount ms) :
    ∃ a b, ms = takeCalls n ms ++ .call a b :: dropCalls (n + 1) ms := by
  induction ms generalizing n with
  | nil => simp [callCount] at h
  | cons m ms ih =>
    cases m with
    | call a b =>
      cases n with
      | zero => exact ⟨a, b, by simp [takeCalls, dropCalls]⟩
      | succ n =>
        obtain ⟨a', b', parts⟩ := ih (n := n) (by simpa [callCount] using h)
        exact ⟨a', b', congrArg _ parts⟩
    | sampleRaw | sampleBit | bitIndex _ | pulseIndex _ =>
      obtain ⟨a', b', parts⟩ := ih (n := n) h
      exact ⟨a', b', by simpa [takeCalls, dropCalls] using parts⟩

/-- Where the parts before a call are given, they are what `takeCalls` takes and `dropCalls` leaves out. -/
theorem takeCalls_append (pre : List Micro) (a b : LineArg) (rest : List Micro) :
    takeCalls (callCount pre) (pre ++ .call a b :: rest) = pre := by
  induction pre with
  | nil => simp [callCount, takeCalls]
  | cons m ms ih => cases m <;> simpa [callCount, takeCalls] using ih

theorem dropCalls_append (pre : List Micro) (a b : LineArg) (rest : List Micro) :
    dropCalls (callCount pre + 1) (pre ++ .call a b :: rest) = rest := by
  induction pre with
  | nil => simp [callCount, dropCalls]
  | cons m ms ih => cases m <;> simpa [callCount, dropCalls] using ih

theorem callCount_takeCalls {ms : List Micro} {n : Nat} (h : n < callCount ms) : callCount (takeCalls n ms) = n := by
  induction ms generalizing n with
  | nil => simp [callCount] at h
  | cons m ms ih =>
    cases m with
    | call a b =>
      cases n with
      | zero => rfl
      | succ n => simpa [takeCalls, callCount] using ih (n := n) (by simpa [callCount] using h)
    | sampleRaw | sampleBit | bitIndex _ | pulseIndex _ => simpa [takeCalls, callCount] using ih (n := n) h

/-! ## Frames -/

theorem CallMoved.sequence {l : Lines} {s t : State} (h : CallMoved l s t) : SequenceMoved s (callDone t) :=
  h.frame.sequence.trans (callDone_moved t)

theorem bitIndex_moved (i : Nat) (s : State) : SequenceMoved s { s with bitcnt := i } := ⟨rfl, rfl, .same rfl rfl rfl⟩

theorem pulseIndex_moved (i : Nat) (s : State) : SequenceMoved s { s with pulsecnt := i } := ⟨rfl, rfl, .same rfl rfl rfl⟩

/-- What a performed sequence may change, and how many calls it counts. -/
theorem Performs.moved {ms : List Micro} {s t : State} (h : Performs ms s t) :
    SequenceMoved s t ∧ t.upc.calls = s.upc.calls + callCount ms := by
  induction h with
  | nil s => exact ⟨.refl s, rfl⟩
  | call made _ ih =>
    obtain ⟨-, -, -, -, -, -, -, calls, -⟩ := made.frame.fields
    refine ⟨made.toCallMoved.sequence.trans ih.1, ?_⟩
    rw [ih.2, callDone, calls, callCount]
    dsimp only
    omega
  | sampleRaw _ ih => exact ⟨(sampleRaw_moved _).trans ih.1, ih.2⟩
  | sampleBit _ ih => exact ⟨(sampleBit_moved _).trans ih.1, ih.2⟩
  | bitIndex _ ih => exact ⟨(bitIndex_moved _ _).trans ih.1, ih.2⟩
  | pulseIndex _ ih => exact ⟨(pulseIndex_moved _ _).trans ih.1, ih.2⟩

/-- A sequence that waits is in one of its calls, and has the parts behind that call left. -/
theorem WaitsAmid.moved {ms rest : List Micro} {s t : State} (h : WaitsAmid ms rest s t) :
    SequenceMoved s t ∧ ∃ k, t.upc.calls = s.upc.calls + k ∧ k < callCount ms ∧ rest = dropCalls (k + 1) ms := by
  obtain ⟨pre, a, b, w, rfl, done, begun⟩ := h
  obtain ⟨moved, count⟩ := done.moved
  obtain ⟨-, -, -, -, -, -, -, calls, -⟩ := begun.frame.fields
  refine ⟨moved.trans begun.frame.sequence, callCount pre, calls.trans count, ?_, (dropCalls_append pre a b rest).symm⟩
  rw [callCount_append, callCount]
  omega

/-- The working registers that a sequence writes only by its own parts. -/
theorem Performs.registers {ms : List Micro} {s t : State} (h : Performs ms s t) :
    (.sampleBit ∉ ms → t.shreg = s.shreg) ∧ (.sampleRaw ∉ ms → t.raw = s.raw)
      ∧ (t.bitcnt = s.bitcnt ∨ .bitIndex t.bitcnt ∈ ms) ∧ (t.pulsecnt = s.pulsecnt ∨ .pulseIndex t.pulsecnt ∈ ms) := by
  induction h with
  | nil s => exact ⟨fun _ => rfl, fun _ => rfl, .inl rfl, .inl rfl⟩
  | call made _ ih =>
    obtain ⟨-, -, -, -, -, -, -, -, -, shreg, bitcnt, pulsecnt, raw, -⟩ := made.frame.fields
    simpa [shreg, bitcnt, pulsecnt, raw] using ih
  | sampleRaw _ ih => simpa using ⟨ih.1, ih.2.2⟩
  | sampleBit _ ih => simpa using ih.2
  | bitIndex _ ih =>
    obtain ⟨shreg, raw, bitcnt, pulsecnt⟩ := ih
    refine ⟨fun h => shreg (by simpa using h), fun h => raw (by simpa using h), ?_, by simpa using pulsecnt⟩
    rcases bitcnt with same | later
    · exact .inr (by rw [same]; exact List.mem_cons_self)
    · exact .inr (List.mem_cons_of_mem _ later)
  | pulseIndex _ ih =>
    obtain ⟨shreg, raw, bitcnt, pulsecnt⟩ := ih
    refine ⟨fun h => shreg (by simpa using h), fun h => raw (by simpa using h), by simpa using bitcnt, ?_⟩
    rcases pulsecnt with same | later
    · exact .inr (by rw [same]; exact List.mem_cons_self)
    · exact .inr (List.mem_cons_of_mem _ later)

/-! ## BITCNT -/

/-- `BITCNT` behind a sequence. -/
def bitcntAfter : List Micro → Nat → Nat
  | [], i => i
  | .bitIndex j :: ms, _ => bitcntAfter ms j
  | .call _ _ :: ms, i => bitcntAfter ms i
  | .sampleRaw :: ms, i => bitcntAfter ms i
  | .sampleBit :: ms, i => bitcntAfter ms i
  | .pulseIndex _ :: ms, i => bitcntAfter ms i

theorem bitcntAfter_append (ms ns : List Micro) (i : Nat) :
    bitcntAfter (ms ++ ns) i = bitcntAfter ns (bitcntAfter ms i) := by
  induction ms generalizing i with
  | nil => rfl
  | cons m ms ih => cases m <;> exact ih _

theorem Performs.bitcnt {ms : List Micro} {s t : State} (h : Performs ms s t) :
    t.bitcnt = bitcntAfter ms s.bitcnt := by
  induction h with
  | nil s => rfl
  | call made _ ih =>
    obtain ⟨-, -, -, -, -, -, -, -, -, -, bitcnt, -⟩ := made.frame.fields
    simpa [bitcnt, bitcntAfter] using ih
  | sampleRaw _ ih => exact ih
  | sampleBit _ ih => exact ih
  | bitIndex _ ih => exact ih
  | pulseIndex _ ih => exact ih

/-! ## Samples -/

/-- How many SDA samples a sequence takes. -/
def sampleCount : List Micro → Nat
  | [] => 0
  | .sampleRaw :: ms => sampleCount ms + 1
  | .sampleBit :: ms => sampleCount ms + 1
  | .call _ _ :: ms => sampleCount ms
  | .bitIndex _ :: ms => sampleCount ms
  | .pulseIndex _ :: ms => sampleCount ms

theorem sampleCount_append (ms ns : List Micro) : sampleCount (ms ++ ns) = sampleCount ms + sampleCount ns := by
  induction ms with
  | nil => simp [sampleCount]
  | cons m ms ih => cases m <;> simp [sampleCount, ih] <;> omega

/-- The samples of a performed sequence. -/
theorem Performs.samples {ms : List Micro} {s t : State} (h : Performs ms s t) :
    ∃ vs, samplesOf t.hist = samplesOf s.hist ++ vs ∧ vs.length = sampleCount ms := by
  induction h with
  | nil s => exact ⟨[], (List.append_nil _).symm, rfl⟩
  | call made _ ih =>
    obtain ⟨vs, samples, count⟩ := ih
    exact ⟨vs, by rw [samples, callDone_hist, made.sampled], count⟩
  | @sampleRaw _ s _ _ ih =>
    obtain ⟨vs, samples, count⟩ := ih
    exact ⟨(pinReadSda s).1 :: vs, by rw [samples]; simp [samplesOf], by rw [List.length_cons, count]; rfl⟩
  | @sampleBit _ s _ _ ih =>
    obtain ⟨vs, samples, count⟩ := ih
    exact ⟨(pinReadSda s).1 :: vs, by rw [samples]; simp [samplesOf], by rw [List.length_cons, count]; rfl⟩
  | bitIndex _ ih => exact ih
  | pulseIndex _ ih => exact ih

/-! ## The accumulation of READ_BYTE -/

/-- `SHREG` holds the samples `vs`, the first at bit 7, and zeros (44_byte_transfer.md R124). -/
def Accumulated (vs : List Bit) (shreg : Byte) : Prop := ∀ i, i < 8 → shreg.getLsbD (7 - i) = vs[i]?.getD false

theorem accumulated_nil : Accumulated [] 0 := fun i _ => by simp

/-- Bit `j` of one sample shifted to its place. -/
theorem getLsbD_shiftIn (shreg : Byte) (i j : Nat) (k : Bit) (hi : i < 8) (hj : j < 8) :
    (shiftIn shreg i k).getLsbD (7 - j) = (shreg.getLsbD (7 - j) || (k && decide (j = i))) := by
  have placed : (BitVec.ofNat 8 (bitValue k) <<< (8 - 1 - i)).getLsbD (7 - j) = (k && decide (j = i)) := by
    interval_cases i <;> interval_cases j <;> cases k <;> rfl
  rw [shiftIn, BitVec.getLsbD_or, placed]

/-- The next sample goes to the next bit. -/
theorem Accumulated.shiftIn {vs : List Bit} {shreg : Byte} (h : Accumulated vs shreg) (room : vs.length < 8) (k : Bit) :
    Accumulated (vs ++ [k]) (shiftIn shreg vs.length k) := by
  intro j hj
  rw [getLsbD_shiftIn _ _ _ _ room hj, h j hj]
  rcases Nat.lt_trichotomy j vs.length with before | rfl | after
  · rw [List.getElem?_append_left before, decide_eq_false (by omega), Bool.and_false, Bool.or_false]
  · simp
  · rw [List.getElem?_eq_none (by omega), List.getElem?_eq_none (by simp; omega), decide_eq_false (by omega)]
    simp

/-- With `BITCNT = i` and `n` samples taken, a sequence takes each sample of READ_BYTE where `BITCNT` is its number, and
none of CHECK_ACK. -/
def readsInOrder : List Micro → Nat → Nat → Bool
  | [], _, _ => true
  | .sampleBit :: ms, i, n => i == n && decide (n < 8) && readsInOrder ms i (n + 1)
  | .sampleRaw :: _, _, _ => false
  | .bitIndex j :: ms, _, n => readsInOrder ms j n
  | .call _ _ :: ms, i, n => readsInOrder ms i n
  | .pulseIndex _ :: ms, i, n => readsInOrder ms i n

theorem readsInOrder_append (ms ns : List Micro) (i n : Nat) :
    readsInOrder (ms ++ ns) i n
      = (readsInOrder ms i n && readsInOrder ns (bitcntAfter ms i) (n + sampleCount ms)) := by
  induction ms generalizing i n with
  | nil => rfl
  | cons m ms ih =>
    cases m with
    | sampleBit =>
      rw [List.cons_append, readsInOrder, ih, readsInOrder, bitcntAfter, sampleCount, Bool.and_assoc, Bool.and_assoc,
        Bool.and_assoc, show n + 1 + sampleCount ms = n + (sampleCount ms + 1) by omega]
    | sampleRaw => rfl
    | call _ _ | bitIndex _ | pulseIndex _ => exact ih _ _

/-- A sequence that takes its samples in order accumulates them. -/
theorem Performs.accumulates {ms : List Micro} {s t : State} (h : Performs ms s t) (vs : List Bit)
    (ordered : readsInOrder ms s.bitcnt vs.length = true) (begun : Accumulated vs s.shreg) :
    ∃ ws, samplesOf t.hist = samplesOf s.hist ++ ws ∧ ws.length = sampleCount ms ∧ Accumulated (vs ++ ws) t.shreg := by
  induction h generalizing vs with
  | nil s => exact ⟨[], (List.append_nil _).symm, rfl, by rwa [List.append_nil]⟩
  | call made _ ih =>
    obtain ⟨-, -, -, -, -, -, -, -, -, shreg, bitcnt, -⟩ := made.frame.fields
    obtain ⟨ws, samples, rest⟩ := ih vs (by simpa [bitcnt, readsInOrder] using ordered) (by simpa [shreg] using begun)
    exact ⟨ws, by rw [samples, callDone_hist, made.sampled], rest⟩
  | sampleRaw _ _ => cases ordered
  | @sampleBit _ s _ _ ih =>
    rw [readsInOrder, Bool.and_eq_true, Bool.and_eq_true, beq_iff_eq, decide_eq_true_iff] at ordered
    obtain ⟨⟨position, room⟩, ordered⟩ := ordered
    obtain ⟨ws, samples, count, accumulated⟩ := ih (vs ++ [(pinReadSda s).1]) (by simpa using ordered)
      (by
        show Accumulated _ (shiftIn s.shreg s.bitcnt _)
        rw [position]
        exact begun.shiftIn room _)
    exact ⟨(pinReadSda s).1 :: ws, by rw [samples]; simp [samplesOf], by rw [List.length_cons, count]; rfl,
      by simpa using accumulated⟩
  | bitIndex _ ih => exact ih vs ordered begun
  | pulseIndex _ ih => exact ih vs ordered begun

/-- READ_BYTE takes its samples in the order of its bits. -/
theorem readsInOrder_readByteBody (i : Nat) : readsInOrder readByteBody i 0 = true := rfl

end Sys2Proof.Machine

/-! PROOFS. 44_byte_transfer.md: READ_BYTE from its acceptance to its response, and the bytes read back. -/

namespace Sys2Proof.Machine

/-! ## A command from its acceptance to its end -/

theorem WaitsAmid.prepend {pre ms rest : List Micro} {s u t : State} (h : Performs pre s u)
    (k : WaitsAmid ms rest u t) : WaitsAmid (pre ++ ms) rest s t := by
  obtain ⟨pre', a, b, w, rfl, done, begun⟩ := k
  exact ⟨pre ++ pre', a, b, w, by rw [List.append_assoc], h.append done, begun⟩

/-- Where what is left of a command waits, the rest of it is the rest of the command. -/
theorem WaitsAmid.restOfCommand_eq {rest : List Micro} {s t : State} (h : WaitsAmid (callsLeft s) rest s t) :
    restOfCommand t = rest := by
  obtain ⟨moved, k, calls, -, rfl⟩ := h.moved
  rw [restOfCommand_eq_dropCalls, moved.callsLeft_eq calls, dropCalls_dropCalls]

/-- Running what is left of a command performs it and completes the command, or performs it up to a call that waits. -/
theorem settle_performs {s t : State} (h : settle (runMicros (callsLeft s) s) = .next t) :
    (∃ w, Performs (callsLeft s) s w ∧ t = complete w) ∨ WaitsAmid (callsLeft s) (restOfCommand t) s t := by
  rcases runMicros_performs (callsLeft s) s with ⟨w, run, done⟩ | ⟨v, rest, run, waits⟩
  · rw [run] at h
    cases h
    exact .inl ⟨w, done, rfl⟩
  · rw [run] at h
    cases h
    exact .inr (by rwa [waits.restOfCommand_eq])

/-- Going on with a command ends the call in progress and runs what is left, or leaves the call waiting. -/
theorem CallBegun.resume_next {l : Lines} {w s t : State} (h : CallBegun l w s) (next : resume s = .next t) :
    (∃ v, CallMade l w v ∧ CallFrame s v ∧ callsLeft (callDone v) = restOfCommand s
        ∧ settle (runMicros (callsLeft (callDone v)) (callDone v)) = .next t)
      ∨ (resumeCall s = .waiting t ∧ CallBegun l w t) := by
  have frame := resumeCall_frame s
  rcases h.goesOn with ⟨v, run, made⟩ | ⟨v, run, begun⟩
  · rw [run] at frame
    have left : callsLeft (callDone v) = restOfCommand s := frame.restOfCommand_eq
    refine .inl ⟨v, made, frame, left, ?_⟩
    rw [left]
    rw [resume, run] at next
    exact next
  · cases (resume_of_waiting run).symm.trans next
    exact .inr ⟨run, begun⟩

/-- A command that is over has performed its sequence from its entry and then completed. -/
theorem Completes.performs {i : Instr} {s t : State} (h : Completes i s t) :
    ∃ u w, Enters i s u ∧ Performs (bodyOf (commandOf i) s.env.pulseOrder) u w ∧ t = complete w := by
  obtain ⟨-, -, u, v, entered, run, onward⟩ := h.entry
  obtain ⟨⟨busy, command, calls, -, -, -, -, -, -, -, order, -⟩, -⟩ := entered.accepted
  have body : bodyOf (commandOf i) s.env.pulseOrder = callsLeft u := by
    simp only [callsLeft, command, calls, order, dropCalls_zero]
  rw [body]
  have stays : ∀ {ms rest x}, WaitsAmid ms rest u x → x.busy = true := fun waits => by
    obtain ⟨-, -, -, -, -, keeps, -⟩ := waits.moved.1.fields
    exact keeps.trans busy
  obtain ⟨w, done, rfl⟩ : ∃ w, Performs (callsLeft u) u w ∧ t = complete w := by
    refine onward.keeps (P := fun x => WaitsAmid (callsLeft u) (restOfCommand x) u x)
      (Q := fun x => ∃ w, Performs (callsLeft u) u w ∧ x = complete w) ?_ ?_
    · rw [runCommand, order, body] at run
      rcases settle_performs run with ⟨w, done, rfl⟩ | waits
      · exact ⟨w, done, rfl⟩
      · rw [if_pos (stays waits)]
        exact waits
    · rintro x y - - ⟨pre, a, b, w, parts, done, begun⟩ next
      rcases begun.resume_next next with ⟨v, made, -, left, run⟩ | ⟨waiting, begun⟩
      · have upTo : Performs (pre ++ [.call a b]) u (callDone v) := done.append (.call made (.nil _))
        have whole : callsLeft u = (pre ++ [.call a b]) ++ callsLeft (callDone v) := by
          rw [parts, left, List.append_assoc]; rfl
        rcases settle_performs run with ⟨z, rest, rfl⟩ | waits
        · exact ⟨z, by rw [whole]; exact upTo.append rest, rfl⟩
        · have amid := waits.prepend upTo
          rw [← whole] at amid
          rw [if_pos (stays amid)]
          exact amid
      · have frame : CallFrame x y := by simpa only [waiting, Run.state] using resumeCall_frame x
        have amid : WaitsAmid (callsLeft u) (restOfCommand y) u y :=
          ⟨pre, a, b, w, by rw [parts, frame.restOfCommand_eq], done, begun⟩
        rw [if_pos (stays amid)]
        exact amid
  exact ⟨u, w, entered, done, rfl⟩

/-! ## The values of the samples -/

/-- Every SDA sample from `s` to `t` is the wired AND of `d`, the SDA the block holds, and the level the environment then
lets be (20_memory.md R33, R38, R39). -/
def SamplesHeld (d : Bit) (s t : State) : Prop :=
  ∀ j v, (eventsBetween s t)[j]? = some (.rsda v) → v = (d && levelOf s.gpioSda (s.env.heldAfter (j + 1)))

theorem samplesHeld_of_unsampled {s t : State} (d : Bit) (moved : Moved s t)
    (h : samplesOf t.hist = samplesOf s.hist) : SamplesHeld d s t := by
  intro j v hv
  have unread : samplesBetween s t = [] := samplesBetween_eq moved.hist (by rw [h, List.append_nil])
  cases (List.filterMap_eq_nil_iff.mp unread _ (List.mem_of_getElem? hv) : (Event.rsda v).sampled = none)

theorem SamplesHeld.trans {d : Bit} {s u t : State} (h : SamplesHeld d s u) (k : SamplesHeld d u t) (moved : Moved s u)
    (onward : u.hist <+: t.hist) (pin : u.gpioSda = s.gpioSda) : SamplesHeld d s t := by
  intro j v hv
  rw [eventsBetween_append moved.hist onward] at hv
  rcases Nat.lt_or_ge j (eventsBetween s u).length with early | late
  · exact h j v (by rwa [List.getElem?_append_left early] at hv)
  · rw [List.getElem?_append_right late] at hv
    have position : (eventsBetween s u).length + (j - (eventsBetween s u).length + 1) = j + 1 := by omega
    have level := k _ v hv
    rwa [pin, moved.heldAfter_eq, position] at level

theorem sampleBit_held {s : State} : SamplesHeld s.drv.sda s (sampleBit s) := by
  intro j v hv
  rw [eventsBetween_of_hist (s := s) (t := sampleBit s) rfl] at hv
  cases j with
  | zero => cases hv; rw [← settle_heldLow]; rfl
  | succ j => cases hv

/-- A sequence that keeps `LS.sda` in all its calls, takes samples of READ_BYTE only, and, if `called` does not hold yet,
makes a call before it samples. -/
def keepsSda (called : Bool) : List Micro → Bool
  | [] => true
  | .call a _ :: ms => a == .lastSda && keepsSda true ms
  | .sampleRaw :: _ => false
  | .sampleBit :: ms => called && keepsSda called ms
  | .bitIndex _ :: ms => keepsSda called ms
  | .pulseIndex _ :: ms => keepsSda called ms

theorem keepsSda_append_left {called : Bool} {ms ns : List Micro} (h : keepsSda called (ms ++ ns) = true) :
    keepsSda called ms = true := by
  induction ms generalizing called with
  | nil => rfl
  | cons m ms ih =>
    cases m with
    | call _ _ | sampleBit =>
      obtain ⟨here, rest⟩ := Bool.and_eq_true_iff.mp h
      exact Bool.and_eq_true_iff.mpr ⟨here, ih rest⟩
    | sampleRaw => exact h
    | bitIndex _ | pulseIndex _ => exact ih (called := called) h

/-- A sequence that keeps `LS.sda` samples against it. -/
theorem Performs.samplesHeld {ms : List Micro} {s t : State} (h : Performs ms s t) {called : Bool}
    (keeps : keepsSda called ms = true) (applied : called = true → s.drv.sda = s.ls.sda) :
    SamplesHeld s.ls.sda s t ∧ t.ls.sda = s.ls.sda := by
  induction h generalizing called with
  | nil s => exact ⟨samplesHeld_of_unsampled _ (.refl s) rfl, rfl⟩
  | @call a b ms s u t made onward ih =>
    rw [keepsSda, Bool.and_eq_true, beq_iff_eq] at keeps
    obtain ⟨rfl, keeps⟩ := keeps
    have drv : u.drv.sda = s.ls.sda := by rw [made.drv]; rfl
    have ls : u.ls.sda = s.ls.sda := by rw [made.ls]; rfl
    obtain ⟨held, ends⟩ := ih keeps fun _ => drv.trans ls.symm
    rw [(callDone_fields u).2.2.2.2.1, ls] at held ends
    have moved := made.toCallMoved.sequence.moved
    obtain ⟨-, pin, -⟩ := made.toCallMoved.sequence.fields
    exact ⟨(samplesHeld_of_unsampled _ moved made.sampled).trans held moved onward.moved.1.moved.hist pin, ends⟩
  | sampleRaw _ _ => cases keeps
  | @sampleBit ms s t onward ih =>
    rw [keepsSda, Bool.and_eq_true] at keeps
    obtain ⟨held, ends⟩ := ih keeps.2 applied
    refine ⟨SamplesHeld.trans ?_ held (sampleBit_moved s).moved onward.moved.1.moved.hist rfl, ends⟩
    rw [← applied keeps.1]
    exact sampleBit_held
  | bitIndex _ ih => exact ih keeps applied
  | pulseIndex _ ih => exact ih keeps applied

/-- An SDA sample is an event of its own. -/
theorem exists_rsda_of_mem {s t : State} {v : Bit} (h : v ∈ samplesBetween s t) :
    ∃ j : Nat, (eventsBetween s t)[j]? = some (Event.rsda v) := by
  obtain ⟨e, mem, sampled⟩ := List.mem_filterMap.mp h
  obtain rfl : e = .rsda v := by
    cases e with
    | rsda w => rw [Option.some.inj sampled]
    | _ => cases sampled
  exact List.mem_iff_getElem?.mp mem

/-! ## READ_BYTE -/

/-- What a READ_BYTE that is over has done, at once or after waits (44_byte_transfer.md R123, R124). -/
structure ReadDone (s t : State) : Prop where
  count : (samplesBetween s t).length = 8
  accumulated : Accumulated (samplesBetween s t) t.shreg
  held : SamplesHeld s.ls.sda s t
  resp : t.resp = t.shreg.setWidth 32
  ls : t.ls = ⟨s.ls.sda, false⟩

theorem Completes.readDone {s t : State} (h : Completes .readByte s t) : ReadDone s t := by
  obtain ⟨u, w, entered, done, rfl⟩ := h.performs
  cases entered
  obtain ⟨ws, samples, count, accumulated⟩ := done.accumulates [] (readsInOrder_readByteBody _) accumulated_nil
  have taken : samplesBetween s (complete w) = ws := samplesBetween_eq (s := s) done.moved.1.moved.hist samples
  obtain ⟨held, -⟩ := done.samplesHeld (called := false) rfl (fun h => by cases h)
  obtain ⟨v, entered', ends⟩ := h.ls_eq
  cases entered'
  refine ⟨by rw [taken, count]; rfl, by rw [taken]; exact accumulated, held, ?_, ends⟩
  obtain ⟨-, -, -, -, -, -, command, -⟩ := done.moved.1.fields
  exact complete_resp (cmd := .readByte) command

/-- A byte is its bits, the first at bit 7. -/
theorem Accumulated.eq {vs : List Bit} {shreg v : Byte} (h : Accumulated vs shreg)
    (bits : ∀ i, i < 8 → vs[i]?.getD false = v.getLsbD (7 - i)) : shreg = v := by
  apply BitVec.eq_of_getLsbD_eq
  intro i hi
  have hi' : i < 8 := hi
  have same := (h (7 - i) (by omega)).trans (bits (7 - i) (by omega))
  rwa [show 7 - (7 - i) = i by omega] at same

/-- The levels that WRITE_BYTE drives as its clock rises: the bits, bit 7 first. -/
theorem writtenLevels_eq (v : Byte) :
    ((writePairs v).filter fun l => l.scl).map (fun l => l.sda)
      = [v.getLsbD 7, v.getLsbD 6, v.getLsbD 5, v.getLsbD 4, v.getLsbD 3, v.getLsbD 2, v.getLsbD 1, v.getLsbD 0] := rfl

/-- Settles O41: the samples are the bits of `v`, so `SHREG` is `v`. -/
theorem writtenLevelsReadBack : Obligations.WrittenLevelsReadBack := by
  intro s t v completes levels
  have done := completes.readDone
  have byte : t.shreg = v := done.accumulated.eq fun i hi => by
    rw [levels, writtenLevels_eq]
    interval_cases i <;> rfl
  rw [done.resp, byte]

/-- A byte of eight equal samples. -/
theorem ReadDone.resp_eq {s t : State} (h : ReadDone s t) {d : Bit} (same : ∀ v ∈ samplesBetween s t, v = d) :
    t.resp = if d then 0xFF else 0x00 := by
  have samples : samplesBetween s t = List.replicate 8 d := List.eq_replicate_iff.mpr ⟨h.count, same⟩
  have byte : t.shreg = if d then 0xFF else 0x00 := h.accumulated.eq fun i hi => by
    rw [samples]
    interval_cases i <;> cases d <;> rfl
  rw [h.resp, byte]
  cases d <;> rfl

/-- Settles O43: every sample is an AND with the 0 the block holds. -/
theorem readByteHoldingSdaLowAnswersZero : Obligations.ReadByteHoldingSdaLowAnswersZero := by
  intro s t low completes
  have done := completes.readDone
  refine ⟨done.resp_eq (d := false) fun v hv => ?_, by rw [done.ls, low]⟩
  obtain ⟨j, read⟩ := exists_rsda_of_mem hv
  rw [done.held j v read, low, Bool.false_and]

theorem complete_moved (s : State) : Moved s (complete s) := .same rfl rfl rfl

/-- A WRITE_BYTE that is over holds SDA at bit 0, on the pin it was on, with the environment's changes up to there. -/
theorem Completes.writeByte_held {s t : State} {v : Byte} (h : Completes (.writeByte v) s t) :
    t.ls.sda = v.getLsbD 0 ∧ t.gpioSda = s.gpioSda ∧ Moved s t := by
  obtain ⟨u, w, entered, done, rfl⟩ := h.performs
  have moved := done.moved.1
  have since := (entered.accepted.2.trans moved.moved).trans (complete_moved w)
  cases entered
  obtain ⟨u', entered', ends⟩ := h.ls_eq
  cases entered'
  obtain ⟨-, pin, -⟩ := moved.fields
  exact ⟨by rw [ends]; rfl, pin, since⟩

/-- Settles O42: with nothing else on SDA every sample is the SDA the block still holds, bit 0 of the byte. -/
theorem wiredReadAfterWrite : Obligations.WiredReadAfterWrite := by
  intro s t u v quiet written read
  obtain ⟨held, pin, moved⟩ := written.writeByte_held
  have stays : t.env.Quiet t.gpioSda := by rw [pin]; exact moved.quiet quiet
  have done := read.readDone
  refine done.resp_eq fun x hx => ?_
  obtain ⟨j, sample⟩ := exists_rsda_of_mem hx
  rw [done.held j x sample, held, (levelOf_eq_true _ _).mpr (quiet_heldAfter stays _), Bool.and_true]

end Sys2Proof.Machine

/-! PROOFS. 20_memory.md: what a device sees of START, STOP, CONFIGURE and WRITE_BYTE (R49). -/

namespace Sys2Proof.Machine

/-! ## What a sequence shows -/

theorem CallMade.sees_done {l : Lines} {s u : State} (h : CallMade l s u) : Sees s (callDone u) [l] :=
  h.sees.trans (.same (callDone_moved u).moved ⟨rfl, rfl⟩ rfl rfl)

/-- A performed sequence shows the pairs of its planned calls. -/
theorem Performs.sees {ms : List Micro} {s t : State} (h : Performs ms s t) (hp : planned ms = true) :
    Sees s t (plannedCalls ms s.ls s.shreg s.bitcnt) := by
  induction h with
  | nil s => exact .same (.refl s) ⟨rfl, rfl⟩ rfl rfl
  | @call a b ms s u t made _ ih =>
    obtain ⟨-, -, -, -, -, -, -, -, -, shreg, bitcnt, -⟩ := made.frame.fields
    have onward := ih hp
    simp only [callDone_fields, made.ls, shreg, bitcnt] at onward
    exact made.sees_done.trans onward
  | sampleRaw _ ih => exact (Sees.event (sampleRaw_moved _).moved ⟨rfl, rfl⟩ rfl rfl).trans (ih hp)
  | @sampleBit ms s t _ ih =>
    have onward := ih (planned_of_noDataBit ms hp)
    rw [plannedCalls_shreg ms hp _ _ s.shreg] at onward
    exact (Sees.event (sampleBit_moved s).moved ⟨rfl, rfl⟩ rfl rfl).trans onward
  | bitIndex _ ih => exact (Sees.same (bitIndex_moved _ _).moved ⟨rfl, rfl⟩ rfl rfl).trans (ih hp)
  | pulseIndex _ ih => exact (Sees.same (pulseIndex_moved _ _).moved ⟨rfl, rfl⟩ rfl rfl).trans (ih hp)

/-- A device on two quiet pins sees of a span what it would of the pairs. -/
theorem Sees.deviceView {s t : State} {ps : List Lines} (h : Sees s t ps) (distinct : s.gpioSda ≠ s.gpioScl)
    (quietSda : s.env.Quiet s.gpioSda) (quietScl : s.env.Quiet s.gpioScl) :
    deviceView s t = scanBus (.init s.drv) ps := by
  obtain ⟨low, bus, same⟩ := h.view distinct quietSda quietScl
  have first : levelsOf s.gpioSda s.gpioScl (s.lowPins s.env.heldLow) = s.drv :=
    levelsOf_lowPins_quiet distinct quietSda.1 quietScl.1
  rw [Machine.deviceView, linesBetween, h.pins.1, h.pins.2, bus, List.drop_left, List.map_cons, first]
  exact (same (.init s.drv) (fun _ => ⟨rfl, rfl⟩) rfl).1

theorem complete_sees (s : State) : Sees s (complete s) [] := .same (complete_moved s) ⟨rfl, rfl⟩ rfl rfl

/-- Acceptance and recalibration drive nothing: every command but CONFIGURE shows the pairs of its sequence only. -/
theorem Enters.sees {i : Instr} {s u : State} (h : Enters i s u)
    (other : ∀ sda scl speed, i ≠ .configure sda scl speed) : Sees s u [] := by
  cases h with
  | configure => exact absurd rfl (other _ _ _)
  | start _ entry =>
    have moved := recalibrate_moved entry
    rw [recalibrate_eq] at entry
    split at entry <;> cases entry
    exact .event ((accept_moved _ _ s).trans moved) ⟨rfl, rfl⟩ rfl rfl
  | _ => exact .same (.same rfl rfl rfl) ⟨rfl, rfl⟩ rfl rfl

/-- What a device sees of a command that is over: the pairs of its planned calls, from where it was entered. -/
theorem Completes.sees {i : Instr} {s t : State} (h : Completes i s t)
    (other : ∀ sda scl speed, i ≠ .configure sda scl speed) :
    ∃ u, Enters i s u
      ∧ Sees s t (plannedCalls (bodyOf (commandOf i) s.env.pulseOrder) u.ls u.shreg u.bitcnt) := by
  obtain ⟨u, w, entered, done, rfl⟩ := h.performs
  refine ⟨u, entered, ?_⟩
  have shown := ((entered.sees other).trans (done.sees (planned_bodyOf _ _))).trans (complete_sees w)
  rwa [List.nil_append, List.append_nil] at shown

/-! ## START, STOP, WRITE_BYTE -/

/-- Settles O56: the pairs of START from each entry pair, as a reader of the bus takes them. -/
theorem startOnTheBus : Obligations.StartOnTheBus := by
  intro s t drv distinct quietSda quietScl completes
  obtain ⟨u, entered, sees⟩ := completes.sees (by simp)
  obtain ⟨-, -, -, -, ls, -⟩ := entered.accepted.1
  rw [sees.deviceView distinct quietSda quietScl, drv, ls]
  show scanBus (.init s.ls) [⟨true, s.ls.scl⟩, ⟨true, true⟩, ⟨false, true⟩] = _
  obtain ⟨sda, scl⟩ := s.ls
  cases sda <;> cases scl <;> rfl

/-- Settles O57: the pairs of STOP from each entry pair. -/
theorem stopOnTheBus : Obligations.StopOnTheBus := by
  intro s t drv distinct quietSda quietScl completes
  obtain ⟨u, entered, sees⟩ := completes.sees (by simp)
  obtain ⟨-, -, -, -, ls, -⟩ := entered.accepted.1
  rw [sees.deviceView distinct quietSda quietScl, drv, ls]
  show scanBus (.init s.ls) [⟨false, s.ls.scl⟩, ⟨false, true⟩, ⟨true, true⟩] = _
  obtain ⟨sda, scl⟩ := s.ls
  cases sda <;> cases scl <;> rfl

/-- Settles O59: each fall of SCL but the first ends the high phase of a bit; the last high phase stays open. -/
theorem writeByteOnTheBus : Obligations.WriteByteOnTheBus := by
  intro s t b drv distinct quietSda quietScl completes
  obtain ⟨u, entered, sees⟩ := completes.sees (by simp)
  cases entered
  constructor
  · rw [sees.deviceView distinct quietSda quietScl]
    show scanBus (.init s.drv) (writePairs b) = _
    obtain ⟨sda, scl⟩ := s.drv
    cases scl <;> rfl
  · have last : t.drv = ⟨b.getLsbD 0, true⟩ := sees.drv
    obtain ⟨sda, scl⟩ := sees.pins
    have high : t.extLines = ⟨true, true⟩ := by
      rw [State.extLines, levelsOf, sda, scl, (levelOf_eq_true _ _).mpr (sees.moved.quiet quietSda).1,
        (levelOf_eq_true _ _).mpr (sees.moved.quiet quietScl).1]
    rw [State.line, high, last, wiredAnd, Bool.and_true, Bool.and_true]

/-! ## CONFIGURE -/

/-- From `s` to `t` the block has released both lines, and only the environment's changes show. -/
structure ShowsReleased (s t : State) : Prop where
  moved : Moved s t
  drv : t.drv = ⟨true, true⟩
  bus : ∃ low, t.bus = s.bus ++ low ∧ ∀ g, s.env.Quiet g → ∀ held ∈ low, g ∉ held

theorem ShowsReleased.trans {s u t : State} (h : ShowsReleased s u) (k : ShowsReleased u t) : ShowsReleased s t := by
  obtain ⟨low, bus, quiet⟩ := h.bus
  obtain ⟨low', bus', quiet'⟩ := k.bus
  refine ⟨h.moved.trans k.moved, k.drv, low ++ low', by rw [bus', bus, List.append_assoc], fun g hg held hh => ?_⟩
  rcases List.mem_append.mp hh with early | late
  · exact quiet g hg held early
  · exact quiet' g (h.moved.quiet hg) held late

/-- A block that drives (1,1) pulls nothing low. -/
theorem lowPins_released {s : State} (released : s.drv = ⟨true, true⟩) (held : List Nat) : s.lowPins held = held := by
  simp [State.lowPins, released]

theorem ShowsReleased.event {s t : State} (released : s.drv = ⟨true, true⟩) (moved : Moved s t) (drv : t.drv = s.drv)
    (bus : t.bus = s.bus ++ s.env.nextMoves.map s.lowPins) : ShowsReleased s t := by
  refine ⟨moved, drv.trans released, _, bus, fun g quiet held hh => ?_⟩
  obtain ⟨v, hv, rfl⟩ := List.mem_map.mp hh
  rw [lowPins_released released]
  exact quiet.next.1 v hv

theorem linesWrite_released {s : State} (released : s.drv = ⟨true, true⟩) :
    ShowsReleased s (linesWrite ⟨true, true⟩ s) := by
  refine ⟨(linesWrite_frame _ s).moved, rfl, s.env.nextMoves.map s.lowPins ++ [s.env.settle.heldLow], ?_,
    fun g quiet held hh => ?_⟩
  · rw [linesWrite_bus, lowPins_released (s := linesWrite ⟨true, true⟩ s) rfl]
  · rcases List.mem_append.mp hh with change | stands
    · obtain ⟨v, hv, rfl⟩ := List.mem_map.mp change
      rw [lowPins_released released]
      exact quiet.next.1 v hv
    · rw [List.mem_singleton.mp stands]
      exact quiet.next.2

/-- What CONFIGURE has written, and its eight events, where its sequence of calls begins
(41_bus_init_and_configure.md R88). -/
theorem configureEntry_eq {sda scl : PinId} {speed : Speed} {gSda gScl : Nat} {s u : State}
    (h : configureEntry sda scl speed gSda gScl s = some u) :
    calibrate (clampSpeed speed).toNat s.env.nextFreq.cpuFreq < 2 ^ 32 ∧ ∃ env bus, u = { s with
        cfg := ⟨sda, scl, clampSpeed speed⟩, gpioSda := gSda, gpioScl := gScl
        delay := BitVec.ofNat Config.counterWidth (calibrate (clampSpeed speed).toNat s.env.nextFreq.cpuFreq)
        drv := ⟨true, true⟩, busy := true, upc := ⟨some .configure, 0, .setup⟩, env := env
        hist := s.hist ++ [.map sda gSda, .map scl gScl, .freq s.env.nextFreq.cpuFreq, .ioff, .mode gSda, .mode gScl,
          .drv ⟨true, true⟩, .ion]
        bus := bus }
      ∧ env = { s.env with
          heldLow := env.heldLow, moves := env.moves, cpuFreq := s.env.nextFreq.cpuFreq, freqs := s.env.nextFreq.freqs
          intEnabled := true, openDrain := insertGpio gScl (insertGpio gSda s.env.openDrain) } := by
  rw [configureEntry, Option.map_eq_some_iff] at h
  obtain ⟨v, calibrated, rfl⟩ := h
  obtain ⟨env, bus, latched, same, -⟩ := latchConfig_spec sda scl speed gSda gScl (accept .configure .setup s)
  have frequency : env.nextFreq.cpuFreq = s.env.nextFreq.cpuFreq ∧ env.nextFreq.freqs = s.env.nextFreq.freqs := by
    rw [same]; exact ⟨rfl, rfl⟩
  rw [latched, recalibrate_eq] at calibrated
  split at calibrated
  case isFalse => cases calibrated
  case isTrue fits =>
    simp only [frequency] at fits calibrated
    refine ⟨fits, ?_⟩
    obtain rfl := Option.some.inj calibrated
    obtain ⟨env', bus', setUp, same', -⟩ := pinSetup_spec _
    refine ⟨env', bus', setUp.trans ?_, same'.trans ?_⟩
    · simp [accept]
    · generalize env.heldLow = held, env.moves = moves at same
      subst same
      rfl

theorem latchConfig_released {s : State} (released : s.drv = ⟨true, true⟩) (sda scl : PinId) (speed : Speed)
    (gSda gScl : Nat) : ShowsReleased s (latchConfig sda scl speed gSda gScl s) := by
  let a := State.log (.map sda gSda)
    { interleave { s with cfg := { s.cfg with sdaPin := sda, sclPin := scl } } with gpioSda := gSda }
  have first : ShowsReleased s a :=
    .event released (.event rfl rfl rfl (List.suffix_refl _) (le_refl _) (List.prefix_append _ _)) rfl rfl
  exact first.trans
    (.event first.drv (.event rfl rfl rfl (List.suffix_refl _) (le_refl _) (List.prefix_append _ _)) rfl rfl)

theorem recalibrate_released {s t : State} (released : s.drv = ⟨true, true⟩) (h : recalibrate s = some t) :
    ShowsReleased s t := by
  have moved := recalibrate_moved h
  rw [recalibrate_eq] at h
  split at h <;> cases h
  exact .event released moved rfl rfl

theorem intDisable_released {s : State} (released : s.drv = ⟨true, true⟩) : ShowsReleased s (intDisable s) :=
  .event released (.event rfl rfl rfl (List.suffix_refl _) (le_refl _) (List.prefix_append _ _)) rfl rfl

theorem intEnable_released {s : State} (released : s.drv = ⟨true, true⟩) : ShowsReleased s (intEnable s) :=
  .event released (.event rfl rfl rfl (List.suffix_refl _) (le_refl _) (List.prefix_append _ _)) rfl rfl

theorem pinModeOpenDrain_released {s : State} (released : s.drv = ⟨true, true⟩) (g : Nat) :
    ShowsReleased s (pinModeOpenDrain g s) :=
  .event released (.event rfl rfl rfl (List.suffix_refl _) (le_refl _) (List.prefix_append _ _)) rfl rfl

theorem pinSetup_released {s : State} (released : s.drv = ⟨true, true⟩) : ShowsReleased s (pinSetup s) := by
  have entered : ShowsReleased s (s.enter .setup) :=
    ⟨(enter_frame .setup s).moved, released, [], (List.append_nil _).symm, fun _ _ _ h => by cases h⟩
  have first := intDisable_released entered.drv
  have second := pinModeOpenDrain_released first.drv s.gpioSda
  have third := pinModeOpenDrain_released second.drv s.gpioScl
  have fourth := linesWrite_released third.drv
  exact entered.trans (first.trans (second.trans (third.trans (fourth.trans (intEnable_released fourth.drv)))))

/-- Up to its calls CONFIGURE keeps both lines released. -/
theorem configureEntry_released {sda scl : PinId} {speed : Speed} {gSda gScl : Nat} {s u : State}
    (released : s.drv = ⟨true, true⟩) (h : configureEntry sda scl speed gSda gScl s = some u) : ShowsReleased s u := by
  rw [configureEntry, Option.map_eq_some_iff] at h
  obtain ⟨v, calibrated, rfl⟩ := h
  have latched := latchConfig_released (s := accept .configure .setup s) released sda scl speed gSda gScl
  have read := recalibrate_released latched.drv calibrated
  exact ((ShowsReleased.mk (accept_moved _ _ s) released ⟨[], (List.append_nil _).symm, fun _ _ _ h => by cases h⟩).trans
    latched).trans (read.trans (pinSetup_released read.drv))

/-- What follows a span in which the lines are released is all that a device sees of the whole. -/
theorem ShowsReleased.deviceView {s u t : State} {ps : List Lines} (h : ShowsReleased s u) (k : Sees u t ps)
    (released : s.drv = ⟨true, true⟩) (distinct : u.gpioSda ≠ u.gpioScl) (quietSda : s.env.Quiet u.gpioSda)
    (quietScl : s.env.Quiet u.gpioScl) : deviceView s t = scanBus (.init ⟨true, true⟩) ps := by
  obtain ⟨low, bus, quiet⟩ := h.bus
  obtain ⟨low', bus', same⟩ := k.view distinct (h.moved.quiet quietSda) (h.moved.quiet quietScl)
  have high : ∀ held, u.gpioSda ∉ held → u.gpioScl ∉ held →
      levelsOf u.gpioSda u.gpioScl held = ⟨true, true⟩ := fun held sda scl => by
    rw [levelsOf, (levelOf_eq_true _ _).mpr sda, (levelOf_eq_true _ _).mpr scl]
  have unseen : SameView ⟨true, true⟩ (low.map (levelsOf u.gpioSda u.gpioScl)) [] :=
    sameView_repeated _ _ _ fun held hh => high held (quiet _ quietSda held hh) (quiet _ quietScl held hh)
  rw [h.drv] at same
  rw [Machine.deviceView, linesBetween, k.pins.1, k.pins.2, bus', bus, List.append_assoc, List.drop_left, List.map_cons,
    List.map_append, lowPins_released released, high _ quietSda.1 quietScl.1]
  exact (unseen.append same _ (fun _ => ⟨rfl, rfl⟩) rfl).1

/-- The calls of `init` take nothing from the state it is entered in. -/
theorem plannedCalls_initBody (order : PulseOrder) (ls : Lines) (shreg : Byte) (i : Nat) :
    plannedCalls (initBody order) ls shreg i = initPairs order := by
  cases order <;> rfl

/-- Settles O58: the wiggle, the pulses and STOP, in both orders, as a reader of the bus takes them. -/
theorem initOnTheBus : Obligations.InitOnTheBus := by
  intro s t sda scl speed gSda gScl released mappedSda mappedScl quietSda quietScl completes
  obtain ⟨u, w, entered, done, rfl⟩ := completes.performs
  cases entered with
  | configure idle sdaPin sclPin distinct entry =>
    obtain rfl := Option.some.inj (sdaPin.symm.trans mappedSda)
    obtain rfl := Option.some.inj (sclPin.symm.trans mappedScl)
    have shown := configureEntry_released released entry
    have sees := (done.sees (planned_bodyOf _ _)).trans (complete_sees w)
    obtain ⟨-, env, bus, rfl, -⟩ := configureEntry_eq entry
    rw [shown.deviceView sees released distinct quietSda quietScl, List.append_nil]
    show scanBus (.init ⟨true, true⟩) (plannedCalls (initBody s.env.pulseOrder) _ _ _) = _
    rw [plannedCalls_initBody]
    cases s.env.pulseOrder <;> decide

end Sys2Proof.Machine

/-! PROOFS. 20_memory.md: every pin read answers the level of its moment (R33, R38, R39, R40). -/

namespace Sys2Proof.Machine

/-! ## The answer of a read, from what was driven and what the environment holds -/

/-- An event that reads a pin answers the wired AND of the pair `l` and the level of the pin where `held` is held low. -/
def Event.AnswersLevel (gSda gScl : Nat) (l : Lines) (held : List Nat) : Event → Prop
  | .rscl v => v = (l.scl && levelOf gScl held)
  | .rsda v => v = (l.sda && levelOf gSda held)
  | .recorded _ => True
  | .cyc _ => True
  | .drv _ => True
  | .freq _ => True
  | .ioff => True
  | .ion => True
  | .mode _ => True
  | .map _ _ => True

/-- The pair that is driven before the event number `j` from `s` to `t`. -/
def drivenBefore (s t : State) (j : Nat) : Lines :=
  (((eventsBetween s t).take j).filterMap Event.driven).getLast?.getD s.drv

/-- From `s` to `t`, on the pins selected in `s`, every pin read answers the level of its moment. -/
structure LevelsRead (s t : State) : Prop where
  moved : Moved s t
  pins : t.gpioSda = s.gpioSda ∧ t.gpioScl = s.gpioScl
  drv : t.drv = (drivenBetween s t).getLast?.getD s.drv
  reads : ∀ (j : Nat) (e : Event), (eventsBetween s t)[j]? = some e →
    e.AnswersLevel s.gpioSda s.gpioScl (drivenBefore s t j) (s.env.heldAfter (j + 1))

theorem drivenBetween_append {s u t : State} (h : s.hist <+: u.hist) (k : u.hist <+: t.hist) :
    drivenBetween s t = drivenBetween s u ++ drivenBetween u t := by
  rw [drivenBetween, eventsBetween_append h k, List.filterMap_append]
  rfl

/-- The reads of a later span, counted from an earlier state. -/
theorem LevelsRead.reads_late {s u t : State} (h : LevelsRead u t) (moved : Moved s u)
    (drv : u.drv = (drivenBetween s u).getLast?.getD s.drv) {j : Nat} {e : Event}
    (late : (eventsBetween s u).length ≤ j) (he : (eventsBetween s t)[j]? = some e) :
    e.AnswersLevel u.gpioSda u.gpioScl (drivenBefore s t j) (s.env.heldAfter (j + 1)) := by
  have events := eventsBetween_append moved.hist h.moved.hist
  have before : drivenBefore s t j = drivenBefore u t (j - (eventsBetween s u).length) := by
    rw [drivenBefore, events, List.take_append, List.take_of_length_le late, List.filterMap_append,
      getLast_append_getD, drivenBefore, drv]
    rfl
  have position : (eventsBetween s u).length + (j - (eventsBetween s u).length + 1) = j + 1 := by omega
  rw [events, List.getElem?_append_right late] at he
  have answer := h.reads _ e he
  rwa [moved.heldAfter_eq, position, ← before] at answer

theorem LevelsRead.trans {s u t : State} (h : LevelsRead s u) (k : LevelsRead u t) : LevelsRead s t := by
  obtain ⟨sda, scl⟩ := h.pins
  refine ⟨h.moved.trans k.moved, ⟨k.pins.1.trans sda, k.pins.2.trans scl⟩, ?_, fun j e he => ?_⟩
  · rw [k.drv, h.drv, drivenBetween_append h.moved.hist k.moved.hist, getLast_append_getD]
  · rcases Nat.lt_or_ge j (eventsBetween s u).length with early | late
    · have events := eventsBetween_append h.moved.hist k.moved.hist
      have before : drivenBefore s t j = drivenBefore s u j := by
        rw [drivenBefore, events, List.take_append_of_le_length early.le]
        rfl
      rw [before]
      exact h.reads j e (by rwa [events, List.getElem?_append_left early] at he)
    · rw [← sda, ← scl]
      exact k.reads_late h.moved h.drv late he

/-- What is no event reads nothing. -/
theorem LevelsRead.same {s t : State} (moved : Moved s t) (pins : t.gpioSda = s.gpioSda ∧ t.gpioScl = s.gpioScl)
    (drv : t.drv = s.drv) (hist : t.hist = s.hist) : LevelsRead s t := by
  have none : eventsBetween s t = [] := eventsBetween_of_hist (by rw [hist, List.append_nil])
  refine ⟨moved, pins, by rw [drivenBetween, none, drv]; rfl, fun j e he => ?_⟩
  rw [none] at he
  cases he

/-- One event reads at most one pin. -/
theorem LevelsRead.event {s t : State} {e : Event} (hist : t.hist = s.hist ++ [e]) (moved : Moved s t)
    (pins : t.gpioSda = s.gpioSda ∧ t.gpioScl = s.gpioScl) (drv : t.drv = e.driven.getD s.drv)
    (right : e.AnswersLevel s.gpioSda s.gpioScl s.drv s.env.settle.heldLow) : LevelsRead s t := by
  have one : eventsBetween s t = [e] := eventsBetween_of_hist hist
  refine ⟨moved, pins, ?_, fun j e' he => ?_⟩
  · rw [drv, drivenBetween, one]
    cases h : e.driven <;> simp [h]
  · rw [one] at he
    cases j with
    | zero => cases he; rwa [settle_heldLow] at right
    | succ j => cases he

/-! ## The operations -/

theorem enter_levels (ph : Phase) (s : State) : LevelsRead s (s.enter ph) :=
  .same (enter_frame ph s).moved ⟨rfl, rfl⟩ rfl rfl

theorem callDone_levels (s : State) : LevelsRead s (callDone s) := .same (callDone_moved s).moved ⟨rfl, rfl⟩ rfl rfl

theorem recordLines_levels (l : Lines) (s : State) : LevelsRead s (recordLines l s) :=
  .event rfl (recordLines_frame l s).moved ⟨rfl, rfl⟩ rfl trivial

theorem linesWrite_levels (l : Lines) (s : State) : LevelsRead s (linesWrite l s) :=
  .event rfl (linesWrite_frame l s).moved ⟨rfl, rfl⟩ rfl trivial

theorem cycleRead_levels (s : State) : LevelsRead s (cycleRead s).2 :=
  .event rfl (cycleRead_frame s).moved ⟨rfl, rfl⟩ rfl trivial

theorem armDelay_levels (s : State) : LevelsRead s (armDelay s) :=
  .event rfl (armDelay_frame s).moved ⟨rfl, rfl⟩ rfl trivial

theorem pinReadScl_levels (s : State) : LevelsRead s (pinReadScl s).2 :=
  .event rfl (pinReadScl_frame s).moved ⟨rfl, rfl⟩ rfl rfl

theorem sampleRaw_levels (s : State) : LevelsRead s (sampleRaw s) :=
  .event rfl (sampleRaw_moved s).moved ⟨rfl, rfl⟩ rfl rfl

theorem sampleBit_levels (s : State) : LevelsRead s (sampleBit s) :=
  .event rfl (sampleBit_moved s).moved ⟨rfl, rfl⟩ rfl rfl

theorem pollDelay_levels (s : State) : LevelsRead s (pollDelay s).state := by
  rcases pollDelay_spec s with ⟨run, -⟩ | ⟨run, -⟩ <;> rw [run] <;> exact cycleRead_levels s

theorem pollStretch_levels (s : State) : LevelsRead s (pollStretch s).state := by
  rcases pollStretch_spec s with ⟨run, -⟩ | ⟨run, -⟩ <;> rw [run] <;> exact pinReadScl_levels s

theorem waitCycles_levels (s : State) : LevelsRead s (waitCycles s).state :=
  ((armDelay_levels s).trans (enter_levels _ _)).trans (pollDelay_levels _)

theorem driveStep_levels (s : State) : LevelsRead s (driveStep s).state := by
  have driven := (enter_levels .drive s).trans (linesWrite_levels s.ls _)
  rw [driveStep, stretchStep]
  split
  · exact (driven.trans (enter_levels _ _)).trans (pollStretch_levels _)
  · exact driven

theorem setLines_levels (a b : Nat) (s : State) : LevelsRead s (setLines a b s).state := by
  have recorded := recordLines_levels (normalize a b) s
  refine Run.bind_state (P := LevelsRead s) ?_ fun u h => h.trans (driveStep_levels u)
  rw [delayStep]
  split
  · exact recorded.trans (waitCycles_levels _)
  · exact recorded

theorem resumeCall_levels (s : State) : LevelsRead s (resumeCall s).state := by
  have drive : ∀ u, LevelsRead s u → LevelsRead s (driveStep u).state := fun u h => h.trans (driveStep_levels u)
  unfold resumeCall
  split
  case h_1 => exact Run.bind_state (pollDelay_levels s) drive
  case h_2 => exact pollStretch_levels s
  case h_3 => exact Run.bind_state (waitCycles_levels s) drive
  case h_4 => exact driveStep_levels s
  all_goals exact .same (.refl s) ⟨rfl, rfl⟩ rfl rfl

theorem runMicros_levels (ms : List Micro) (s : State) : LevelsRead s (runMicros ms s).state := by
  induction ms generalizing s with
  | nil => exact .same (.refl s) ⟨rfl, rfl⟩ rfl rfl
  | cons m ms ih =>
    refine Run.bind_state (P := LevelsRead s) ?_ fun u h => h.trans (ih u)
    cases m with
    | call a b => exact Run.bind_state (setLines_levels _ _ s) fun u h => h.trans (callDone_levels u)
    | sampleRaw => exact sampleRaw_levels s
    | sampleBit => exact sampleBit_levels s
    | bitIndex i => exact .same (bitIndex_moved i s).moved ⟨rfl, rfl⟩ rfl rfl
    | pulseIndex i => exact .same (pulseIndex_moved i s).moved ⟨rfl, rfl⟩ rfl rfl

/-- Completion, or none, is no event. -/
theorem LevelsRead.settle {r : Run} {s t : State} (h : LevelsRead s r.state) (next : settle r = .next t) :
    LevelsRead s t := by
  rw [settle_kept next]
  exact h.trans (.same (.same rfl rfl rfl) ⟨rfl, rfl⟩ rfl rfl)

/-! ## A step -/

theorem resume_levels {s t : State} (h : resume s = .next t) : LevelsRead s t :=
  LevelsRead.settle (Run.bind_state (resumeCall_levels s) fun u begun =>
    (begun.trans (callDone_levels u)).trans (runMicros_levels _ _)) h

theorem unread_of_hist {s u : State} (hist : u.hist = s.hist) (drv : u.drv = s.drv) :
    u.drv = (drivenBetween s u).getLast?.getD s.drv
      ∧ ∀ e ∈ eventsBetween s u, ∀ gSda gScl l held, e.AnswersLevel gSda gScl l held := by
  have none : eventsBetween s u = [] := eventsBetween_of_hist (by rw [hist, List.append_nil])
  rw [drivenBetween, none]
  exact ⟨drv, fun _ h => by cases h⟩

/-- The entry of a command reads no pin, and drives (1,1) if it drives a pair at all. -/
theorem Enters.unread {i : Instr} {s u : State} (h : Enters i s u) :
    u.drv = (drivenBetween s u).getLast?.getD s.drv
      ∧ ∀ e ∈ eventsBetween s u, ∀ gSda gScl l held, e.AnswersLevel gSda gScl l held := by
  cases h with
  | configure _ _ _ _ entry =>
    obtain ⟨-, env, bus, rfl, -⟩ := configureEntry_eq entry
    rw [drivenBetween, eventsBetween_of_hist rfl]
    exact ⟨rfl, by simp [Event.AnswersLevel]⟩
  | start _ entry =>
    rw [recalibrate_eq] at entry
    split at entry <;> cases entry
    rw [drivenBetween, eventsBetween_of_hist (s := s) rfl]
    exact ⟨rfl, by simp [Event.AnswersLevel]⟩
  | _ => exact unread_of_hist rfl rfl

/-- A command that is taken reads at the pins it has selected, the first CONFIGURE at those it selects. -/
theorem exec_reads {i : Instr} {s t : State} (h : exec i s = .next t) (j : Nat) (e : Event)
    (he : (eventsBetween s t)[j]? = some e) :
    e.AnswersLevel t.gpioSda t.gpioScl (drivenBefore s t j) (s.env.heldAfter (j + 1)) := by
  obtain ⟨-, u, entered, run⟩ := exec_next h
  have moved := entered.accepted.2
  obtain ⟨drv, unread⟩ := entered.unread
  have levels : LevelsRead u t := (runMicros_levels _ _).settle run
  rcases Nat.lt_or_ge j (eventsBetween s u).length with early | late
  · have events := eventsBetween_append moved.hist levels.moved.hist
    rw [events, List.getElem?_append_left early] at he
    exact unread e (List.mem_of_getElem? he) _ _ _ _
  · rw [levels.pins.1, levels.pins.2]
    exact levels.reads_late moved drv late he

theorem step_reads {s t : State} (noReset : NoReset s) (next : step s = .next t) (j : Nat) (e : Event)
    (he : (eventsBetween s t)[j]? = some e) :
    e.AnswersLevel t.gpioSda t.gpioScl (drivenBefore s t j) (s.env.heldAfter (j + 1)) := by
  rcases step_next next with ⟨rest, host, -⟩ | ⟨w, i, rest, -, -, -, run⟩ | ⟨-, -, run⟩ | ⟨-, -, rfl⟩
  · exact absurd (by rw [host]; rfl) noReset
  · exact exec_reads run j e he
  · have levels := resume_levels run
    rw [levels.pins.1, levels.pins.2]
    exact levels.reads j e he
  · rw [eventsBetween, List.drop_length] at he
    cases he

/-- A CHECK_ACK in the stretch poll of its second call, with SCL, on GPIO 11, held low. -/
def stretchedCheckAck : State :=
  { State.reset with
    gpioSda := 12, gpioScl := 11, ls := ⟨true, true⟩, drv := ⟨true, true⟩, configured := true, busy := true
    upc := ⟨some .checkAck, 1, .stretchPoll⟩, env := { Env.atReset with heldLow := [11] } }

/-- One more poll, which answers 0. -/
theorem step_stretchedCheckAck : step stretchedCheckAck = .next (pinReadScl stretchedCheckAck).2 := rfl

/-- Refutes O29: `=` binds tighter than `&&`, so its right side `v = l.scl && levelOf …` is `(v = l.scl) && levelOf …`,
which asks for a high level at every read; a poll of SCL while a slave holds it low reads 0. What its words say,
`v = (l.scl && levelOf …)`, holds: it is `step_reads`. -/
theorem not_readsReturnTheLineLevel : ¬ Obligations.ReadsReturnTheLineLevel := by
  intro h
  have noReset : NoReset stretchedCheckAck := fun reset => by cases reset
  have polled := (h stretchedCheckAck _ noReset step_stretchedCheckAck 0 false).1 rfl
  exact absurd polled (by decide)

end Sys2Proof.Machine

/-! PROOFS. 10_state.md: which registers a step writes (R11, R12, R16), and that it only adds events (20_memory.md R40). -/

namespace Sys2Proof.Machine

/-! ## The run of a command -/

/-- What a run of a command from `s` leaves alone, completed or waiting. -/
structure RunKeeps (s t : State) : Prop where
  cfg : t.cfg = s.cfg
  gpioSda : t.gpioSda = s.gpioSda
  gpioScl : t.gpioScl = s.gpioScl
  delay : t.delay = s.delay
  configured : s.configured = true → t.configured = true
  pinMap : t.env.pinMap = s.env.pinMap
  pulseOrder : t.env.pulseOrder = s.env.pulseOrder
  moved : Moved s t

theorem complete_keeps (s : State) : RunKeeps s (complete s) :=
  ⟨rfl, rfl, rfl, rfl, fun set => by simp [complete, configuredAfter, set], rfl, rfl, complete_moved s⟩

theorem SequenceMoved.keeps {s t : State} (h : SequenceMoved s t) : RunKeeps s t := by
  obtain ⟨cfg, sda, scl, delay, configured, -, -, -, -, order, pinMap, -⟩ := h.fields
  exact ⟨cfg, sda, scl, delay, configured.trans, pinMap, order, h.moved⟩

theorem RunKeeps.trans {s u t : State} (h : RunKeeps s u) (k : RunKeeps u t) : RunKeeps s t :=
  ⟨k.cfg.trans h.cfg, k.gpioSda.trans h.gpioSda, k.gpioScl.trans h.gpioScl, k.delay.trans h.delay,
    k.configured ∘ h.configured, k.pinMap.trans h.pinMap, k.pulseOrder.trans h.pulseOrder, h.moved.trans k.moved⟩

theorem settle_keeps {r : Run} {s t : State} (moved : SequenceMoved s r.state) (next : settle r = .next t) :
    RunKeeps s t := by
  rcases settle_next next with ⟨u, rfl, rfl⟩ | rfl
  · exact moved.keeps.trans (complete_keeps u)
  · exact moved.keeps

theorem resume_keeps {s t : State} (h : resume s = .next t) : RunKeeps s t := by
  obtain ⟨r, run, moved⟩ := resume_settles s
  exact settle_keeps moved (run ▸ h)

/-! ## The entry of a command -/

/-- Only CONFIGURE latches a configuration. -/
theorem Enters.configuration {i : Instr} {s u : State} (h : Enters i s u)
    (other : ∀ sda scl speed, i ≠ .configure sda scl speed) :
    u.cfg = s.cfg ∧ u.gpioSda = s.gpioSda ∧ u.gpioScl = s.gpioScl := by
  cases h with
  | configure => exact absurd rfl (other _ _ _)
  | start _ entry =>
    rw [recalibrate_eq] at entry
    split at entry <;> cases entry
    exact ⟨rfl, rfl, rfl⟩
  | _ => exact ⟨rfl, rfl, rfl⟩

/-- Only CONFIGURE and START recalibrate. -/
theorem Enters.delay_eq {i : Instr} {s u : State} (h : Enters i s u)
    (other : ∀ sda scl speed, i ≠ .configure sda scl speed) (noStart : i ≠ .start) : u.delay = s.delay := by
  cases h with
  | configure => exact absurd rfl (other _ _ _)
  | start => exact absurd rfl noStart
  | _ => rfl

theorem exec_run {i : Instr} {s t : State} (h : exec i s = .next t) : ∃ u, Enters i s u ∧ RunKeeps u t := by
  obtain ⟨-, u, entered, run⟩ := exec_next h
  exact ⟨u, entered, settle_keeps (runMicros_moved _ u) run⟩

/-! ## A step -/

/-- Settles O51: a command that is not CONFIGURE enters without writing the configuration, and no run writes it. -/
theorem onlyConfigureWritesConfiguration : Obligations.OnlyConfigureWritesConfiguration := by
  intro s t noReset next
  rcases step_next next with ⟨rest, host, -⟩ | ⟨w, i, rest, free, host, decoded, run⟩ | ⟨-, -, run⟩ | ⟨-, -, rfl⟩
  · exact absurd (by rw [host]; rfl) noReset
  · obtain ⟨u, entered, keeps⟩ := exec_run run
    obtain ⟨-, -, -, configured, -⟩ := entered.accepted.1
    refine ⟨fun set => keeps.configured (configured.trans set), fun other => ?_⟩
    obtain ⟨cfg, sda, scl⟩ := entered.configuration fun a b c eq => other free w rest a b c host (eq ▸ decoded)
    exact ⟨keeps.cfg.trans cfg, keeps.gpioSda.trans sda, keeps.gpioScl.trans scl⟩
  · have keeps := resume_keeps run
    exact ⟨keeps.configured, fun _ => ⟨keeps.cfg, keeps.gpioSda, keeps.gpioScl⟩⟩
  · exact ⟨id, fun _ => ⟨rfl, rfl, rfl⟩⟩

/-- Settles O52: the other commands enter without a recalibration, and no run makes one. -/
theorem onlyConfigureAndStartWriteDelay : Obligations.OnlyConfigureAndStartWriteDelay := by
  intro s t noReset next other
  rcases step_next next with ⟨rest, host, -⟩ | ⟨w, i, rest, free, host, decoded, run⟩ | ⟨-, -, run⟩ | ⟨-, -, rfl⟩
  · exact absurd (by rw [host]; rfl) noReset
  · obtain ⟨u, entered, keeps⟩ := exec_run run
    obtain ⟨noStart, noConfigure⟩ := other free w rest host
    exact keeps.delay.trans
      (entered.delay_eq (fun a b c eq => noConfigure a b c (eq ▸ decoded)) fun eq => noStart (eq ▸ decoded))
  · exact (resume_keeps run).delay
  · rfl

/-- Settles O53: a reset keeps the records, and every other step adds its events and changes of the pins to them. -/
theorem stepsOnlyAddEvents : Obligations.StepsOnlyAddEvents := by
  intro s t next
  rcases step_next next with ⟨rest, -, rfl⟩ | ⟨w, i, rest, -, -, -, run⟩ | ⟨-, -, run⟩ | ⟨-, -, rfl⟩
  · exact ⟨⟨List.prefix_refl _, List.prefix_append _ _⟩, rfl, rfl⟩
  · obtain ⟨u, entered, keeps⟩ := exec_run run
    obtain ⟨⟨-, -, -, -, -, -, -, -, -, -, order, pinMap, -⟩, moved⟩ := entered.accepted
    have since := moved.trans keeps.moved
    exact ⟨⟨since.hist, since.bus⟩, keeps.pinMap.trans pinMap, keeps.pulseOrder.trans order⟩
  · have keeps := resume_keeps run
    exact ⟨⟨keeps.moved.hist, keeps.moved.bus⟩, keeps.pinMap, keeps.pulseOrder⟩
  · exact ⟨⟨List.prefix_refl _, List.prefix_refl _⟩, rfl, rfl⟩

end Sys2Proof.Machine

/-! PROOFS. 30_encoding.md R59: a command run from any of its calls to its end, or to the call it waits in: what it changes,
the calls it makes, the pairs it drives. -/

namespace Sys2Proof.Machine

/-! ## The calls of a command, from its own sequence -/

/-- The calls written out from files 41 to 44 are those the sequence plans. -/
theorem plannedCalls_bodyOf (cmd : Command) (s : State) (i : Nat) :
    plannedCalls (bodyOf cmd s.env.pulseOrder) s.ls s.shreg i = commandPairs cmd s := by
  cases cmd with
  | configure => exact plannedCalls_initBody _ _ _ _
  | _ => rfl

theorem length_plannedCalls (ms : List Micro) (ls : Lines) (shreg : Byte) (i : Nat) :
    (plannedCalls ms ls shreg i).length = callCount ms := by
  induction ms generalizing ls i with
  | nil => rfl
  | cons m ms ih => cases m <;> simp [plannedCalls, callCount, ih]

theorem length_commandPairs (cmd : Command) (s : State) :
    (commandPairs cmd s).length = callCount (bodyOf cmd s.env.pulseOrder) := by
  rw [← plannedCalls_bodyOf cmd s 0, length_plannedCalls]

theorem dropCalls_suffix (n : Nat) (ms : List Micro) : dropCalls n ms <:+ ms := by
  induction ms generalizing n with
  | nil => rw [dropCalls_nil]
  | cons m ms ih =>
    cases n with
    | zero => rw [dropCalls_zero]
    | succ n =>
      cases m with
      | call a b => exact (ih n).trans (List.suffix_cons _ _)
      | _ => exact (ih (n + 1)).trans (List.suffix_cons _ _)

theorem callsLeft_suffix {cmd : Command} {s : State} (command : s.upc.cmd = some cmd) :
    callsLeft s <:+ bodyOf cmd s.env.pulseOrder := by
  simp only [callsLeft, command]
  exact dropCalls_suffix _ _

theorem planned_of_suffix {ms ns : List Micro} (h : ns <:+ ms) (hp : planned ms = true) : planned ns = true := by
  obtain ⟨pre, rfl⟩ := h
  induction pre with
  | nil => exact hp
  | cons m pre ih =>
    cases m with
    | sampleBit => exact ih (planned_of_noDataBit _ hp)
    | _ => exact ih hp

theorem planned_callsLeft {cmd : Command} {s : State} (command : s.upc.cmd = some cmd) : planned (callsLeft s) = true :=
  planned_of_suffix (callsLeft_suffix command) (planned_bodyOf _ _)

/-- All of a command is left where none of its calls has been made. -/
theorem callsLeft_of_uncalled {cmd : Command} {s : State} (command : s.upc.cmd = some cmd) (uncalled : s.upc.calls = 0) :
    callsLeft s = bodyOf cmd s.env.pulseOrder := by
  simp only [callsLeft, command, uncalled, dropCalls_zero]

/-! ## What a command changes -/

/-- The parts that the sequence of a command can hold: samples and loop indices are those of its own registers, in their
ranges (10_state.md R19). -/
def Micro.fits (cmd : Command) : Micro → Bool
  | .call _ _ => true
  | .sampleRaw => cmd == .checkAck
  | .sampleBit => cmd == .readByte
  | .bitIndex i => (cmd == .readByte || cmd == .writeByte) && decide (i < 8)
  | .pulseIndex i => cmd == .configure && decide (i < 28)

theorem bodyOf_fits (cmd : Command) (order : PulseOrder) : ∀ m ∈ bodyOf cmd order, m.fits cmd = true := by
  apply List.all_eq_true.mp
  cases cmd <;> cases order <;> rfl

/-- What the sequence of a command may change of the working registers. -/
structure CommandMoved (cmd : Command) (s t : State) : Prop extends SequenceMoved s t where
  shreg : cmd ≠ .readByte → t.shreg = s.shreg
  raw : cmd ≠ .checkAck → t.raw = s.raw
  bitcnt : ¬(cmd = .readByte ∨ cmd = .writeByte) → t.bitcnt = s.bitcnt
  pulsecnt : cmd ≠ .configure → t.pulsecnt = s.pulsecnt
  bitcntRange : s.bitcnt < 8 → t.bitcnt < 8
  pulsecntRange : s.pulsecnt < 28 → t.pulsecnt < 28

theorem CommandMoved.trans {cmd : Command} {s u t : State} (h : CommandMoved cmd s u) (k : CommandMoved cmd u t) :
    CommandMoved cmd s t where
  toSequenceMoved := h.toSequenceMoved.trans k.toSequenceMoved
  shreg other := (k.shreg other).trans (h.shreg other)
  raw other := (k.raw other).trans (h.raw other)
  bitcnt other := (k.bitcnt other).trans (h.bitcnt other)
  pulsecnt other := (k.pulsecnt other).trans (h.pulsecnt other)
  bitcntRange := k.bitcntRange ∘ h.bitcntRange
  pulsecntRange := k.pulsecntRange ∘ h.pulsecntRange

theorem CallFrame.command {s t : State} (h : CallFrame s t) (cmd : Command) : CommandMoved cmd s t := by
  obtain ⟨-, -, -, -, -, -, -, -, -, shreg, bitcnt, pulsecnt, raw, -⟩ := h.fields
  exact ⟨h.sequence, fun _ => shreg, fun _ => raw, fun _ => bitcnt, fun _ => pulsecnt, fun range => bitcnt ▸ range,
    fun range => pulsecnt ▸ range⟩

theorem callDone_command (s : State) (cmd : Command) : CommandMoved cmd s (callDone s) :=
  ⟨callDone_moved s, fun _ => rfl, fun _ => rfl, fun _ => rfl, fun _ => rfl, id, id⟩

theorem Performs.command {ms : List Micro} {s t : State} (h : Performs ms s t) {cmd : Command}
    (fits : ∀ m ∈ ms, m.fits cmd = true) : CommandMoved cmd s t := by
  obtain ⟨shreg, raw, bitcnt, pulsecnt⟩ := h.registers
  refine ⟨h.moved.1, fun other => shreg fun mem => other ?_, fun other => raw fun mem => other ?_, fun other => ?_,
    fun other => ?_, fun range => ?_, fun range => ?_⟩
  · simpa [Micro.fits] using fits _ mem
  · simpa [Micro.fits] using fits _ mem
  · refine bitcnt.resolve_right fun mem => other ?_
    have own := fits _ mem
    simp only [Micro.fits, Bool.and_eq_true, Bool.or_eq_true, beq_iff_eq] at own
    exact own.1
  · refine pulsecnt.resolve_right fun mem => other ?_
    have own := fits _ mem
    simp only [Micro.fits, Bool.and_eq_true, beq_iff_eq] at own
    exact own.1
  · rcases bitcnt with same | mem
    · rwa [same]
    · have own := fits _ mem
      simp only [Micro.fits, Bool.and_eq_true, decide_eq_true_iff] at own
      exact own.2
  · rcases pulsecnt with same | mem
    · rwa [same]
    · have own := fits _ mem
      simp only [Micro.fits, Bool.and_eq_true, decide_eq_true_iff] at own
      exact own.2

/-! ## Frames -/

theorem ite_of_kept {α : Type} {p : Prop} [Decidable p] {x y : α} (kept : ¬p → x = y) : (if p then x else y) = x := by
  split
  case isTrue => rfl
  case isFalse other => exact (kept other).symm

theorem WaitFrame.mk {cmd : Command} {s t : State}
    (state : t = { s with
      ls := t.ls, drv := t.drv, t0 := t.t0, upc := t.upc, busy := t.busy, resp := t.resp, configured := t.configured
      pulsecnt := t.pulsecnt, shreg := t.shreg, bitcnt := t.bitcnt, raw := t.raw, env := t.env, hist := t.hist
      bus := t.bus })
    (configured : cmd ≠ .configure → t.configured = s.configured) (pulsecnt : cmd ≠ .configure → t.pulsecnt = s.pulsecnt)
    (shreg : cmd ≠ .readByte → t.shreg = s.shreg)
    (bitcnt : ¬(cmd = .readByte ∨ cmd = .writeByte) → t.bitcnt = s.bitcnt) (raw : cmd ≠ .checkAck → t.raw = s.raw)
    (env : EnvMoved s t) (records : RecordsGrow s t) : WaitFrame cmd s t := by
  refine ⟨?_, env, records⟩
  rw [ite_of_kept configured, ite_of_kept pulsecnt, ite_of_kept shreg, ite_of_kept bitcnt, ite_of_kept raw]
  exact state

/-- A command that waits keeps its frame. -/
theorem CommandMoved.waitFrame {cmd : Command} {s t : State} (h : CommandMoved cmd s t) : WaitFrame cmd s t := by
  obtain ⟨-, -, -, -, configured, -⟩ := h.fields
  refine .mk ?_ (fun _ => configured) h.pulsecnt h.shreg h.bitcnt h.raw h.env ⟨h.moved.hist, h.moved.bus⟩
  rw [h.state]

/-- A command that completes keeps its frame. -/
theorem CommandMoved.waitFrame_complete {cmd : Command} {s t : State} (h : CommandMoved cmd s t)
    (command : s.upc.cmd = some cmd) : WaitFrame cmd s (complete t) := by
  obtain ⟨-, -, -, -, configured, -, keeps, -⟩ := h.fields
  refine .mk ?_ (fun other => ?_) h.pulsecnt h.shreg h.bitcnt h.raw h.env ⟨h.moved.hist, h.moved.bus⟩
  · rw [h.state]; rfl
  · simp [complete, configuredAfter, configured, keeps, command, other]

/-! ## How a run ends -/

/-- The calls that what is left of a command plans. -/
def plannedLeft (s : State) : List Lines := plannedCalls (callsLeft s) s.ls s.shreg s.bitcnt

/-- From `s` to `t` all that was left of the command `cmd` has been performed; it completes next. -/
structure RunDone (cmd : Command) (s t : State) : Prop where
  performs : Performs (callsLeft s) s t
  moved : CommandMoved cmd s t
  calls : callsBetween s t = plannedLeft s
  driven : drivenBetween s t = plannedLeft s
  ls : t.ls = (plannedLeft s).getLast?.getD s.ls
  drv : t.drv = (plannedLeft s).getLast?.getD s.drv

/-- From `s` to `t` what was left of the command `cmd` has been performed up to a call, number `k` of those left, that
waits in `t`. -/
structure RunWaits (cmd : Command) (s t : State) : Prop where
  amid : WaitsAmid (callsLeft s) (restOfCommand t) s t
  moved : CommandMoved cmd s t
  wait : InDelayWait t ∨ InStretchWait t
  made : callsBetween s t <+: plannedLeft s
  count : t.upc.calls + 1 = s.upc.calls + (callsBetween s t).length
  driven : drivenBetween s t ++ pendingPairs t = callsBetween s t
  drv : t.drv = (drivenBetween s t).getLast?.getD s.drv
  here : (callsBetween s t).getLast? = some t.ls

/-- The two ways a run of what is left of a command ends. -/
def RunEnds (cmd : Command) (s t : State) : Prop := (∃ w, RunDone cmd s w ∧ t = complete w) ∨ RunWaits cmd s t

theorem runDone {cmd : Command} {s w : State} (command : s.upc.cmd = some cmd) (run : runMicros (callsLeft s) s = .done w)
    (performs : Performs (callsLeft s) s w) : RunDone cmd s w := by
  have moved : CommandMoved cmd s w :=
    performs.command fun m mem => bodyOf_fits _ _ m ((callsLeft_suffix command).mem mem)
  obtain ⟨requested, driven, ls, drv⟩ := (runMicros_calls _ s (planned_callsLeft command)).1 w run
  exact ⟨performs, moved, callsBetween_eq moved.moved.hist requested, drivenBetween_eq moved.moved.hist driven, ls, drv⟩

theorem WaitsAmid.command {cmd : Command} {rest : List Micro} {s t : State} (h : WaitsAmid (callsLeft s) rest s t)
    (command : s.upc.cmd = some cmd) : CommandMoved cmd s t := by
  obtain ⟨pre, a, b, w, parts, done, begun⟩ := h
  refine (done.command fun m mem => bodyOf_fits _ _ m ((callsLeft_suffix command).mem ?_)).trans (begun.frame.command cmd)
  rw [parts]
  exact List.mem_append_left _ mem

theorem runWaits {cmd : Command} {s t : State} (command : s.upc.cmd = some cmd) (run : runMicros (callsLeft s) s = .waiting t)
    (amid : WaitsAmid (callsLeft s) (restOfCommand t) s t) : RunWaits cmd s t := by
  have moved := amid.command command
  have hp := planned_callsLeft command
  have grown := moved.moved.hist
  obtain ⟨u, -, ⟨run', -⟩ | ⟨run', -, -, wait⟩⟩ := runMicros_spec (callsLeft s) s
  · cases run.symm.trans run'
  cases run.symm.trans run'
  obtain ⟨p, made, requested, driven, count⟩ := (runMicros_calls _ s hp).2 t run
  obtain rfl := callsBetween_eq grown requested
  rw [drives_eq_append grown, List.append_assoc, List.append_cancel_left_eq] at driven
  have levels := runMicros_levels (callsLeft s) s
  rw [run] at levels
  refine ⟨amid, moved, wait, made, count, driven, levels.drv, ?_⟩
  obtain ⟨k, position, -, here, -⟩ := runMicros_waiting_rest _ s t hp run
  have last : (callsBetween s t).length = k + 1 := by omega
  obtain ⟨onward, whole⟩ := made
  rw [List.getLast?_eq_getElem?, last, Nat.add_sub_cancel, ← here, ← whole, List.getElem?_append_left (by omega)]

theorem runEnds {cmd : Command} {s t : State} (command : s.upc.cmd = some cmd)
    (next : settle (runMicros (callsLeft s) s) = .next t) : RunEnds cmd s t := by
  rcases runMicros_performs (callsLeft s) s with ⟨w, run, performs⟩ | ⟨v, rest, run, waits⟩
  · rw [run] at next
    cases next
    exact .inl ⟨w, runDone command run performs, rfl⟩
  · rw [run] at next
    cases next
    exact .inr (runWaits command run (by rwa [waits.restOfCommand_eq]))

theorem RunEnds.waitFrame {cmd : Command} {s t : State} (h : RunEnds cmd s t) (command : s.upc.cmd = some cmd) :
    WaitFrame cmd s t := by
  rcases h with ⟨w, done, rfl⟩ | waits
  · exact done.moved.waitFrame_complete command
  · exact waits.moved.waitFrame

theorem RunEnds.grown {cmd : Command} {s t : State} (h : RunEnds cmd s t) : s.hist <+: t.hist := by
  rcases h with ⟨w, done, rfl⟩ | waits
  · exact done.moved.moved.hist
  · exact waits.moved.moved.hist

end Sys2Proof.Machine

/-! PROOFS. Files 41 to 44: each command from its acceptance to its end or to the call it waits in. -/

namespace Sys2Proof.Machine

/-! ## Samples and calls -/

theorem sampleCount_takeCalls_eq_zero {ms : List Micro} (h : sampleCount ms = 0) (n : Nat) :
    sampleCount (takeCalls n ms) = 0 := by
  induction ms generalizing n with
  | nil => cases n <;> rfl
  | cons m ms ih =>
    cases m with
    | call a b =>
      cases n with
      | zero => rfl
      | succ n => exact ih h n
    | sampleRaw | sampleBit => cases h
    | bitIndex _ | pulseIndex _ => cases n <;> exact ih h _

/-- The samples a command has taken when `k` of its calls have completed are those before its call number `k`. -/
theorem samplesTaken_eq (cmd : Command) (order : PulseOrder) (k : Nat) (h : k < callCount (bodyOf cmd order)) :
    samplesTaken cmd k = sampleCount (takeCalls k (bodyOf cmd order)) := by
  cases cmd with
  | readByte => change k < 17 at h; interval_cases k <;> rfl
  | checkAck => change k < 3 at h; interval_cases k <;> rfl
  | configure => exact (sampleCount_takeCalls_eq_zero (by cases order <;> rfl) k).symm
  | _ => exact (sampleCount_takeCalls_eq_zero rfl k).symm

/-- A command that waits has taken the samples before its call in progress. -/
theorem RunWaits.sampled {cmd : Command} {x t : State} (h : RunWaits cmd x t) {done : List Micro}
    (parts : bodyOf cmd x.env.pulseOrder = done ++ callsLeft x) (calls : x.upc.calls = callCount done) :
    sampleCount done + (samplesBetween x t).length = samplesTaken cmd t.upc.calls
      ∧ t.upc.calls < callCount (bodyOf cmd x.env.pulseOrder) := by
  obtain ⟨pre, a, b, w, left, performs, begun⟩ := h.amid
  obtain ⟨vs, samples, count⟩ := performs.samples
  have taken : samplesBetween x t = vs := samplesBetween_eq h.moved.moved.hist (by rw [begun.sampled, samples])
  obtain ⟨-, -, -, -, -, -, -, keeps, -⟩ := begun.frame.fields
  have position : t.upc.calls = callCount (done ++ pre) := by
    rw [keeps, performs.moved.2, calls, callCount_append]
  have whole : bodyOf cmd x.env.pulseOrder = (done ++ pre) ++ .call a b :: restOfCommand t := by
    rw [parts, left, List.append_assoc]
  have within : t.upc.calls < callCount (bodyOf cmd x.env.pulseOrder) := by
    rw [whole, position, callCount_append (done ++ pre)]
    exact Nat.lt_add_of_pos_right (Nat.succ_pos _)
  refine ⟨?_, within⟩
  rw [samplesTaken_eq cmd _ _ within, whole, position, takeCalls_append, sampleCount_append, taken, count]

theorem callsBetween_append {s u t : State} (h : s.hist <+: u.hist) (k : u.hist <+: t.hist) :
    callsBetween s t = callsBetween s u ++ callsBetween u t := by
  rw [callsBetween, eventsBetween_append h k, List.filterMap_append]
  rfl

/-! ## A command from its acceptance -/

/-- The pairs a command drives before its first call: CONFIGURE releases both lines (41_bus_init_and_configure.md R88). -/
def entryPairs : Instr → List Lines
  | .configure _ _ _ => [⟨true, true⟩]
  | _ => []

theorem between_of_same_hist {s u : State} (h : u.hist = s.hist) :
    callsBetween s u = [] ∧ samplesBetween s u = [] ∧ drivenBetween s u = [] := by
  have none : eventsBetween s u = [] := eventsBetween_of_hist (by rw [h, List.append_nil])
  rw [callsBetween, samplesBetween, drivenBetween, none]
  exact ⟨rfl, rfl, rfl⟩

/-- The entry of a command makes no call and takes no sample. -/
theorem Enters.recorded {i : Instr} {s u : State} (h : Enters i s u) :
    callsBetween s u = [] ∧ samplesBetween s u = [] ∧ drivenBetween s u = entryPairs i := by
  cases h with
  | configure _ _ _ _ entry =>
    obtain ⟨-, env, bus, rfl, -⟩ := configureEntry_eq entry
    rw [callsBetween, samplesBetween, drivenBetween, eventsBetween_of_hist rfl]
    exact ⟨rfl, rfl, rfl⟩
  | start _ entry =>
    rw [recalibrate_eq] at entry
    split at entry <;> cases entry
    rw [callsBetween, samplesBetween, drivenBetween, eventsBetween_of_hist (s := s) rfl]
    exact ⟨rfl, rfl, rfl⟩
  | _ => exact between_of_same_hist rfl

/-- A free block that enters a command runs it, to its end if the environment serves its waits. -/
theorem exec_ends {i : Instr} {s u : State} (free : s.busy = false) (entered : Enters i s u) :
    ∃ t, exec i s = .next t ∧ RunEnds (commandOf i) u t ∧ (u.env.Serves u.gpioScl u.delay.toNat → AtRest t) := by
  obtain ⟨⟨-, command, uncalled, -⟩, -⟩ := entered.accepted
  obtain ⟨t, run, -⟩ := runCommand_spec (commandOf i) u
  refine ⟨t, (exec_enters free entered).trans run, ?_, fun serves => ?_⟩
  · rw [runCommand, ← callsLeft_of_uncalled command uncalled] at run
    exact runEnds command run
  · obtain ⟨w, done, -⟩ := runMicros_done (bodyOf (commandOf i) u.env.pulseOrder) u serves
    rw [runCommand, done] at run
    cases run
    exact ⟨rfl, rfl⟩

/-- From acceptance, a command makes and drives the calls its sequence plans, after the pairs of its entry. -/
theorem RunEnds.commandEnds {i : Instr} {s u t : State} {calls : List Lines} {post : Prop}
    (h : RunEnds (commandOf i) u t) (entered : Enters i s u) (plan : commandPairs (commandOf i) u = calls)
    (ends : ∀ w, RunDone (commandOf i) u w → t = complete w → post) :
    CommandEnds (commandOf i) s t calls (entryPairs i ++ calls) post := by
  obtain ⟨⟨busy, command, uncalled, configured, -, resp, -⟩, since⟩ := entered.accepted
  obtain ⟨noCall, noSample, released⟩ := entered.recorded
  have left := callsLeft_of_uncalled command uncalled
  have planned : plannedLeft u = calls := by rw [plannedLeft, left, plannedCalls_bodyOf, plan]
  rcases h with ⟨w, done, over'⟩ | waits
  · have post := ends w done over'
    subst over'
    have grown : u.hist <+: (complete w).hist := done.moved.moved.hist
    refine .inl ⟨⟨rfl, rfl⟩, ?_, ?_, post⟩
    · rw [callsBetween_append since.hist grown, noCall, List.nil_append, ← planned]
      exact done.calls
    · rw [drivenBetween_append since.hist grown, released, ← planned]
      exact congrArg _ done.driven
  · have grown := waits.moved.moved.hist
    obtain ⟨-, -, -, -, keepsConfigured, keepsBusy, keepsCommand, keepsResp, -, order, -⟩ := waits.moved.fields
    obtain ⟨samples, within⟩ := waits.sampled (done := []) left.symm uncalled
    have called : callsBetween s t = callsBetween u t := by
      rw [callsBetween_append since.hist grown, noCall, List.nil_append]
    refine .inr ⟨⟨keepsBusy.trans busy, keepsCommand.trans command, by rwa [order], waits.wait⟩, keepsResp.trans resp,
      keepsConfigured.trans configured, ?_, ?_, ?_, ?_⟩
    · rw [called, ← planned]
      exact waits.made
    · rw [called, waits.count, uncalled, Nat.zero_add]
    · rw [drivenBetween_append since.hist grown, released, List.append_assoc, waits.driven, ← planned]
      exact (List.prefix_append_right_inj _).mpr waits.made
    · rw [samplesBetween_append since.hist grown, noSample, List.nil_append, ← samples]
      exact (Nat.zero_add _).symm

/-- Where a command of at least one call ends. -/
theorem RunDone.lines {cmd : Command} {u w : State} (h : RunDone cmd u w) (command : u.upc.cmd = some cmd)
    (uncalled : u.upc.calls = 0) {l : Lines} (last : (commandPairs cmd u).getLast? = some l) :
    w.ls = l ∧ w.drv = l := by
  have planned : plannedLeft u = commandPairs cmd u := by
    rw [plannedLeft, callsLeft_of_uncalled command uncalled, plannedCalls_bodyOf]
  rw [h.ls, h.drv, planned, last]
  exact ⟨rfl, rfl⟩

/-- A completed command latches its response, from the registers as its sequence leaves them. -/
theorem RunDone.resp {cmd : Command} {u w : State} (h : RunDone cmd u w) (command : u.upc.cmd = some cmd) :
    (complete w).resp = responseOf (some cmd) (complete w) := by
  obtain ⟨-, -, -, -, -, -, keeps, -⟩ := h.moved.fields
  exact complete_resp (keeps.trans command)

/-! ## STOP, SEND_ACK, SEND_NACK -/

/-- A command that acceptance enters and that has no register of its own but the lines. -/
theorem RunEnds.linesFrame {cmd : Command} {ph : Phase} {s t : State} (h : RunEnds cmd (accept cmd ph s) t)
    (other : cmd ≠ .configure ∧ cmd ≠ .readByte ∧ cmd ≠ .writeByte ∧ cmd ≠ .checkAck) : LinesFrame s t := by
  obtain ⟨state, env, records⟩ := h.waitFrame rfl
  obtain ⟨configure, readByte, writeByte, checkAck⟩ := other
  refine ⟨?_, env, records⟩
  simp only [configure, readByte, writeByte, checkAck, or_self, if_false] at state
  rw [state]
  rfl

/-- Such a command from its acceptance. -/
theorem exec_linesCommand {i : Instr} {s : State} {l : Lines} (ready : Ready s)
    (entered : Enters i s (accept (commandOf i) .record s)) (noEntry : entryPairs i = [])
    (other : commandOf i ≠ .configure ∧ commandOf i ≠ .readByte ∧ commandOf i ≠ .writeByte ∧ commandOf i ≠ .checkAck)
    (last : (commandPairs (commandOf i) s).getLast? = some l) (answer : ∀ x, responseOf (some (commandOf i)) x = 0) :
    ∃ t, exec i s = .next t ∧ LinesFrame s t
      ∧ CommandEnds (commandOf i) s t (commandPairs (commandOf i) s) (commandPairs (commandOf i) s)
          (t.ls = l ∧ t.drv = l ∧ t.resp = 0)
      ∧ (s.env.Serves s.gpioScl s.delay.toNat → AtRest t) := by
  obtain ⟨t, run, ends, served⟩ := exec_ends ready.1 entered
  have same : commandPairs (commandOf i) (accept (commandOf i) .record s) = commandPairs (commandOf i) s := by
    cases commandOf i <;> rfl
  have calls := ends.commandEnds (post := t.ls = l ∧ t.drv = l ∧ t.resp = 0) entered same fun w done over' => by
    obtain ⟨ls, drv⟩ := done.lines rfl rfl (same ▸ last)
    subst over'
    exact ⟨ls, drv, (done.resp rfl).trans (answer _)⟩
  rw [noEntry, List.nil_append] at calls
  exact ⟨t, run, ends.linesFrame other, calls, served⟩

/-- Settles O32: the three calls of STOP, of which only the first takes anything from the state. -/
theorem stopReturnsToIdle : Obligations.StopReturnsToIdle := fun _ ready =>
  exec_linesCommand (i := .stop) ready (.stop ready.2) rfl (by decide) rfl fun _ => rfl

/-- Settles O35: the five calls of `send_ack_bit(0)`. -/
theorem sendAckDrivesLow : Obligations.SendAckDrivesLow := fun _ ready =>
  exec_linesCommand (i := .sendAck) ready (.sendAck ready.2) rfl (by decide) rfl fun _ => rfl

/-- Settles O36: the five calls of `send_ack_bit(1)`. -/
theorem sendNackReleases : Obligations.SendNackReleases := fun _ ready =>
  exec_linesCommand (i := .sendNack) ready (.sendNack ready.2) rfl (by decide) rfl fun _ => rfl

/-! ## WRITE_BYTE and READ_BYTE -/

/-- A byte command latches `SHREG` at its entry. -/
theorem RunEnds.byteFrame {cmd : Command} {b : Byte} {s t : State}
    (h : RunEnds cmd { accept cmd .record s with shreg := b } t) (byte : cmd = .writeByte ∨ cmd = .readByte) :
    ByteFrame s t := by
  obtain ⟨state, env, records⟩ := h.waitFrame rfl
  refine ⟨?_, env, records⟩
  rcases byte with rfl | rfl
  · have kept : t.shreg = b := by rw [state]; rfl
    rw [state]
    simp [accept]
  · rw [state]; rfl

/-- Settles O33: `SHREG` is the byte and no part of the sequence writes it or samples. -/
theorem writeByteSendsBitsMsbFirst : Obligations.WriteByteSendsBitsMsbFirst := by
  intro s b ready
  have entered : Enters (.writeByte b) s { accept .writeByte .record s with shreg := b } := .writeByte ready.2
  obtain ⟨t, run, ends, served⟩ := exec_ends ready.1 entered
  have shreg : t.shreg = b := by
    obtain ⟨state, -⟩ := ends.waitFrame rfl
    rw [state]; rfl
  refine ⟨t, run, ends.byteFrame (.inl rfl), shreg, ends.commandEnds entered rfl fun w done over' => ?_, served⟩
  obtain ⟨ls, drv⟩ := done.lines rfl rfl rfl
  obtain ⟨vs, samples, count⟩ := done.performs.samples
  subst over'
  refine ⟨ls, drv, done.resp rfl, samplesBetween_eq done.moved.moved.hist (p := []) ?_⟩
  rw [List.length_eq_zero_iff.mp count] at samples
  exact samples

/-- READ_BYTE samples against the SDA it keeps, also where it waits. -/
theorem RunEnds.samplesHeld {u t : State} (h : RunEnds .readByte u t) (command : u.upc.cmd = some .readByte)
    (uncalled : u.upc.calls = 0) : SamplesHeld u.ls.sda u t := by
  have left := callsLeft_of_uncalled command uncalled
  have keeps : keepsSda false (callsLeft u) = true := by rw [left]; rfl
  rcases h with ⟨w, done, rfl⟩ | waits
  · exact (done.performs.samplesHeld keeps fun h => by cases h).1
  · obtain ⟨pre, a, b, w, parts, performs, begun⟩ := waits.amid
    rw [parts] at keeps
    obtain ⟨held, -⟩ := performs.samplesHeld (keepsSda_append_left keeps) fun h => by cases h
    obtain ⟨-, pin, -⟩ := performs.moved.1.fields
    have moved := begun.frame.moved
    exact held.trans (samplesHeld_of_unsampled _ moved begun.sampled) performs.moved.1.moved moved.hist pin

/-- Eight samples accumulated are the byte READ_BYTE answers, bit 7 first. -/
theorem Accumulated.response {vs : List Bit} {shreg : Byte} (h : Accumulated vs shreg) (eight : vs.length = 8) :
    (shreg.setWidth 32).toNat < 256 ∧ ∀ i, i < 8 → some ((shreg.setWidth 32).getLsbD (7 - i)) = vs[i]? := by
  refine ⟨?_, fun i hi => ?_⟩
  · rw [BitVec.toNat_setWidth]
    exact (Nat.mod_le _ _).trans_lt shreg.isLt
  · have bit := h i hi
    rw [List.getElem?_eq_getElem (by omega)] at bit
    rw [List.getElem?_eq_getElem (by omega), BitVec.getLsbD_setWidth]
    simp [bit, show 7 - i < 32 by omega]

/-- Settles O34: seventeen calls that keep SDA, eight samples against it, accumulated in `SHREG`. -/
theorem readByteAssemblesSamples : Obligations.ReadByteAssemblesSamples := by
  intro s ready
  have entered : Enters .readByte s { accept .readByte .record s with shreg := 0 } := .readByte ready.2
  obtain ⟨t, run, ends, served⟩ := exec_ends ready.1 entered
  refine ⟨t, run, ends.byteFrame (.inr rfl), ends.commandEnds entered rfl fun w done over' => ?_,
    ends.samplesHeld rfl rfl, served⟩
  obtain ⟨ls, drv⟩ := done.lines rfl rfl rfl
  obtain ⟨vs, samples, count, accumulated⟩ :=
    done.performs.accumulates [] (readsInOrder_readByteBody _) accumulated_nil
  have taken : samplesBetween s t = vs := samplesBetween_eq (over' ▸ done.moved.moved.hist) (over' ▸ samples)
  have eight : vs.length = 8 := count
  subst over'
  have resp : (complete w).resp = w.shreg.setWidth 32 := done.resp rfl
  rw [taken, resp]
  exact ⟨ls, drv, eight, accumulated.response eight⟩

/-! ## START -/

/-- A delay that fits is held in `DELAY` as it is. -/
theorem toNat_delay {d : Nat} (fits : d < 2 ^ 32) : (BitVec.ofNat Config.counterWidth d).toNat = d := by
  rw [BitVec.toNat_ofNat]
  exact Nat.mod_eq_of_lt fits

/-- What recalibration leaves: the delay of the armed speed, and the environment one event on (42_start_stop.md R100). -/
theorem recalibrate_of_fits {s : State} (fits : calibrate s.cfg.speedHz.toNat s.env.nextFreq.cpuFreq < 2 ^ 32) :
    ∃ bus, recalibrate s = some { s with
      delay := BitVec.ofNat Config.counterWidth (calibrate s.cfg.speedHz.toNat s.env.nextFreq.cpuFreq)
      upc := ⟨s.upc.cmd, s.upc.calls, .cal⟩
      env := s.env.settle.nextFreq
      hist := s.hist ++ [.freq s.env.nextFreq.cpuFreq]
      bus := bus } := ⟨_, (recalibrate_eq s).trans (if_pos fits)⟩

/-- Settles O31: recalibration, one event that is neither call nor sample, and the three calls of START. -/
theorem startRecalibratesAndStarts : Obligations.StartRecalibratesAndStarts := by
  rintro s delay ready rfl fits
  obtain ⟨bus, entry⟩ := recalibrate_of_fits (s := accept .start .cal s) fits
  have entered : Enters .start s _ := .start ready.2 entry
  have since := entered.accepted.2
  obtain ⟨t, run, ends, served⟩ := exec_ends ready.1 entered
  obtain ⟨state, env, hist, bus'⟩ := ends.waitFrame rfl
  have delay : t.delay.toNat = calibrate s.cfg.speedHz.toNat s.env.nextFreq.cpuFreq := by
    rw [state]
    exact toNat_delay fits
  refine ⟨t, run, ⟨?_, env, since.hist.trans hist, since.bus.trans bus'⟩, delay,
    ends.commandEnds entered rfl fun w done over' => ?_, fun serves => served ?_⟩
  · rw [state]; rfl
  · obtain ⟨ls, drv⟩ := done.lines rfl rfl rfl
    subst over'
    exact ⟨ls, drv, done.resp rfl⟩
  · rw [← toNat_delay fits] at serves
    exact since.serves rfl serves

end Sys2Proof.Machine

/-! PROOFS. 41_bus_init_and_configure.md: CONFIGURE from its acceptance (R85, R88, R91). -/

namespace Sys2Proof.Machine

theorem mem_insertGpio (g x : Nat) (l : List Nat) : x ∈ insertGpio g l ↔ x = g ∨ x ∈ l := by
  induction l with
  | nil => simp [insertGpio]
  | cons y ys ih =>
    rw [insertGpio]
    split
    case isTrue => simp
    case isFalse =>
      split
      case isTrue same => subst same; simp
      case isFalse => simp only [List.mem_cons, ih]; tauto

theorem getLast_initPairs (order : PulseOrder) : (initPairs order).getLast? = some ⟨true, true⟩ := by
  cases order <;> rfl

/-- CONFIGURE enters its sequence where the delay fits. -/
theorem exists_configureEntry {sda scl : PinId} {speed : Speed} {gSda gScl : Nat} {s : State}
    (fits : calibrate (clampSpeed speed).toNat s.env.nextFreq.cpuFreq < 2 ^ 32) :
    ∃ u, configureEntry sda scl speed gSda gScl s = some u := by
  obtain ⟨armed, frequency⟩ := latchConfig_calibration sda scl speed gSda gScl (accept .configure .setup s)
  obtain ⟨bus, calibrated⟩ := recalibrate_of_fits
    (s := latchConfig sda scl speed gSda gScl (accept .configure .setup s)) (by rw [armed, frequency]; exact fits)
  exact ⟨_, by rw [configureEntry, calibrated]; rfl⟩

/-- Settles O30: what CONFIGURE latches and its eight events stand at the entry of its sequence, which is the 62 calls of
`init`. -/
theorem configureArmsTheBus : Obligations.ConfigureArmsTheBus := by
  rintro s sda scl speed gSda gScl delay free idle mappedSda mappedScl distinct rfl fits
  rw [← clampSpeed_toNat] at fits ⊢
  obtain ⟨u, entry⟩ := exists_configureEntry (sda := sda) (scl := scl) (gSda := gSda) (gScl := gScl) fits
  have entered : Enters (.configure sda scl speed) s u := .configure idle mappedSda mappedScl distinct entry
  obtain ⟨⟨-, command, uncalled, -⟩, since⟩ := entered.accepted
  obtain ⟨t, run, ends, served⟩ := exec_ends free entered
  obtain ⟨state, env, grown⟩ := ends.waitFrame command
  have calls := ends.commandEnds (calls := initPairs s.env.pulseOrder)
    (post := t.ls = ⟨true, true⟩ ∧ t.drv = ⟨true, true⟩ ∧ t.configured = true ∧ t.resp = t.cfg.speedHz) entered
    (by obtain ⟨-, -, -, -, -, -, -, -, -, -, order, -⟩ := entered.accepted.1
        exact congrArg initPairs order)
    fun w done over' => by
      obtain ⟨ls, drv⟩ := done.lines command uncalled (getLast_initPairs _)
      obtain ⟨-, -, -, -, -, -, keeps, -⟩ := done.moved.fields
      subst over'
      refine ⟨ls, drv, ?_, done.resp command⟩
      show configuredAfter w.upc.cmd w.configured = true
      rw [keeps, command]
      simp [configuredAfter, commandOf]
  obtain ⟨-, env', bus, rfl, same⟩ := configureEntry_eq entry
  have records : RecordsGrow s t := ⟨since.hist.trans grown.1, since.bus.trans grown.2⟩
  have pins : t.env.openDrain = insertGpio gScl (insertGpio gSda s.env.openDrain) ∧ t.env.intEnabled = true := by
    rw [env, same]; exact ⟨rfl, rfl⟩
  refine ⟨t, run, ⟨?_, ?_, records⟩, ?_, ?_, ?_, ?_, ?_, ?_, ?_, ?_, pins.2, ?_, calls, fun serves => served ?_⟩
  · rw [state]; rfl
  · rw [env, same]
  · rw [state]
  · rw [state]
  · rw [state]
  · rw [state]
  · rw [state]
  · rw [state]; exact toNat_delay fits
  · rw [pins.1, mem_insertGpio, mem_insertGpio]; exact .inr (.inl rfl)
  · rw [pins.1, mem_insertGpio]; exact .inl rfl
  · rw [eventsBetween_append since.hist grown.1, eventsBetween_of_hist rfl]
    exact List.prefix_append _ _
  · rw [← toNat_delay fits] at serves
    exact since.serves (by rw [same]) serves

end Sys2Proof.Machine

/-! PROOFS. 10_state.md: what holds between two parts of a command's sequence, whichever steps have run the parts before. -/

namespace Sys2Proof.Machine

/-! ## Rises of SCL -/

theorem SteadyRises.append_left {d : Lines} {ps qs : List Lines} (h : SteadyRises (d :: (ps ++ qs))) :
    SteadyRises (d :: ps) := by
  induction ps generalizing d with
  | nil => trivial
  | cons p ps ih => exact ⟨h.1, ih h.2⟩

/-- The pairs from the last of the first on. -/
theorem SteadyRises.append_right {d : Lines} {ps qs : List Lines} (h : SteadyRises (d :: (ps ++ qs))) :
    SteadyRises (ps.getLast?.getD d :: qs) := by
  induction ps generalizing d with
  | nil => exact h
  | cons p ps ih =>
    rw [List.getLast?_cons, Option.getD_some]
    exact ih h.2

/-! ## The indices of the byte commands -/

/-- `BITCNT` in WRITE_BYTE's and READ_BYTE's calls (44_byte_transfer.md R120, R123). -/
theorem bitcntAfter_writeByteBody (k : Nat) (h : k < 16) (i : Nat) :
    bitcntAfter (takeCalls k writeByteBody) i = 7 - k / 2 := by
  interval_cases k <;> rfl

theorem bitcntAfter_readByteBody (k : Nat) (h : k < 17) (i : Nat) :
    bitcntAfter (takeCalls k readByteBody) i = min 7 (k / 2) := by
  interval_cases k <;> rfl

theorem bitcntAfter_eq_or_mem (ms : List Micro) (i : Nat) :
    bitcntAfter ms i = i ∨ .bitIndex (bitcntAfter ms i) ∈ ms := by
  induction ms generalizing i with
  | nil => exact .inl rfl
  | cons m ms ih =>
    cases m with
    | bitIndex j =>
      rcases ih j with same | later
      · exact .inr (by rw [bitcntAfter, same]; exact List.mem_cons_self)
      · exact .inr (List.mem_cons_of_mem _ later)
    | _ => exact (ih i).imp_right (List.mem_cons_of_mem _)

/-- The other commands leave `BITCNT`. -/
theorem bitcntAfter_of_fits {cmd : Command} {ms : List Micro} (fits : ∀ m ∈ ms, m.fits cmd = true)
    (other : ¬(cmd = .readByte ∨ cmd = .writeByte)) (i : Nat) : bitcntAfter ms i = i := by
  refine (bitcntAfter_eq_or_mem ms i).resolve_right fun mem => other ?_
  have own := fits _ mem
  simp only [Micro.fits, Bool.and_eq_true, Bool.or_eq_true, beq_iff_eq] at own
  exact own.1

/-! ## The sample of CHECK_ACK -/

/-- A sequence without samples of READ_BYTE leaves its last sample in `RAW`. -/
theorem Performs.lastSample {ms : List Micro} {s t : State} (h : Performs ms s t) (noBit : .sampleBit ∉ ms) :
    (samplesOf t.hist).getLast? = some t.raw
      ∨ (sampleCount ms = 0 ∧ samplesOf t.hist = samplesOf s.hist ∧ t.raw = s.raw) := by
  induction h with
  | nil s => exact .inr ⟨rfl, rfl, rfl⟩
  | @call a b ms s u t made _ ih =>
    obtain ⟨-, -, -, -, -, -, -, -, -, -, -, -, raw, -⟩ := made.frame.fields
    refine (ih (by simpa using noBit)).imp_right fun ⟨count, samples, kept⟩ => ⟨count, ?_, ?_⟩
    · rw [samples, callDone_hist, made.sampled]
    · rw [kept]; exact raw
  | @sampleRaw ms s t _ ih =>
    refine .inl ?_
    rcases ih (by simpa using noBit) with last | ⟨-, samples, kept⟩
    · exact last
    · rw [samples, kept]
      simp [samplesOf]
  | sampleBit => simp at noBit
  | bitIndex _ ih => exact ih (by simpa using noBit)
  | pulseIndex _ ih => exact ih (by simpa using noBit)

/-! ## The configuration a command runs under -/

/-- The armed configuration (10_state.md R11, R12, R15, 93_implementation_defined.md U6). -/
structure Latched (s : State) : Prop where
  speed : Config.minSpeedHz ≤ s.cfg.speedHz.toNat
  sdaMapped : pinMap s.cfg.sdaPin s = some s.gpioSda
  sclMapped : pinMap s.cfg.sclPin s = some s.gpioScl
  distinct : s.gpioSda ≠ s.gpioScl
  calibrated : s.delay.toNat = calibrate s.cfg.speedHz.toNat s.env.cpuFreq

/-- The ranges of the loop indices and the order of the open-drain list (10_state.md R19). -/
structure InRange (s : State) : Prop where
  bitcnt : s.bitcnt < 8
  pulsecnt : s.pulsecnt < 28
  openDrain : s.env.openDrain.Pairwise (· < ·)

/-- The same configuration, with the delay it then has. -/
theorem Latched.recalibrated {s t : State} (h : Latched s) (cfg : t.cfg = s.cfg) (sda : t.gpioSda = s.gpioSda)
    (scl : t.gpioScl = s.gpioScl) (table : t.env.pinMap = s.env.pinMap)
    (calibrated : t.delay.toNat = calibrate t.cfg.speedHz.toNat t.env.cpuFreq) : Latched t := by
  refine ⟨by rw [cfg]; exact h.speed, ?_, ?_, by rw [sda, scl]; exact h.distinct, calibrated⟩
  · rw [cfg, sda, pinMap, table]; exact h.sdaMapped
  · rw [cfg, scl, pinMap, table]; exact h.sclMapped

theorem Latched.moved {s t : State} (h : Latched s) (moved : SequenceMoved s t) : Latched t := by
  obtain ⟨cfg, sda, scl, delay, -, -, -, -, -, -, table, -⟩ := moved.fields
  have frequency : t.env.cpuFreq = s.env.cpuFreq := by rw [moved.env]
  exact h.recalibrated cfg sda scl table (by rw [cfg, delay, frequency]; exact h.calibrated)

theorem InRange.moved {cmd : Command} {s t : State} (h : InRange s) (moved : CommandMoved cmd s t) : InRange t :=
  ⟨moved.bitcntRange h.bitcnt, moved.pulsecntRange h.pulsecnt, by rw [moved.env]; exact h.openDrain⟩

/-! ## Along a command -/

/-- The parts `done` of the command `cmd` have been performed in `s`, in whichever steps: the handshake, the configuration
and what the parts have left in the working registers. -/
structure Along (cmd : Command) (done : List Micro) (s : State) : Prop where
  busy : s.busy = true
  command : s.upc.cmd = some cmd
  ready : s.configured = true ∨ cmd = .configure
  parts : done <+: bodyOf cmd s.env.pulseOrder
  calls : s.upc.calls = callCount done
  latched : Latched s
  inRange : InRange s
  index : ∃ i, s.bitcnt = bitcntAfter done i
  samples : cmd = .readByte → ∃ before vs, samplesOf s.hist = before ++ vs ∧ vs.length = sampleCount done
    ∧ Accumulated vs s.shreg
  raw : cmd = .checkAck → sampleCount done = 0 ∨ (samplesOf s.hist).getLast? = some s.raw

/-- What is left behind the parts performed. -/
theorem Along.callsLeft_eq {cmd : Command} {done rest : List Micro} {a b : LineArg} {s : State} (h : Along cmd done s)
    (parts : bodyOf cmd s.env.pulseOrder = done ++ .call a b :: rest) :
    takeCalls s.upc.calls (bodyOf cmd s.env.pulseOrder) = done ∧ restOfCommand s = rest := by
  have left : restOfCommand s = dropCalls (s.upc.calls + 1) (bodyOf cmd s.env.pulseOrder) := by
    rw [restOfCommand, h.command]
  rw [left, h.calls, parts]
  exact ⟨takeCalls_append _ _ _ _, dropCalls_append _ _ _ _⟩

/-- Polls, and the recording and driving of a pair, change nothing of it. -/
theorem Along.framed {cmd : Command} {done : List Micro} {s t : State} (h : Along cmd done s) (frame : CallFrame s t)
    (sampled : samplesOf t.hist = samplesOf s.hist) : Along cmd done t := by
  obtain ⟨-, -, -, -, configured, busy, command, calls, -, shreg, bitcnt, -, raw, -⟩ := frame.fields
  obtain ⟨-, -, -, -, -, -, -, -, -, order, -⟩ := frame.sequence.fields
  refine ⟨busy.trans h.busy, command.trans h.command, by rw [configured]; exact h.ready, by rw [order]; exact h.parts,
    calls.trans h.calls, h.latched.moved frame.sequence, h.inRange.moved (frame.command cmd),
    by rw [bitcnt]; exact h.index, ?_, ?_⟩
  · rw [sampled, shreg]; exact h.samples
  · rw [sampled, raw]; exact h.raw

/-- The call in progress completes. -/
theorem Along.called {cmd : Command} {done : List Micro} {s : State} (h : Along cmd done s) {a b : LineArg}
    (parts : done ++ [.call a b] <+: bodyOf cmd s.env.pulseOrder) : Along cmd (done ++ [.call a b]) (callDone s) := by
  have moved := callDone_command s cmd
  refine ⟨h.busy, h.command, h.ready, parts, ?_, h.latched.moved moved.toSequenceMoved, h.inRange.moved moved, ?_, ?_, ?_⟩
  · rw [callCount_append, ← h.calls]; rfl
  · obtain ⟨i, index⟩ := h.index
    exact ⟨i, by rw [bitcntAfter_append, ← index]; rfl⟩
  · rw [sampleCount_append]; exact h.samples
  · rw [sampleCount_append]; exact h.raw

/-- Further parts are performed. -/
theorem Along.performs {cmd : Command} {done ms : List Micro} {s t : State} (h : Along cmd done s)
    (performs : Performs ms s t) (parts : done ++ ms <+: bodyOf cmd s.env.pulseOrder) : Along cmd (done ++ ms) t := by
  have mem : ∀ m ∈ ms, m ∈ bodyOf cmd s.env.pulseOrder := fun m mem => parts.subset (List.mem_append_right _ mem)
  have moved : CommandMoved cmd s t := performs.command fun m hm => bodyOf_fits _ _ m (mem m hm)
  obtain ⟨-, -, -, -, configured, busy, command, -, -, order, -⟩ := moved.fields
  obtain ⟨i, index⟩ := h.index
  refine ⟨busy.trans h.busy, command.trans h.command, by rw [configured]; exact h.ready, by rw [order]; exact parts,
    by rw [performs.moved.2, h.calls, callCount_append], h.latched.moved moved.toSequenceMoved, h.inRange.moved moved,
    ⟨i, by rw [bitcntAfter_append, ← index, performs.bitcnt]⟩, ?_, ?_⟩
  · rintro rfl
    obtain ⟨before, vs, samples, count, accumulated⟩ := h.samples rfl
    obtain ⟨rest, whole⟩ := parts
    have ordered : readsInOrder ms s.bitcnt vs.length = true := by
      have all := readsInOrder_readByteBody i
      rw [show readByteBody = (done ++ ms) ++ rest from whole.symm, readsInOrder_append, readsInOrder_append,
        Bool.and_eq_true, Bool.and_eq_true, ← index, Nat.zero_add, ← count] at all
      exact all.1.2
    obtain ⟨ws, later, more, both⟩ := performs.accumulates vs ordered accumulated
    exact ⟨before, vs ++ ws, by rw [later, samples, List.append_assoc],
      by rw [List.length_append, count, more, sampleCount_append], both⟩
  · rintro rfl
    have noBit : .sampleBit ∉ ms := fun hm => by
      have own := bodyOf_fits .checkAck s.env.pulseOrder _ (mem _ hm)
      cases own
    rw [sampleCount_append]
    rcases performs.lastSample noBit with last | ⟨none, same, kept⟩
    · exact .inr last
    · rw [none, same, kept]
      exact h.raw rfl

end Sys2Proof.Machine

/-! PROOFS. 10_state.md section 2: the invariant, after reset and through every step. -/

namespace Sys2Proof.Machine

/-! ## The calls written out from the spec, from later states -/

/-- Behind one of its calls a sequence plans on from that call's pair and from `BITCNT` as it then is. -/
theorem plannedCalls_append_call (pre : List Micro) (a b : LineArg) (rest : List Micro) (ls : Lines) (shreg : Byte)
    (i : Nat) : ∃ done l, done.length = callCount pre
      ∧ plannedCalls (pre ++ .call a b :: rest) ls shreg i
          = done ++ l :: plannedCalls rest l shreg (bitcntAfter pre i) := by
  induction pre generalizing ls i with
  | nil => exact ⟨[], _, rfl, rfl⟩
  | cons m ms ih =>
    cases m with
    | call c d =>
      obtain ⟨done, l, count, plan⟩ := ih ⟨plannedBit c ls shreg i, plannedBit d ls shreg i⟩ i
      exact ⟨_ :: done, l, congrArg (· + 1) count, congrArg _ plan⟩
    | bitIndex j => exact ih ls j
    | sampleRaw | sampleBit | pulseIndex _ => exact ih ls i

theorem commandPairs_eq {cmd : Command} {s t : State} (order : t.env.pulseOrder = s.env.pulseOrder)
    (shreg : t.shreg = s.shreg) (ls : t.ls = s.ls) : commandPairs cmd t = commandPairs cmd s := by
  cases cmd <;> simp only [commandPairs, order, shreg, ls]

theorem sda_of_mem_readPairs {d : Bit} {l : Lines} (h : l ∈ readPairs d) : l.sda = d := by
  cases d
  · exact (by decide : ∀ l ∈ readPairs false, l.sda = false) l h
  · exact (by decide : ∀ l ∈ readPairs true, l.sda = true) l h

/-- A later state of a command, which holds in `LS` the pair of its call number `n`, has the same calls from there on. -/
theorem commandPairs_drop_eq {cmd : Command} {s t : State} {n : Nat} (order : t.env.pulseOrder = s.env.pulseOrder)
    (shreg : cmd = .writeByte → t.shreg = s.shreg) (here : (commandPairs cmd s)[n]? = some t.ls) :
    (commandPairs cmd t).drop n = (commandPairs cmd s).drop n := by
  cases cmd with
  | configure => simp only [commandPairs, order]
  | writeByte => simp only [commandPairs, shreg rfl]
  | checkAck => rfl
  | start | stop | sendAck | sendNack =>
    cases n with
    | zero => simp only [commandPairs, ackPairs, ← Option.some.inj here]
    | succ n => rfl
  | readByte => simp only [commandPairs, sda_of_mem_readPairs (List.mem_of_getElem? here)]
  | getSdaPin | getSclPin => rfl

/-- The pair a command ends at is that of its last call (10_state.md R23). -/
theorem endPair_of_last {cmd : Command} {s t : State} (last : (commandPairs cmd s).getLast? = some t.ls)
    (shreg : cmd = .writeByte → t.shreg = s.shreg) : EndPair cmd s.ls.sda t := by
  cases cmd with
  | configure => exact Option.some.inj (last.symm.trans (getLast_initPairs _))
  | writeByte =>
    rw [EndPair, shreg rfl]
    exact (Option.some.inj last).symm
  | getSdaPin | getSclPin => trivial
  | _ => exact (Option.some.inj last).symm

/-- The calls of a command from where it holds `l` keep SDA steady as SCL rises (70_reset_and_hazards.md R158). -/
theorem steadyRises_commandPairs (cmd : Command) (s : State) (l : Lines)
    (held : l = s.ls ∨ (cmd = .configure ∧ l = ⟨true, true⟩)) : SteadyRises (l :: commandPairs cmd s) := by
  have own : cmd ≠ .configure → l = s.ls := fun other => held.resolve_right fun h => other h.1
  cases cmd with
  | configure =>
    simp only [commandPairs]
    cases s.env.pulseOrder <;> simp [initPairs, SteadyRises, List.replicate]
  | start | stop =>
    obtain rfl := own (by decide)
    simp only [commandPairs, SteadyRises]
    cases s.ls.scl <;> simp
  | _ =>
    obtain rfl := own (by decide)
    simp [commandPairs, writePairs, readPairs, ackPairs, SteadyRises, List.replicate]

end Sys2Proof.Machine

/-! PROOFS. 10_state.md section 2: the invariant, after reset and through every step. -/

namespace Sys2Proof.Machine

/-! ## A free block -/

/-- The invariant where no command executes. -/
structure Idle (s : State) : Prop where
  free : s.busy = false
  upc : s.upc = ⟨none, 0, .idle⟩
  latched : s.configured = true → Latched s ∧ s.drv = s.ls
  released : s.configured = false → s.drv = ⟨true, true⟩
  inRange : InRange s

theorem Inv.latched_of_armed {s : State} (h : Inv s) (armed : Armed s) : Latched s :=
  ⟨h.speed armed, h.sdaMapped armed, h.sclMapped armed, h.distinct armed, h.calibrated armed⟩

theorem Inv.inRange {s : State} (h : Inv s) : InRange s := ⟨h.bitcnt, h.pulsecnt, h.openDrain⟩

theorem Inv.idle {s : State} (h : Inv s) (free : s.busy = false) : Idle s where
  free := free
  upc := h.rest free
  latched configured := ⟨h.latched_of_armed (.inl configured), h.latched ⟨free, configured⟩⟩
  released := h.released free
  inRange := h.inRange

theorem Idle.inv {s : State} (h : Idle s) : Inv s := by
  have executes : s.busy = true → False := fun busy => Bool.false_ne_true (h.free.symm.trans busy)
  have latched : Armed s → Latched s := fun armed => (h.latched (armed.resolve_right executes)).1
  exact {
    rest := fun _ => h.upc
    waits := fun busy => (executes busy).elim
    inCall := fun busy => (executes busy).elim
    lastCall := fun busy => (executes busy).elim
    steady := fun busy => (executes busy).elim
    writeIndex := fun busy => (executes busy).elim
    readIndex := fun busy => (executes busy).elim
    readSamples := fun busy => (executes busy).elim
    rawSample := fun busy => (executes busy).elim
    speed := fun armed => (latched armed).speed
    sdaMapped := fun armed => (latched armed).sdaMapped
    sclMapped := fun armed => (latched armed).sclMapped
    distinct := fun armed => (latched armed).distinct
    calibrated := fun armed => (latched armed).calibrated
    latched := fun ready => (h.latched ready.2).2
    released := fun _ => h.released
    bitcnt := h.inRange.bitcnt
    pulsecnt := h.inRange.pulsecnt
    openDrain := h.inRange.openDrain }

/-- A system reset leaves the platform's list of open-drain pins, and puts all else at its reset values. -/
theorem systemReset_idle {s : State} (openDrain : s.env.openDrain.Pairwise (· < ·)) : Idle (systemReset s) :=
  ⟨rfl, rfl, fun configured => by (cases configured), fun _ => rfl, (by decide : 0 < 8), (by decide : 0 < 28), openDrain⟩

/-- Settles O49: the reset state is free, and unconfigured with both lines released. -/
theorem resetMeetsInvariant : Obligations.ResetMeetsInvariant :=
  Idle.inv ⟨rfl, rfl, fun configured => by (cases configured), fun _ => rfl, by decide, by decide, .nil⟩

/-- Taking an input of the host changes nothing of it. -/
theorem Idle.taken {s : State} (h : Idle s) (rest : List HostInput) : Idle { s with env := { s.env with host := rest } } :=
  ⟨h.free, h.upc, fun configured => ⟨⟨(h.latched configured).1.speed, (h.latched configured).1.sdaMapped,
    (h.latched configured).1.sclMapped, (h.latched configured).1.distinct, (h.latched configured).1.calibrated⟩,
    (h.latched configured).2⟩, h.released, ⟨h.inRange.bitcnt, h.inRange.pulsecnt, h.inRange.openDrain⟩⟩

/-! ## A command in one of its calls -/

/-- The invariant where the command `cmd` waits in the call behind its parts `done`. -/
structure InProgress (cmd : Command) (done : List Micro) (a b : LineArg) (s : State) : Prop extends Along cmd done s where
  body : bodyOf cmd s.env.pulseOrder = done ++ .call a b :: restOfCommand s
  wait : InDelayWait s ∨ InStretchWait s
  here : (commandPairs cmd s)[s.upc.calls]? = some s.ls
  steady : SteadyRises (s.drv :: (pendingPairs s ++ remainingPairs cmd s))

section
variable {cmd : Command} {done : List Micro} {a b : LineArg} {s : State}

theorem InProgress.within (h : InProgress cmd done a b s) :
    s.upc.calls < callCount (bodyOf cmd s.env.pulseOrder) := by
  rw [h.body, h.calls, callCount_append]
  exact Nat.lt_add_of_pos_right (Nat.succ_pos _)

/-- The parts performed are those before the call in progress. -/
theorem InProgress.done_eq (h : InProgress cmd done a b s) :
    takeCalls s.upc.calls (bodyOf cmd s.env.pulseOrder) = done := (h.toAlong.callsLeft_eq h.body).1

theorem InProgress.sampleCount_eq (h : InProgress cmd done a b s) : sampleCount done = samplesTaken cmd s.upc.calls := by
  rw [samplesTaken_eq cmd _ _ h.within, h.done_eq]

theorem InProgress.lastCall (h : InProgress cmd done a b s)
    (last : s.upc.calls + 1 = callCount (bodyOf cmd s.env.pulseOrder)) : EndPair cmd s.ls.sda s := by
  refine endPair_of_last (s := s) ?_ fun _ => rfl
  rw [List.getLast?_eq_getElem?, length_commandPairs, ← last]
  exact h.here

theorem InProgress.writeIndex (h : InProgress .writeByte done a b s) : s.bitcnt = 7 - s.upc.calls / 2 := by
  obtain ⟨i, index⟩ := h.index
  rw [index, ← h.done_eq]
  exact bitcntAfter_writeByteBody _ h.within i

theorem InProgress.readIndex (h : InProgress .readByte done a b s) : s.bitcnt = min 7 (s.upc.calls / 2) := by
  obtain ⟨i, index⟩ := h.index
  rw [index, ← h.done_eq]
  exact bitcntAfter_readByteBody _ h.within i

theorem InProgress.inv (h : InProgress cmd done a b s) : Inv s := by
  have free : s.busy ≠ false := by rw [h.busy]; decide
  have own : ∀ c, s.upc.cmd = some c → c = cmd := fun c hc => Option.some.inj (hc.symm.trans h.command)
  exact {
    rest := fun idle => (free idle).elim
    waits := fun _ => ⟨cmd, ⟨h.busy, h.command, h.within, h.wait⟩, h.ready⟩
    inCall := fun _ c hc => own c hc ▸ h.here
    lastCall := fun _ c hc => by rw [own c hc]; exact h.lastCall
    steady := fun _ c hc => own c hc ▸ h.steady
    writeIndex := fun _ hc => by obtain rfl := own _ hc; exact h.writeIndex
    readIndex := fun _ hc => by obtain rfl := own _ hc; exact h.readIndex
    readSamples := fun _ hc => by
      obtain rfl := own _ hc
      rw [← h.sampleCount_eq]
      exact h.samples rfl
    rawSample := fun _ hc taken => by
      obtain rfl := own _ hc
      exact (h.raw rfl).resolve_left (by rw [h.sampleCount_eq, taken]; decide)
    speed := fun _ => h.latched.speed
    sdaMapped := fun _ => h.latched.sdaMapped
    sclMapped := fun _ => h.latched.sclMapped
    distinct := fun _ => h.latched.distinct
    calibrated := fun _ => h.latched.calibrated
    latched := fun ready => (free ready.1).elim
    released := fun idle => (free idle).elim
    bitcnt := h.inRange.bitcnt
    pulsecnt := h.inRange.pulsecnt
    openDrain := h.inRange.openDrain }

/-- A state that meets the invariant and waits is in progress. -/
theorem Inv.inProgress (h : Inv s) (waits : WaitsIn cmd s) : ∃ done a b, InProgress cmd done a b s := by
  obtain ⟨busy, command, within, wait⟩ := waits
  obtain ⟨a, b, body⟩ := exists_call within
  have count := callCount_takeCalls within
  have left : dropCalls (s.upc.calls + 1) (bodyOf cmd s.env.pulseOrder) = restOfCommand s := by
    rw [restOfCommand, command]
  rw [left] at body
  obtain ⟨cmd', ⟨-, command', -⟩, ready⟩ := h.waits busy
  obtain rfl := Option.some.inj (command'.symm.trans command)
  have taken := samplesTaken_eq cmd' s.env.pulseOrder s.upc.calls within
  refine ⟨takeCalls s.upc.calls (bodyOf cmd' s.env.pulseOrder), a, b,
    ⟨busy, command, ready, ⟨_, body.symm⟩, count.symm, h.latched_of_armed (.inr busy), h.inRange, ?_, ?_, ?_⟩, body, wait,
    h.inCall busy _ command, h.steady busy _ command⟩
  · by_cases byte : cmd' = .readByte ∨ cmd' = .writeByte
    · rcases byte with rfl | rfl
      · exact ⟨0, (h.readIndex busy command).trans (bitcntAfter_readByteBody _ within 0).symm⟩
      · exact ⟨0, (h.writeIndex busy command).trans (bitcntAfter_writeByteBody _ within 0).symm⟩
    · refine ⟨s.bitcnt, (bitcntAfter_of_fits (fun m mem => bodyOf_fits cmd' s.env.pulseOrder m ?_) byte _).symm⟩
      rw [body]
      exact List.mem_append_left _ mem
  · rintro rfl
    rw [← taken]
    exact h.readSamples busy command
  · rintro rfl
    rw [← taken]
    by_cases sampled : samplesTaken .checkAck s.upc.calls = 1
    · exact .inr (h.rawSample busy command sampled)
    · exact .inl (if_neg fun third => sampled (if_pos third))
end

end Sys2Proof.Machine

/-! PROOFS. 10_state.md section 2: every step keeps the invariant. -/

namespace Sys2Proof.Machine

theorem samplesOf_eq_append {s t : State} (h : s.hist <+: t.hist) :
    samplesOf t.hist = samplesOf s.hist ++ samplesBetween s t := by
  obtain ⟨es, he⟩ := h
  rw [samplesBetween, eventsBetween_of_hist he.symm, ← he, samplesOf_append]
  rfl

/-! ## Between two calls -/

/-- The command `cmd` stands behind its parts `done`, with a part to come or at its end. -/
structure Between (cmd : Command) (done : List Micro) (s : State) : Prop extends Along cmd done s where
  body : bodyOf cmd s.env.pulseOrder = done ++ callsLeft s
  plan : plannedLeft s = (commandPairs cmd s).drop s.upc.calls
  steady : SteadyRises (s.drv :: plannedLeft s)
  settled : plannedLeft s = [] → s.drv = s.ls

section
variable {cmd : Command} {done : List Micro} {x t : State}

/-- The rest of the plan, where a run from there waits: what is driven, what is pending, what is still to come. -/
theorem RunWaits.plan (h : RunWaits cmd x t) (between : Between cmd done x) :
    (commandPairs cmd t)[t.upc.calls]? = some t.ls
      ∧ plannedLeft x = drivenBetween x t ++ (pendingPairs t ++ remainingPairs cmd t) := by
  obtain ⟨-, -, -, -, -, -, -, -, -, order, -⟩ := h.moved.fields
  have count := h.count
  have nonempty : callsBetween x t ≠ [] := fun none => by
    have here := h.here
    rw [none] at here
    cases here
  have positive := List.length_pos_iff.mpr nonempty
  obtain ⟨rest, whole⟩ := h.made
  have position : x.upc.calls + ((callsBetween x t).length - 1) = t.upc.calls := by omega
  have here : (commandPairs cmd x)[t.upc.calls]? = some t.ls := by
    rw [← position, ← List.getElem?_drop, ← between.plan, ← whole, List.getElem?_append_left (by omega),
      ← List.getLast?_eq_getElem?]
    exact h.here
  have same : (commandPairs cmd t).drop t.upc.calls = (commandPairs cmd x).drop t.upc.calls :=
    commandPairs_drop_eq order (fun write => h.moved.shreg (by rw [write]; decide)) here
  have remaining : remainingPairs cmd t = rest := by
    rw [remainingPairs, ← List.drop_drop, same, List.drop_drop, h.count, ← List.drop_drop, ← between.plan, ← whole,
      List.drop_left]
  refine ⟨?_, by rw [remaining, ← List.append_assoc, h.driven, whole]⟩
  rw [← Nat.add_zero t.upc.calls, ← List.getElem?_drop, same, List.getElem?_drop]
  exact here

/-- Where a run from there waits, the command is in progress. -/
theorem RunWaits.inProgress (h : RunWaits cmd x t) (between : Between cmd done x) :
    ∃ done' a b, InProgress cmd done' a b t := by
  obtain ⟨here, plan⟩ := h.plan between
  have steady := between.steady
  rw [plan] at steady
  obtain ⟨pre, a, b, w, left, performs, begun⟩ := h.amid
  have whole : bodyOf cmd x.env.pulseOrder = (done ++ pre) ++ .call a b :: restOfCommand t := by
    rw [between.body, left, List.append_assoc]
  have along := (between.toAlong.performs performs ⟨_, whole.symm⟩).framed begun.frame begun.sampled
  obtain ⟨-, -, -, -, -, -, -, -, -, order, -⟩ := h.moved.fields
  exact ⟨done ++ pre, a, b, along, by rw [order]; exact whole, h.wait, here, h.drv ▸ steady.append_right⟩

theorem RunDone.along (h : RunDone cmd x t) (between : Between cmd done x) :
    Along cmd (bodyOf cmd x.env.pulseOrder) t := by
  rw [between.body]
  exact between.toAlong.performs h.performs ⟨[], by rw [List.append_nil, between.body]⟩

theorem RunDone.settled (h : RunDone cmd x t) (between : Between cmd done x) : t.drv = t.ls := by
  rw [h.drv, h.ls]
  cases last : (plannedLeft x).getLast? with
  | none => exact between.settled (List.getLast?_eq_none_iff.mp last)
  | some l => rfl

theorem Along.complete_configured (h : Along cmd done x) : (complete x).configured = true := by
  show configuredAfter x.upc.cmd x.configured = true
  rw [h.command]
  rcases h.ready with configured | rfl
  · simp [configuredAfter, configured]
  · simp [configuredAfter]

/-- A command that completes leaves a free block. -/
theorem Along.complete_idle (h : Along cmd done x) (settled : x.drv = x.ls) : Idle (complete x) where
  free := rfl
  upc := rfl
  latched _ := ⟨⟨h.latched.speed, h.latched.sdaMapped, h.latched.sclMapped, h.latched.distinct, h.latched.calibrated⟩,
    settled⟩
  released unconfigured := absurd (unconfigured.symm.trans h.complete_configured) (by decide)
  inRange := ⟨h.inRange.bitcnt, h.inRange.pulsecnt, h.inRange.openDrain⟩

theorem RunEnds.inv (h : RunEnds cmd x t) (between : Between cmd done x) : Inv t := by
  rcases h with ⟨w, done, rfl⟩ | waits
  · exact ((done.along between).complete_idle (done.settled between)).inv
  · obtain ⟨done', a, b, progress⟩ := waits.inProgress between
    exact progress.inv

/-- What a run drives is the first of its plan. -/
theorem RunEnds.driven_prefix (h : RunEnds cmd x t) : drivenBetween x t <+: plannedLeft x := by
  rcases h with ⟨w, done, rfl⟩ | waits
  · exact ⟨[], by rw [List.append_nil, ← done.driven]; rfl⟩
  · exact (List.prefix_append _ _).trans (waits.driven ▸ waits.made)
end

/-! ## Going on with a call -/

section
variable {cmd : Command} {done : List Micro} {a b : LineArg} {s t v : State}

/-- The calls behind the one in progress, planned from the state it waits in. -/
theorem InProgress.plan (h : InProgress cmd done a b s) :
    plannedCalls (restOfCommand s) s.ls s.shreg s.bitcnt = remainingPairs cmd s := by
  obtain ⟨i, index⟩ := h.index
  obtain ⟨before, l, count, plan⟩ := plannedCalls_append_call done a b (restOfCommand s) s.ls s.shreg i
  rw [← h.body, plannedCalls_bodyOf, ← index] at plan
  have position : before.length = s.upc.calls := by rw [count, h.calls]
  have here := h.here
  rw [plan, ← position, List.getElem?_append_right le_rfl, Nat.sub_self] at here
  obtain rfl : l = s.ls := Option.some.inj here
  rw [remainingPairs, plan, ← position, ← List.drop_drop, List.drop_left]
  rfl

/-- The call in progress ends in `v`: its pair is applied. -/
structure CallEnds (s v : State) : Prop where
  frame : CallFrame s v
  ls : v.ls = s.ls
  drv : v.drv = s.ls
  unsampled : samplesBetween s v = []
  uncalled : callsBetween s v = []
  driven : drivenBetween s v = pendingPairs s

/-- The call in progress waits on in `t`. -/
structure CallWaitsOn (s t : State) : Prop where
  frame : CallFrame s t
  ls : t.ls = s.ls
  wait : InDelayWait t ∨ InStretchWait t
  unsampled : samplesBetween s t = []
  uncalled : callsBetween s t = []
  driven : drivenBetween s t ++ pendingPairs t = pendingPairs s
  drv : t.drv = (drivenBetween s t).getLast?.getD s.drv

/-- The two ways a step on a waiting command begins. -/
theorem InProgress.resume_next (h : InProgress cmd done a b s) (next : resume s = .next t) :
    (∃ v, CallEnds s v ∧ RunEnds cmd (callDone v) t) ∨ CallWaitsOn s t := by
  obtain ⟨v, frame, ls, events, ends⟩ := resumeCall_spec s h.wait
  have driven := events.driven
  rcases ends with ⟨run, drv, applied, -⟩ | ⟨run, wait⟩
  · rw [pendingPairs_of_ne applied, List.append_nil] at driven
    refine .inl ⟨v, ⟨frame, ls, drv, events.sampled, events.requested, driven⟩, ?_⟩
    have left : callsLeft (callDone v) = restOfCommand s := frame.restOfCommand_eq
    obtain ⟨-, -, -, -, -, -, command, -⟩ := frame.fields
    rw [resume, run] at next
    exact runEnds (command.trans h.command) (by rw [left]; exact next)
  · cases (resume_of_waiting run).symm.trans next
    have levels := resumeCall_levels s
    rw [run] at levels
    exact .inr ⟨frame, ls, wait.imp_left And.left, events.sampled, events.requested, driven, levels.drv⟩

theorem CallWaitsOn.inProgress (k : CallWaitsOn s t) (h : InProgress cmd done a b s) : InProgress cmd done a b t := by
  obtain ⟨-, -, -, -, -, -, -, calls, -, shreg, -⟩ := k.frame.fields
  obtain ⟨-, -, -, -, -, -, -, -, -, order, -⟩ := k.frame.sequence.fields
  have same : commandPairs cmd t = commandPairs cmd s := commandPairs_eq order shreg k.ls
  have sampled : samplesOf t.hist = samplesOf s.hist := by
    rw [samplesOf_eq_append k.frame.moved.hist, k.unsampled, List.append_nil]
  have steady := h.steady
  rw [← k.driven, List.append_assoc] at steady
  refine ⟨h.toAlong.framed k.frame sampled, ?_, k.wait, by rw [same, calls, k.ls]; exact h.here, ?_⟩
  · rw [order, k.frame.restOfCommand_eq]; exact h.body
  · rw [remainingPairs, same, calls, k.drv]
    exact steady.append_right

theorem CallEnds.plan (k : CallEnds s v) (h : InProgress cmd done a b s) :
    plannedLeft (callDone v) = remainingPairs cmd s := by
  obtain ⟨-, -, -, -, -, -, -, -, -, shreg, bitcnt, -⟩ := k.frame.fields
  rw [← h.plan, ← k.frame.restOfCommand_eq, ← k.ls, ← shreg, ← bitcnt]
  rfl

theorem CallEnds.between (k : CallEnds s v) (h : InProgress cmd done a b s) :
    Between cmd (done ++ [.call a b]) (callDone v) := by
  obtain ⟨-, -, -, -, -, -, -, calls, -, shreg, -⟩ := k.frame.fields
  obtain ⟨-, -, -, -, -, -, -, -, -, order, -⟩ := k.frame.sequence.fields
  have sampled : samplesOf v.hist = samplesOf s.hist := by
    rw [samplesOf_eq_append k.frame.moved.hist, k.unsampled, List.append_nil]
  have left : callsLeft (callDone v) = restOfCommand s := k.frame.restOfCommand_eq
  have body : bodyOf cmd v.env.pulseOrder = (done ++ [.call a b]) ++ restOfCommand s := by
    rw [order, h.body, List.append_assoc]; rfl
  have applied : (pendingPairs s).getLast?.getD s.drv = v.drv := by
    rw [k.drv, pendingPairs]
    split
    case isTrue => rfl
    case isFalse other =>
      rcases h.wait with delay | stretch
      · exact absurd delay.1 other
      · exact stretch.2.2.1
  refine ⟨(h.toAlong.framed k.frame sampled).called ⟨_, body.symm⟩, by rw [left]; exact body, ?_, ?_, fun _ => ?_⟩
  · rw [k.plan h, commandPairs_eq (s := s) (t := callDone v) order shreg k.ls]
    exact congrArg (fun n => (commandPairs cmd s).drop (n + 1)) calls.symm
  · rw [k.plan h]
    show SteadyRises (v.drv :: _)
    rw [← applied]
    exact h.steady.append_right
  · exact k.drv.trans k.ls.symm
end

/-- A step on a waiting command keeps the invariant. -/
theorem InProgress.resume_inv {cmd : Command} {done : List Micro} {a b : LineArg} {s t : State}
    (h : InProgress cmd done a b s) (next : resume s = .next t) : Inv t := by
  rcases h.resume_next next with ⟨v, ended, ends⟩ | waits
  · exact ends.inv (ended.between h)
  · exact (waits.inProgress h).inv

/-! ## The entry of a command -/

/-- A block that enters a command holds both lines released, or the pair last applied. -/
theorem Enters.drv_eq {i : Instr} {s u : State} (h : Enters i s u) (idle : Idle s) : u.drv = s.drv := by
  cases h with
  | configure free _ _ _ entry =>
    obtain ⟨-, env, bus, rfl, -⟩ := configureEntry_eq entry
    cases configured : s.configured with
    | false => exact (idle.released configured).symm
    | true => exact ((idle.latched configured).2.trans (free configured)).symm
  | start _ entry =>
    rw [recalibrate_eq] at entry
    split at entry <;> cases entry
    rfl
  | _ => rfl

/-- Every command but CONFIGURE runs under the configuration latched before it. -/
theorem Enters.ready {i : Instr} {s u : State} (h : Enters i s u) :
    s.configured = true ∨ commandOf i = .configure := by
  cases h with
  | configure => exact .inr rfl
  | start ready _ => exact .inl ready
  | stop ready | writeByte ready | readByte ready | sendAck ready | sendNack ready | checkAck ready | getSdaPin ready
  | getSclPin ready => exact .inl ready

theorem calibrated_of_delay {u : State} {freq : Nat}
    (delay : u.delay = BitVec.ofNat Config.counterWidth (calibrate u.cfg.speedHz.toNat freq))
    (frequency : u.env.cpuFreq = freq) (fits : calibrate u.cfg.speedHz.toNat freq < 2 ^ 32) :
    u.delay.toNat = calibrate u.cfg.speedHz.toNat u.env.cpuFreq := by
  rw [delay, frequency]
  exact toNat_delay fits

theorem Enters.latched {i : Instr} {s u : State} (h : Enters i s u) (idle : Idle s) : Latched u ∧ InRange u := by
  cases h with
  | configure _ mappedSda mappedScl distinct entry =>
    obtain ⟨fits, env, bus, rfl, same⟩ := configureEntry_eq entry
    have table : env.pinMap = s.env.pinMap := by rw [same]
    have frequency : env.cpuFreq = s.env.nextFreq.cpuFreq := by rw [same]
    refine ⟨⟨?_, ?_, ?_, distinct, ?_⟩, idle.inRange.bitcnt, idle.inRange.pulsecnt, ?_⟩
    · exact (Nat.le_max_right _ _).trans (clampSpeed_toNat _).ge
    · rw [pinMap, table]; exact mappedSda
    · rw [pinMap, table]; exact mappedScl
    · exact calibrated_of_delay rfl frequency fits
    · rw [same]
      exact (insertGpio_pairwise _ _ (insertGpio_pairwise _ _ idle.inRange.openDrain).1).1
  | start ready entry =>
    obtain ⟨latched, -⟩ := idle.latched ready
    rw [recalibrate_eq] at entry
    split at entry <;> cases entry
    next fits =>
    exact ⟨latched.recalibrated rfl rfl rfl rfl (calibrated_of_delay rfl rfl fits),
      idle.inRange.bitcnt, idle.inRange.pulsecnt, idle.inRange.openDrain⟩
  | stop ready | writeByte ready | readByte ready | sendAck ready | sendNack ready | checkAck ready | getSdaPin ready
  | getSclPin ready =>
    obtain ⟨latched, -⟩ := idle.latched ready
    exact ⟨⟨latched.speed, latched.sdaMapped, latched.sclMapped, latched.distinct, latched.calibrated⟩,
      idle.inRange.bitcnt, idle.inRange.pulsecnt, idle.inRange.openDrain⟩

theorem Enters.between {i : Instr} {s u : State} (h : Enters i s u) (idle : Idle s) : Between (commandOf i) [] u := by
  obtain ⟨⟨busy, command, uncalled, configured, ls, -⟩, -⟩ := h.accepted
  have left := callsLeft_of_uncalled command uncalled
  have planned : plannedLeft u = commandPairs (commandOf i) u := by rw [plannedLeft, left, plannedCalls_bodyOf]
  obtain ⟨latched, inRange⟩ := h.latched idle
  have held : u.drv = u.ls ∨ (commandOf i = .configure ∧ u.drv = ⟨true, true⟩) := by
    cases set : s.configured with
    | true => exact .inl (by rw [h.drv_eq idle, ls, (idle.latched set).2])
    | false => exact .inr ⟨h.ready.resolve_left (by simp [set]), by rw [h.drv_eq idle, idle.released set]⟩
  refine ⟨⟨busy, command, by rw [configured]; exact h.ready, List.nil_prefix, uncalled, latched, inRange,
    ⟨u.bitcnt, rfl⟩, fun read => ?_, fun _ => .inl rfl⟩, left.symm, by rw [planned, uncalled, List.drop_zero], ?_, ?_⟩
  · refine ⟨samplesOf u.hist, [], (List.append_nil _).symm, rfl, ?_⟩
    cases h with
    | readByte => exact accumulated_nil
    | _ => cases read
  · rw [planned]
    exact steadyRises_commandPairs _ u _ held
  · intro none
    refine held.resolve_right fun ⟨command', _⟩ => ?_
    rw [planned, command'] at none
    have counted := congrArg List.length none
    rw [length_commandPairs] at counted
    cases order : u.env.pulseOrder <;> rw [order] at counted <;> cases counted

/-! ## Every step -/

/-- Settles O50: a reset and a completion leave a free block, and what runs on leaves its command in progress. -/
theorem stepKeepsInvariant : Obligations.StepKeepsInvariant := by
  intro s t inv next
  rcases step_next next with ⟨rest, -, rfl⟩ | ⟨w, i, rest, free, -, -, run⟩ | ⟨busy, -, run⟩ | ⟨-, -, rfl⟩
  · exact Idle.inv (systemReset_idle (s := { s with env := { s.env with host := rest } }) inv.openDrain)
  · have idle := (inv.idle free).taken rest
    obtain ⟨-, u, entered, run⟩ := exec_next run
    obtain ⟨⟨-, command, uncalled, -⟩, -⟩ := entered.accepted
    rw [runCommand, ← callsLeft_of_uncalled command uncalled] at run
    exact (runEnds command run).inv (entered.between idle)
  · obtain ⟨cmd, waits, -⟩ := inv.waits busy
    obtain ⟨done, a, b, progress⟩ := inv.inProgress waits
    exact progress.resume_inv run
  · exact inv

end Sys2Proof.Machine

/-! PROOFS. 70_reset_and_hazards.md R158 and 30_encoding.md R59: what each step drives, and what a step on a waiting command
does. -/

namespace Sys2Proof.Machine

/-! ## Rises of SCL in a step -/

/-- The first of what is to come. -/
theorem SteadyRises.of_prefix {d : Lines} {ps qs : List Lines} (h : SteadyRises (d :: qs)) (k : ps <+: qs) :
    SteadyRises (d :: ps) := by
  obtain ⟨rest, rfl⟩ := k
  exact h.append_left

/-- The entry of a command drives the pair held before it again, or nothing. -/
theorem Enters.steadyRises {i : Instr} {s u : State} {ps : List Lines} (h : Enters i s u) (idle : Idle s)
    (onward : SteadyRises (u.drv :: ps)) : SteadyRises (s.drv :: (entryPairs i ++ ps)) := by
  rw [← h.drv_eq idle]
  cases h with
  | configure _ _ _ _ entry =>
    obtain ⟨-, env, bus, rfl, -⟩ := configureEntry_eq entry
    exact ⟨fun _ _ => rfl, onward⟩
  | _ => exact onward

theorem InProgress.resume_steadyRises {cmd : Command} {done : List Micro} {a b : LineArg} {s t : State}
    (h : InProgress cmd done a b s) (next : resume s = .next t) : SteadyRises (s.drv :: drivenBetween s t) := by
  rcases h.resume_next next with ⟨v, ended, ends⟩ | waits
  · have grown : v.hist <+: t.hist := ends.grown
    rw [drivenBetween_append ended.frame.moved.hist grown, ended.driven]
    refine h.steady.of_prefix ((List.prefix_append_right_inj _).mpr ?_)
    rw [← ended.plan h]
    exact ends.driven_prefix
  · refine h.steady.of_prefix ?_
    rw [← waits.driven, List.append_assoc]
    exact List.prefix_append _ _

theorem steadyRises_of_same_hist {s t : State} (h : t.hist = s.hist) : SteadyRises (s.drv :: drivenBetween s t) := by
  rw [(between_of_same_hist h).2.2]
  trivial

/-- Settles O55: a step drives the first of the pairs its command has to drive, which are steady from the pair held. -/
theorem sdaSteadyAsSclRises : Obligations.SdaSteadyAsSclRises := by
  intro s t inv next
  rcases step_next next with ⟨rest, -, rfl⟩ | ⟨w, i, rest, free, -, -, run⟩ | ⟨busy, -, run⟩ | ⟨-, -, rfl⟩
  · exact steadyRises_of_same_hist rfl
  · have idle := (inv.idle free).taken rest
    obtain ⟨-, u, entered, run⟩ := exec_next run
    obtain ⟨⟨-, command, uncalled, -⟩, since⟩ := entered.accepted
    rw [runCommand, ← callsLeft_of_uncalled command uncalled] at run
    have ends := runEnds command run
    have steady := entered.steadyRises idle ((entered.between idle).steady.of_prefix ends.driven_prefix)
    rw [← entered.recorded.2.2, ← drivenBetween_append since.hist ends.grown] at steady
    exact steady
  · obtain ⟨cmd, waits, -⟩ := inv.waits busy
    obtain ⟨done, a, b, progress⟩ := inv.inProgress waits
    exact progress.resume_steadyRises run
  · exact steadyRises_of_same_hist rfl

/-! ## A step on a waiting command -/

theorem samplesTaken_all (cmd : Command) (order : PulseOrder) :
    samplesTaken cmd (callCount (bodyOf cmd order)) = sampleCount (bodyOf cmd order) := by
  cases cmd with
  | configure => cases order <;> rfl
  | readByte => show 17 / 2 = 8; rfl
  | _ => rfl

section
variable {cmd : Command} {done : List Micro} {a b : LineArg} {s v w t : State}

theorem CallEnds.moved (k : CallEnds s v) (cmd : Command) : CommandMoved cmd s (callDone v) :=
  (k.frame.command cmd).trans (callDone_command v cmd)

/-- The records of a step whose call in progress ends. -/
theorem CallEnds.between_append (k : CallEnds s v) (grown : v.hist <+: t.hist) :
    drivenBetween s t = pendingPairs s ++ drivenBetween (callDone v) t
      ∧ callsBetween s t = callsBetween (callDone v) t ∧ samplesBetween s t = samplesBetween (callDone v) t := by
  have since := k.frame.moved.hist
  rw [drivenBetween_append since grown, callsBetween_append since grown, samplesBetween_append since grown, k.driven,
    k.uncalled, k.unsampled]
  exact ⟨rfl, rfl, rfl⟩

/-- What a step that completes a waiting command does. -/
theorem InProgress.step_done (h : InProgress cmd done a b s) (k : CallEnds s v) (ends : RunDone cmd (callDone v) w) :
    WaitFrame cmd s (complete w)
    ∧ drivenBetween s (complete w) ++ pendingPairs (complete w) = pendingPairs s ++ callsBetween s (complete w)
    ∧ AtRest (complete w) ∧ callsBetween s (complete w) = remainingPairs cmd s ∧ EndPair cmd s.ls.sda (complete w)
    ∧ (complete w).drv = (complete w).ls ∧ (complete w).configured = true
    ∧ samplesTaken cmd s.upc.calls + (samplesBetween s (complete w)).length
        = samplesTaken cmd (callCount (bodyOf cmd s.env.pulseOrder)) := by
  have between := k.between h
  have moved := (k.moved cmd).trans ends.moved
  obtain ⟨driven, called, sampled⟩ := k.between_append (t := complete w) ends.moved.moved.hist
  have calls : callsBetween s (complete w) = remainingPairs cmd s := called.trans (ends.calls.trans (k.plan h))
  obtain ⟨vs, samples, count⟩ := ends.performs.samples
  have taken : samplesBetween (callDone v) (complete w) = vs := samplesBetween_eq (t := w) ends.moved.moved.hist samples
  have last : (commandPairs cmd s).getLast? = some (complete w).ls := by
    have ended : w.ls = (commandPairs cmd s).getLast?.getD s.ls := by
      rw [ends.ls, k.plan h, ← getLast?_drop_getD h.here]
      exact congrArg _ k.ls
    cases nonempty : (commandPairs cmd s).getLast? with
    | none =>
      have here := h.here
      rw [List.getLast?_eq_none_iff.mp nonempty] at here
      cases here
    | some l =>
      rw [nonempty] at ended
      exact congrArg _ ended.symm
  refine ⟨moved.waitFrame_complete h.command, ?_, ⟨rfl, rfl⟩, calls,
    endPair_of_last last fun write => moved.shreg (by rw [write]; decide), ends.settled between,
    (ends.along between).complete_configured, ?_⟩
  · rw [driven, called, pendingPairs_of_ne (s := complete w) (by decide : Phase.idle ≠ .waitPoll), List.append_nil]
    exact congrArg _ (ends.driven.trans ends.calls.symm)
  · have left : callsLeft (callDone v) = restOfCommand s := k.frame.restOfCommand_eq
    rw [samplesTaken_all, h.body, ← h.sampleCount_eq, sampled, taken, count, sampleCount_append, left]
    rfl

/-- What a step does that leaves a waiting command waiting in a later call. -/
theorem InProgress.step_waits (h : InProgress cmd done a b s) (k : CallEnds s v) (ends : RunWaits cmd (callDone v) t) :
    WaitFrame cmd s t ∧ drivenBetween s t ++ pendingPairs t = pendingPairs s ++ callsBetween s t
    ∧ WaitsIn cmd t ∧ callsBetween s t <+: remainingPairs cmd s
    ∧ t.upc.calls = s.upc.calls + (callsBetween s t).length ∧ t.resp = s.resp ∧ t.configured = s.configured
    ∧ samplesTaken cmd s.upc.calls + (samplesBetween s t).length = samplesTaken cmd t.upc.calls := by
  have between := k.between h
  have moved := (k.moved cmd).trans ends.moved
  obtain ⟨driven, called, sampled⟩ := k.between_append ends.moved.moved.hist
  obtain ⟨-, -, -, -, configured, -, -, resp, -⟩ := moved.fields
  obtain ⟨-, -, -, -, -, -, -, calls, -⟩ := k.frame.fields
  obtain ⟨done', a', b', progress⟩ := ends.inProgress between
  refine ⟨moved.waitFrame, ?_, ⟨progress.busy, progress.command, progress.within, progress.wait⟩, ?_, ?_, resp, configured,
    ?_⟩
  · rw [driven, called, List.append_assoc, ends.driven]
  · rw [called, ← k.plan h]
    exact ends.made
  · have count := ends.count
    rw [called]
    simp only [callDone_fields] at count
    omega
  · rw [sampled, ← (ends.sampled between.body between.calls).1, ← h.sampleCount_eq, sampleCount_append]
    rfl

/-- What a step does that leaves the call in progress waiting. -/
theorem InProgress.step_waitsOn (h : InProgress cmd done a b s) (k : CallWaitsOn s t) :
    WaitFrame cmd s t ∧ drivenBetween s t ++ pendingPairs t = pendingPairs s ++ callsBetween s t
    ∧ WaitsIn cmd t ∧ callsBetween s t <+: remainingPairs cmd s
    ∧ t.upc.calls = s.upc.calls + (callsBetween s t).length ∧ t.resp = s.resp ∧ t.configured = s.configured
    ∧ samplesTaken cmd s.upc.calls + (samplesBetween s t).length = samplesTaken cmd t.upc.calls := by
  have progress := k.inProgress h
  obtain ⟨-, -, -, -, configured, -, -, calls, resp, -⟩ := k.frame.fields
  rw [k.uncalled, k.unsampled, calls]
  exact ⟨(k.frame.command cmd).waitFrame, by rw [k.driven, List.append_nil],
    ⟨progress.busy, progress.command, progress.within, progress.wait⟩, List.nil_prefix, rfl, resp, configured, rfl⟩
end

/-- Settles O27: the call in progress ends and the rest runs, to the command's end or to another wait, or it waits on. -/
theorem resumedCommandMakesRemainingCalls : Obligations.ResumedCommandMakesRemainingCalls := by
  intro cmd s t inv waits noReset next
  rw [step_busy waits.1 noReset] at next
  obtain ⟨done, a, b, progress⟩ := inv.inProgress waits
  rcases progress.resume_next next with ⟨v, ended, ⟨w, ends, rfl⟩ | ends⟩ | on
  · obtain ⟨frame, driven, over'⟩ := progress.step_done ended ends
    exact ⟨frame, driven, .inl over'⟩
  · obtain ⟨frame, driven, waiting⟩ := progress.step_waits ended ends
    exact ⟨frame, driven, .inr waiting⟩
  · obtain ⟨frame, driven, waiting⟩ := progress.step_waitsOn on
    exact ⟨frame, driven, .inr waiting⟩

/-- A step that ends a waiting command has performed all its parts, in whichever steps. -/
theorem Inv.completes {cmd : Command} {s t : State} (inv : Inv s) (waits : WaitsIn cmd s) (noReset : NoReset s)
    (next : step s = .next t) (free : t.busy = false) :
    ∃ w, Along cmd (bodyOf cmd s.env.pulseOrder) w ∧ t = complete w
      ∧ (complete w).resp = responseOf (some cmd) (complete w) := by
  rw [step_busy waits.1 noReset] at next
  obtain ⟨done, a, b, progress⟩ := inv.inProgress waits
  rcases progress.resume_next next with ⟨v, ended, ⟨w, ends, rfl⟩ | ends⟩ | on
  · have between := ended.between progress
    have along := ends.along between
    obtain ⟨-, -, -, -, -, -, -, -, -, order, -⟩ := ended.frame.sequence.fields
    rw [show (callDone v).env.pulseOrder = s.env.pulseOrder from order] at along
    exact ⟨w, along, rfl, ends.resp between.command⟩
  · obtain ⟨-, -, -, -, -, busy, -⟩ := ends.moved.fields
    exact absurd (free.symm.trans (busy.trans (ended.between progress).busy)) (by decide)
  · exact absurd (free.symm.trans (on.inProgress progress).busy) (by decide)

/-- Settles O28: the samples accumulate in `SHREG` and stand in `RAW` through every wait, and the response is read from
them. -/
theorem waitedSamplesReachTheResponse : Obligations.WaitedSamplesReachTheResponse := by
  intro s t inv noReset next free
  constructor
  · intro waits
    obtain ⟨w, along, rfl, resp⟩ := inv.completes waits noReset next free
    obtain ⟨before, vs, samples, count, accumulated⟩ := along.samples rfl
    rw [resp]
    exact ⟨before, vs, samples, count, accumulated.response count⟩
  · intro waits
    obtain ⟨w, along, rfl, resp⟩ := inv.completes waits noReset next free
    have last : (samplesOf w.hist).getLast? = some w.raw := 
      (along.raw rfl).resolve_left (by decide : sampleCount receiveAckBitBody ≠ 0)
    have answer : (complete w).resp = ackValue w.raw := resp
    refine ⟨last, fun ack => ?_, fun nack => ?_⟩
    · rw [answer, show w.raw = false from ack]; rfl
    · rw [answer, show w.raw = true from nack]; rfl

end Sys2Proof.Machine

/-! PROOFS. 41_bus_init_and_configure.md R89 (a): the first CONFIGURE does not read what reset leaves unspecified. -/

namespace Sys2Proof.Machine

/-! ## Registers that a run of `init` does not read -/

/-- The working registers and the response. -/
structure Scratch where
  resp : Resp
  shreg : Byte
  bitcnt : Nat
  pulsecnt : Nat
  t0 : Cycles
  raw : Bit

/-- The state `s` with other working registers and another response. -/
def State.withScratch (s : State) (r : Scratch) : State :=
  { s with resp := r.resp, shreg := r.shreg, bitcnt := r.bitcnt, pulsecnt := r.pulsecnt, t0 := r.t0, raw := r.raw }

/-- Two states that differ in the working registers and the response only. -/
def Alike (s s' : State) : Prop := ∃ r, s' = s.withScratch r

/-- Two runs that end alike; where they wait for the counter, they wait from the same `T0`. -/
inductive RunAlike : Run → Run → Prop where
  | done {s s' : State} (alike : Alike s s') : RunAlike (.done s) (.done s')
  | waiting {s s' : State} (alike : Alike s s') (t0 : s.upc.phase = .waitPoll → s'.t0 = s.t0) :
      RunAlike (.waiting s) (.waiting s')

theorem RunAlike.bind {r r' : Run} {f : State → Run} (h : RunAlike r r')
    (onward : ∀ s s', Alike s s' → RunAlike (f s) (f s')) : RunAlike (r.bind f) (r'.bind f) := by
  cases h with
  | done alike => exact onward _ _ alike
  | waiting alike t0 => exact .waiting alike t0

/-- The stretch poll reads SCL only. -/
theorem pollStretch_alike (s : State) (r : Scratch) (phase : s.upc.phase ≠ .waitPoll) :
    RunAlike (pollStretch s) (pollStretch (s.withScratch r)) := by
  have read : pinReadScl (s.withScratch r) = ((pinReadScl s).1, (pinReadScl s).2.withScratch r) := rfl
  rw [pollStretch, pollStretch, repeatTurn, repeatTurn, read]
  split
  · exact .done ⟨r, rfl⟩
  · exact .waiting ⟨r, rfl⟩ fun h => absurd h phase

theorem driveStep_alike {s s' : State} (h : Alike s s') : RunAlike (driveStep s) (driveStep s') := by
  obtain ⟨r, rfl⟩ := h
  have driven : linesWrite (s.withScratch r).ls ((s.withScratch r).enter .drive)
      = (linesWrite s.ls (s.enter .drive)).withScratch r := rfl
  rw [driveStep, driveStep, driven, stretchStep, stretchStep]
  have same : requestsSclHigh ((linesWrite s.ls (s.enter .drive)).withScratch r)
      = requestsSclHigh (linesWrite s.ls (s.enter .drive)) := rfl
  rw [same]
  split
  · exact pollStretch_alike _ r (by simp)
  · exact .done ⟨r, rfl⟩

/-- The delay wait polls against the `T0` it has just read. -/
theorem waitCycles_alike (s : State) (r : Scratch) : RunAlike (waitCycles s) (waitCycles (s.withScratch r)) := by
  have armed : (armDelay (s.withScratch r)).enter .waitPoll
      = ((armDelay s).enter .waitPoll).withScratch { r with t0 := (armDelay s).t0 } := rfl
  have polled : pollCounter (((armDelay s).enter .waitPoll).withScratch { r with t0 := (armDelay s).t0 })
      = ((pollCounter ((armDelay s).enter .waitPoll)).1,
          (pollCounter ((armDelay s).enter .waitPoll)).2.withScratch { r with t0 := (armDelay s).t0 }) := rfl
  rw [waitCycles, waitCycles, armed, pollDelay, pollDelay, repeatTurn, repeatTurn, polled]
  split
  · exact .done ⟨_, rfl⟩
  · exact .waiting ⟨_, rfl⟩ fun _ => rfl

/-- The part of a call behind the recording of its pair. -/
theorem recorded_alike {s s' : State} (h : Alike s s') :
    RunAlike ((delayStep s).bind driveStep) ((delayStep s').bind driveStep) := by
  refine RunAlike.bind ?_ fun _ _ => driveStep_alike
  obtain ⟨r, rfl⟩ := h
  have same : delayPositive (s.withScratch r) = delayPositive s := rfl
  rw [delayStep, delayStep, same]
  split
  · exact waitCycles_alike s r
  · exact .done ⟨r, rfl⟩

theorem setLines_alike (a b : Nat) {s s' : State} (h : Alike s s') : RunAlike (setLines a b s) (setLines a b s') := by
  obtain ⟨r, rfl⟩ := h
  exact recorded_alike ⟨r, rfl⟩

theorem value_alike {a : LineArg} (h : (a != .dataBit) = true) (s : State) (r : Scratch) :
    a.value (s.withScratch r) = a.value s := by
  cases a with
  | dataBit => cases h
  | _ => rfl

theorem called_alike {r r' : Run} (h : RunAlike r r') :
    RunAlike (r.bind fun t => .done (callDone t)) (r'.bind fun t => .done (callDone t)) :=
  h.bind fun s s' ⟨x, alike⟩ => .done ⟨x, by rw [alike]; rfl⟩

/-- A sequence that takes no data bit runs alike. -/
theorem runMicros_alike {ms : List Micro} (noData : noDataBit ms = true) {s s' : State} (h : Alike s s') :
    RunAlike (runMicros ms s) (runMicros ms s') := by
  induction ms generalizing s s' with
  | nil => exact .done h
  | cons m ms ih =>
    obtain ⟨r, rfl⟩ := h
    rw [runMicros, runMicros]
    cases m with
    | call a b =>
      rw [noDataBit, Bool.and_eq_true, Bool.and_eq_true] at noData
      obtain ⟨⟨ha, hb⟩, rest⟩ := noData
      refine RunAlike.bind ?_ fun _ _ => ih rest
      rw [runMicro, runMicro, value_alike ha, value_alike hb]
      exact called_alike (setLines_alike _ _ ⟨r, rfl⟩)
    | sampleRaw => exact ih noData ⟨{ r with raw := (sampleRaw s).raw }, rfl⟩
    | sampleBit => exact ih noData ⟨{ r with shreg := (sampleBit (s.withScratch r)).shreg }, rfl⟩
    | bitIndex i => exact ih noData ⟨{ r with bitcnt := i }, rfl⟩
    | pulseIndex i => exact ih noData ⟨{ r with pulsecnt := i }, rfl⟩

/-! ## The entry of the first CONFIGURE -/

/-- The state `s` with another recorded pair, other working registers and another response. -/
def State.unrecorded (s : State) (l : Lines) (r : Scratch) : State := { s with ls := l }.withScratch r

/-- `init` records a pair before it reads `LS`. -/
theorem runMicros_initBody_alike (order : PulseOrder) (u : State) (l : Lines) (r : Scratch) :
    RunAlike (runMicros (initBody order) u) (runMicros (initBody order) (u.unrecorded l r)) := by
  have begins : ∃ ms, initBody order = .call .high .low :: ms ∧ noDataBit ms = true := by
    cases order <;> exact ⟨_, rfl, rfl⟩
  obtain ⟨ms, body, noData⟩ := begins
  rw [body, runMicros, runMicros]
  refine RunAlike.bind ?_ fun _ _ => runMicros_alike noData
  rw [runMicro, runMicro]
  exact called_alike (recorded_alike ⟨r, rfl⟩)

theorem recalibrate_unrecorded (s : State) (delay : Cycles) (l : Lines) (r : Scratch) :
    recalibrate ({ s with delay := delay }.unrecorded l r) = (recalibrate s).map (·.unrecorded l r) := by
  rw [recalibrate_eq, recalibrate_eq]
  by_cases fits : calibrate s.cfg.speedHz.toNat s.env.nextFreq.cpuFreq < 2 ^ Config.counterWidth
  · rw [if_pos fits]
    exact if_pos fits
  · rw [if_neg fits]
    exact if_neg fits

/-- The entry writes the configuration and the delay, and while both lines are released the record of low pins does not
depend on which pins are selected. -/
theorem configureEntry_unrecorded {s : State} (released : s.drv = ⟨true, true⟩) (cfg : BusConfig) (pinSda pinScl : Nat)
    (delay : Cycles) (l : Lines) (r : Scratch) (sda scl : PinId) (speed : Speed) (gSda gScl : Nat) :
    configureEntry sda scl speed gSda gScl
        ({ s with cfg := cfg, gpioSda := pinSda, gpioScl := pinScl, delay := delay }.unrecorded l r)
      = (configureEntry sda scl speed gSda gScl s).map (·.unrecorded l r) := by
  have latched : latchConfig sda scl speed gSda gScl (accept .configure .setup
        ({ s with cfg := cfg, gpioSda := pinSda, gpioScl := pinScl, delay := delay }.unrecorded l r))
      = { latchConfig sda scl speed gSda gScl (accept .configure .setup s) with delay := delay }.unrecorded l r := by
    obtain ⟨⟩ := s
    cases released
    rfl
  rw [configureEntry, configureEntry, latched, recalibrate_unrecorded, Option.map_map, Option.map_map]
  rfl

/-- The first CONFIGURE, behind the guards it refuses by. -/
theorem exec_firstConfigure {s : State} (free : s.busy = false) (unconfigured : s.configured = false) {sda scl : PinId}
    {gSda gScl : Nat} (mappedSda : pinMap sda s = some gSda) (mappedScl : pinMap scl s = some gScl)
    (distinct : gSda ≠ gScl) (speed : Speed) :
    exec (.configure sda scl speed) s
      = (configureEntry sda scl speed gSda gScl s).elim (.refused .delayOutOfRange) (runCommand .configure) := by
  rw [configureEntry]
  simp only [exec, execConfigure, free, unconfigured, mappedSda, mappedScl, configureMapped, distinct]
  cases recalibrate (latchConfig sda scl speed gSda gScl (accept .configure .setup s)) <;> rfl

/-- What a first CONFIGURE is refused by is the pin table, the two identifiers, the speed and the frequency. -/
theorem exec_refused_unrecorded {s s' : State} (free : s.busy = false ∧ s'.busy = false)
    (unconfigured : s.configured = false ∧ s'.configured = false) (table : s'.env.pinMap = s.env.pinMap)
    {sda scl : PinId} {speed : Speed} {r : Refusal}
    (entries : ∀ gSda gScl, configureEntry sda scl speed gSda gScl s = none →
      configureEntry sda scl speed gSda gScl s' = none)
    (h : exec (.configure sda scl speed) s = .refused r) : exec (.configure sda scl speed) s' = .refused r := by
  have same : ∀ id, pinMap id s' = pinMap id s := fun id => by rw [pinMap, pinMap, table]
  cases mappedSda : pinMap sda s with
  | none =>
    simp only [exec, execConfigure, free, unconfigured, same, mappedSda] at h ⊢
    exact h
  | some gSda =>
    cases mappedScl : pinMap scl s with
    | none =>
      simp only [exec, execConfigure, free, unconfigured, same, mappedSda, mappedScl] at h ⊢
      exact h
    | some gScl =>
      by_cases distinct : gSda = gScl
      · subst distinct
        simp only [exec, execConfigure, free, unconfigured, same, mappedSda, mappedScl, configureMapped, if_true] at h ⊢
        exact h
      · rw [exec_firstConfigure free.1 unconfigured.1 mappedSda mappedScl distinct] at h
        rw [exec_firstConfigure free.2 unconfigured.2 ((same _).trans mappedSda) ((same _).trans mappedScl) distinct]
        cases entry : configureEntry sda scl speed gSda gScl s with
        | none =>
          rw [entry] at h
          rw [entries _ _ entry]
          exact h
        | some u =>
          rw [entry] at h
          obtain ⟨t, run, -⟩ := runCommand_spec .configure u
          cases run.symm.trans h

/-- Settles O54: the registers reset leaves unspecified are written by the entry, by the first call or not read at all. -/
theorem firstConfigureIgnoresUnspecified : Obligations.FirstConfigureIgnoresUnspecified := by
  intro s s' sda scl speed free unconfigured released differ
  have entries : ∀ gSda gScl, configureEntry sda scl speed gSda gScl s'
      = (configureEntry sda scl speed gSda gScl s).map
          (·.unrecorded s'.ls ⟨s'.resp, s'.shreg, s'.bitcnt, s'.pulsecnt, s'.t0, s'.raw⟩) := fun gSda gScl => by
    rw [← configureEntry_unrecorded released s'.cfg s'.gpioSda s'.gpioScl s'.delay]
    exact congrArg _ differ
  have free' : s'.busy = false := by rw [differ]; exact free
  have unconfigured' : s'.configured = false := by rw [differ]; exact unconfigured
  have table : s'.env.pinMap = s.env.pinMap := by rw [differ]
  refine ⟨fun r => exec_refused_unrecorded ⟨free, free'⟩ ⟨unconfigured, unconfigured'⟩ table fun gSda gScl none => by
    rw [entries, none]; rfl, fun t run => ?_⟩
  obtain ⟨-, u, entered, run⟩ := exec_next run
  obtain ⟨⟨busy, command, -⟩, -⟩ := entered.accepted
  cases entered with
  | configure _ mappedSda mappedScl distinct entry =>
    have entry' := (entries _ _).trans (congrArg (Option.map _) entry)
    have entered' : Enters (.configure sda scl speed) s' _ :=
      .configure (fun configured => absurd (configured.symm.trans unconfigured') (by decide))
        (by rw [pinMap, table]; exact mappedSda) (by rw [pinMap, table]; exact mappedScl) distinct entry'
    have alike := runMicros_initBody_alike u.env.pulseOrder u s'.ls
      ⟨s'.resp, s'.shreg, s'.bitcnt, s'.pulsecnt, s'.t0, s'.raw⟩
    have moved := runMicros_moved (initBody u.env.pulseOrder) u
    rw [exec_enters free' entered']
    change settle (runMicros (initBody u.env.pulseOrder) u) = .next t at run
    change ∃ t', settle (runMicros (initBody u.env.pulseOrder) (u.unrecorded _ _)) = .next t' ∧ _
    generalize runMicros (initBody u.env.pulseOrder) u = ended at run alike moved
    generalize runMicros (initBody u.env.pulseOrder) (u.unrecorded _ _) = ended' at alike ⊢
    obtain ⟨-, -, -, -, -, keepsBusy, keepsCommand, -⟩ := moved.fields
    cases alike with
    | @done w w' alike =>
      obtain ⟨r, rfl⟩ := alike
      cases run
      have completed : w.upc.cmd = some .configure := keepsCommand.trans command
      have resp : (complete (w.withScratch r)).resp = (complete w).resp := by
        simp only [complete, State.withScratch, completed]
        rfl
      exact ⟨_, rfl, rfl, fun _ => resp, fun waits => by cases waits⟩
    | waiting alike t0 =>
      obtain ⟨r, rfl⟩ := alike
      cases run
      exact ⟨_, rfl, rfl, fun over' => absurd (over'.symm.trans (keepsBusy.trans busy)) (by decide), t0⟩

end Sys2Proof.Machine
